-- ==== Sys2Proof/Word.lean ====
section
/-! DEFINITION. The types of the block's quantities (00_scope.md rules R9, R14, R15): words and
registers of a fixed width are bit vectors, bit sequences are lists of bits. -/

namespace Sys2Proof

/-- A command word, `CMD_W = 64` bits (R9, R70). -/
abbrev Word := BitVec 64

/-- A symbol field, `SYM_W = 21` bits (R9, R77). -/
abbrev Sym := BitVec 21

/-- A code length field, 6 bits (R71). -/
abbrev CodeLen := BitVec 6

/-- A code field: the code's bits, right-aligned in 32 bits (R76). -/
abbrev CodeWord := BitVec 32

/-- One byte of payload (R50, R78). -/
abbrev Byte := BitVec 8

/-- A bit counter or the bit limit, `CNT_W = 32` bits (R9, R178). -/
abbrev Count := BitVec 32

/-- A register as the host reads it, 32 bits (R33). -/
abbrev RegValue := BitVec 32

/-- A bit sequence: element 0 is the first bit of the stream (R15). -/
abbrev Bits := List Bool

/-- `zeros(n)` (R15). -/
def zeros (n : Nat) : Bits := List.replicate n false

end Sys2Proof
end

