-- ==== Sys2Proof/Syntax.lean ====
section
/-! DEFINITION. The nine commands of the block (30_encoding.md rule R72), one constructor per row of
spec/opcode_table.json, each with the operand fields of its format (R73). -/

namespace Sys2Proof

/-- A command of the block: the block's unit of execution (R19, R70). An operand is the field of the
word as it stands; whether its value is legal is checked by the command's own rule (R74, R75). -/
inductive Instr where
  /-- NOP, format N (R102). -/
  | nop
  /-- CLR, format N (R101). -/
  | clr
  /-- LDE, format T: load one code-table entry (R100). -/
  | lde (sym : Sym) (len : CodeLen) (code : CodeWord)
  /-- PKC, format C: pack one code given by its bits (R110). -/
  | pkc (len : CodeLen) (code : CodeWord)
  /-- PKS, format S: look a symbol up and pack its code (R111). -/
  | pks (sym : Sym)
  /-- PKF, format N: flush and close the pack stream (R114). -/
  | pkf
  /-- UPB, format B: unpack one payload byte (R121). -/
  | upb (byte : Byte)
  /-- UPE, format N: end of payload, close the unpack stream (R127). -/
  | upe
  /-- ULM, format L: set or clear the unpacker's bit limit (R120). -/
  | ulm (en : Bool) (limit : Count)
  deriving DecidableEq, Repr

end Sys2Proof
end

