-- ==== Sys2Proof/Decode.lean ====
section
/-! DEFINITION. The decoder (30_encoding.md rules R71 to R75): nine (match, mask) rows, total on every
64-bit word, refusing a word that spells no command by the reason R75 gives; and the encoder, written
from the formats of rule R73. -/

namespace Sys2Proof

/-- The field `op`, bits 63:60 (R71). -/
def opField (w : Word) : BitVec 4 := w.extractLsb' 60 4

/-- The field `rsv`, bit 59, which must be 0 in every command (R71). -/
def rsvField (w : Word) : Bool := w.getLsbD 59

/-- The field `sym`, bits 58:38 (R71). -/
def symField (w : Word) : Sym := w.extractLsb' 38 21

/-- The field `len`, bits 37:32 (R71). -/
def lenField (w : Word) : CodeLen := w.extractLsb' 32 6

/-- The field `code`, bits 31:0 (R71); in format L the limit (R79). -/
def codeField (w : Word) : CodeWord := w.extractLsb' 0 32

/-- The field `byte` of format B, bits 7:0 (R71, R78). -/
def byteField (w : Word) : Byte := w.extractLsb' 0 8

/-- The field `en` of format L, bit 32 (R71, R79). -/
def enField (w : Word) : Bool := w.getLsbD 32

/-- One row of the decoding table of R74: a word spells the row's command exactly when
`w AND mask = pattern`; `read` takes the operand fields of the row's format (R73). -/
structure DecodeRow where
  pattern : Word
  mask : Word
  read : Word → Instr

/-- The decoding table of R74, in its order. -/
def decodeRows : List DecodeRow :=
  [ ⟨0x0000000000000000, 0xFFFFFFFFFFFFFFFF, fun _ => .nop⟩,
    ⟨0x1000000000000000, 0xFFFFFFFFFFFFFFFF, fun _ => .clr⟩,
    ⟨0x2000000000000000, 0xF800000000000000, fun w => .lde (symField w) (lenField w) (codeField w)⟩,
    ⟨0x3000000000000000, 0xFFFFFFC000000000, fun w => .pkc (lenField w) (codeField w)⟩,
    ⟨0x4000000000000000, 0xF800003FFFFFFFFF, fun w => .pks (symField w)⟩,
    ⟨0x5000000000000000, 0xFFFFFFFFFFFFFFFF, fun _ => .pkf⟩,
    ⟨0x6000000000000000, 0xFFFFFFFFFFFFFF00, fun w => .upb (byteField w)⟩,
    ⟨0x7000000000000000, 0xFFFFFFFFFFFFFFFF, fun _ => .upe⟩,
    ⟨0x8000000000000000, 0xFFFFFFFE00000000, fun w => .ulm (enField w) (codeField w)⟩ ]

/-- Word `w` spells the row's command (R74). -/
def DecodeRow.spells (r : DecodeRow) (w : Word) : Bool := w &&& r.mask == r.pattern

/-- Why a word spells no command (R75). All three raise `E_CMD` when executed; the names are the
model's. -/
inductive IllegalReason where
  /-- `op` is 0x9..0xF. -/
  | reservedOp (op : BitVec 4)
  /-- `op` is 0x0..0x8 and `rsv` is 1. -/
  | reservedBit (op : BitVec 4)
  /-- `op` is 0x0..0x8, `rsv` is 0 and a must-be-zero bit of the format is 1. -/
  | mustBeZero (op : BitVec 4)
  deriving DecidableEq, Repr

/-- What a 64-bit word spells: exactly one command, or none (R74, R75). -/
inductive Decoded where
  | command (i : Instr)
  | illegal (why : IllegalReason)
  deriving DecidableEq, Repr

/-- The reason of R75 for a word that matches no row. -/
def illegalReason (w : Word) : IllegalReason :=
  if 9 ≤ (opField w).toNat then .reservedOp (opField w)
  else if rsvField w then .reservedBit (opField w)
  else .mustBeZero (opField w)

/-- The decoder: total on every word (R74, R75). -/
def decode (w : Word) : Decoded :=
  match decodeRows.find? (·.spells w) with
  | some r => .command (r.read w)
  | none => .illegal (illegalReason w)

/-- The command a decoding gives, if it gives one. -/
def Decoded.toOption : Decoded → Option Instr
  | .command i => some i
  | .illegal _ => none

/-- The fields of a word put together, bit 63 first (R71, R73): op, rsv = 0, sym, len, code. -/
def assembleFields (op : BitVec 4) (sym : Sym) (len : CodeLen) (code : CodeWord) : Word :=
  op ++ 0#1 ++ sym ++ len ++ code

/-- The word of a command, by its format of R73 and its operation number of R72. -/
def encode : Instr → Word
  | .nop => assembleFields 0x0 0 0 0
  | .clr => assembleFields 0x1 0 0 0
  | .lde sym len code => assembleFields 0x2 sym len code
  | .pkc len code => assembleFields 0x3 0 len code
  | .pks sym => assembleFields 0x4 sym 0 0
  | .pkf => assembleFields 0x5 0 0 0
  | .upb byte => assembleFields 0x6 0 0 (byte.zeroExtend 32)
  | .upe => assembleFields 0x7 0 0 0
  | .ulm en limit => assembleFields 0x8 0 ((BitVec.ofBool en).zeroExtend 6) limit

/-- The command the decoder reads from an opcode-table row's word: `w`'s low `nbits` bits, every bit
above them 0. Every command is one 64-bit word (R70), whose bit 0 is the table's bit 0. -/
def decodeTableWord (nbits w : Nat) : Option Instr :=
  (decode (BitVec.ofNat 64 (w % 2 ^ nbits))).toOption

end Sys2Proof
end

