-- ==== Sys2Proof/Config.lean ====
section
/-! DEFINITION. The parameters of the block that the spec fixes (00_scope.md rule R9), and the one
it leaves open, `N_ENTRIES`: the model takes that one as the field `nEntries` of the state, so that a
statement over every state is a statement over every capacity (notes/assumptions/4.md). The block has
no free value: "There is no `any value` anywhere in the block" (93_implementation_defined.md). -/

namespace Sys2Proof.Config

/-- `L_MAX`, the greatest code length the block accepts, in bits (R9). -/
def lMax : Nat := 32

/-- `CNT_W`, the width of PBITS, UIN, UUSED and ULIM, in bits (R9). -/
def cntW : Nat := 32

/-- The greatest value a bit counter holds, `2^32 - 1` (R9, R172). -/
def cntMax : Nat := 2 ^ cntW - 1

/-- `WIN_W`, the capacity of the unpacker window in bits, `L_MAX + 7` (R9, R129). -/
def winW : Nat := lMax + 7

/-- The capacities `N_ENTRIES` may take: at least 1 (R9), below `2^32` (R38). -/
abbrev capacityOK (n : Nat) : Prop := 1 ≤ n ∧ n < 2 ^ 32

end Sys2Proof.Config
end

