-- ==== Sys2Proof/Machine/Operands.lean ====
section
/-! DEFINITION. Operand forms and the conversions between numbers and bit sequences: `BitsOf`,
`ValOf`, `ByteOf`, `BitsOfByte` (00_scope.md rule R16), the legality of a code operand and of a symbol
operand (30_encoding.md rules R76, R77), and the packed payload of a sequence of codes (rule R81). -/

namespace Sys2Proof.Machine

/-- `BitsOf(n, v)`: the n-bit sequence whose element i is bit `n-1-i` of v, the most significant bit
first (R16). -/
def bitsOf : Nat → Nat → Bits
  | 0, _ => []
  | n + 1, v => v.testBit n :: bitsOf n v

/-- `ValOf(s)`, the sum over i of `s[i] * 2^(|s|-1-i)` (R16). -/
def valOf : Bits → Nat
  | [] => 0
  | b :: s => b.toNat * 2 ^ s.length + valOf s

/-- `ByteOf(s)` for a sequence of 8 bits: element 0 is bit 7 of the byte (R16). -/
def byteOf (s : Bits) : Byte := BitVec.ofNat 8 (valOf s)

/-- `BitsOfByte(b) = BitsOf(8, b)` (R16): bit 7 of the byte enters the stream first (R57). -/
def bitsOfByte (b : Byte) : Bits := bitsOf 8 b.toNat

/-- `CodeOK(len, code)`: `1 <= len <= 32` and `code < 2^len` (R76). -/
def codeOK (len : CodeLen) (code : CodeWord) : Bool :=
  decide (1 ≤ len.toNat ∧ len.toNat ≤ Config.lMax ∧ code.toNat < 2 ^ len.toNat)

/-- `ScalarOK(sym)`: `sym <= 0x10FFFF` and not a surrogate `0xD800..0xDFFF` (R77). -/
def scalarOK (sym : Sym) : Bool :=
  decide (sym.toNat ≤ 0x10FFFF ∧ ¬ (0xD800 ≤ sym.toNat ∧ sym.toNat ≤ 0xDFFF))

/-- The bit sequence a code operand denotes, `BitsOf(len, code)`: the first bit of the code is bit
`len-1` of the field, the last is bit 0 (R76). -/
def codeBits (len : CodeLen) (code : CodeWord) : Bits := bitsOf len.toNat code.toNat

/-- Every byte that fills, taken off the front of an accumulator: the loop of `PackBits` (R112), at
most `fuel` times. Answers the bytes in order and the bits that remain. -/
def fillBytes : Nat → Bits → List Byte × Bits
  | 0, acc => ([], acc)
  | fuel + 1, acc =>
    if acc.length < 8 then ([], acc)
    else
      let more := fillBytes fuel (acc.drop 8)
      (byteOf (acc.take 8) :: more.1, more.2)

/-- A stream of bits padded with zeros on the right to whole bytes, `S'` of R81 (R59). -/
def padToByte (s : Bits) : Bits := s ++ zeros ((8 - s.length % 8) % 8)

/-- The packed payload of a sequence of codes (R81): byte j holds bits `8j .. 8j+7` of the padded
concatenation, most significant first. -/
def payloadOf (codes : List Bits) : List Byte :=
  let padded := padToByte codes.flatten
  (List.range (padded.length / 8)).map fun j => byteOf ((padded.drop (8 * j)).take 8)

end Sys2Proof.Machine
end

