-- ==== Sys2Proof/Machine/Params.lean ====
section
/-! DEFINITION. The value the open parameter `N_ENTRIES` has in the model's reset state. -/

namespace Sys2Proof.Machine

/-- DESIGN CHOICE: the capacity of the code table in `State.reset`. The spec leaves `N_ENTRIES` open
(00_scope.md rule R9: "OPEN: the model takes it as an argument"); no statement rests on this number
(notes/assumptions/4.md). -/
def capacityAtReset : Nat := 256

end Sys2Proof.Machine
end

