-- ==== Sys2Proof/Machine/State.lean ====
section
/-! DEFINITION. The state of the block (10_state.md rules R22 to R31), its two outputs, what the host
will still do at the command port and the reset input, and the reset values (rule R47). -/

namespace Sys2Proof.Machine

/-- One valid code-table entry, exactly as it stood in the LDE word that wrote it (R23, R80). -/
structure Entry where
  sym : Sym
  len : CodeLen
  code : CodeWord
  deriving DecidableEq, Repr

/-- The values `ERR` takes: none and the eight faults of R161, in the order of their codes 0..8.
The codes 9..15 are never written (R161). -/
inductive ErrCode where
  /-- 0, not faulted. -/
  | noError
  /-- 1 `E_CMD`, the word spells no command: any word (R162). -/
  | eCmd
  /-- 2 `E_SYM`, the symbol is no Unicode scalar value: LDE, PKS (R163). -/
  | eSym
  /-- 3 `E_LEN`, the code is empty, too long or has bits above `len`: LDE, PKC (R164). -/
  | eLen
  /-- 4 `E_LOCK`, a table or limit change while a stream is open: LDE, ULM (R165). -/
  | eLock
  /-- 5 `E_DUP`, the symbol or the code is already in the table: LDE (R168). -/
  | eDup
  /-- 6 `E_FULL`, the table holds `N_ENTRIES` entries: LDE (R169). -/
  | eFull
  /-- 7 `E_MISS`, the symbol has no entry: PKS (R171). -/
  | eMiss
  /-- 8 `E_OVF`, a bit counter would pass `2^32 - 1`: PKC, PKS, UPB (R172). -/
  | eOvf
  deriving DecidableEq, Repr

/-- What the host does to the block between two commands: it issues a command word (R51) or asserts
the `rst` input (R185, R186). There is no other way to change the block's state (R11). -/
inductive HostEvent where
  | command (w : Word)
  | reset
  deriving DecidableEq, Repr

/-- Why a step would stop the machine. There is no constructor: every command completes, a fault of
R161 is a next state (FAULTED), an empty command stream leaves the block as it is (R179). Raised by
nobody; safe. -/
inductive Fault where
  deriving DecidableEq, Repr

/-- Why a command is given no meaning. -/
inductive Refusal where
  /-- An instruction that has no meaning yet: raised only by an arm of `exec`. Safe: the machine stops.
  No arm of this model raises it. -/
  | notModelled (mnemonic : String)
  deriving DecidableEq, Repr

/-- The state of the block: exactly the elements of R22, the two outputs of R31, the open parameter
`N_ENTRIES` of R9 and the host's remaining events. -/
structure State where
  /-- The valid entries of the code table `T`, entry i at position i (R23): entry i is valid exactly
  when `i < TCOUNT` (R24), so `TCOUNT` is the length of this list. -/
  table : List Entry
  /-- `pacc`: the bits accepted by PKC and PKS that have not yet filled a byte (R26). -/
  pacc : Bits
  /-- `PACTIVE`: a pack stream is open (R26). -/
  pactive : Bool
  /-- `PBITS`: the bits packed in the current or last pack stream (R26). -/
  pbits : Count
  /-- `ubuf`: the unpacker window (R28). -/
  ubuf : Bits
  /-- `UACTIVE`: an unpack stream is open (R28). -/
  uactive : Bool
  /-- `USTOP`: the decoder met a position no code matches (R28). -/
  ustop : Bool
  /-- `LIMEN`: the bit limit is on (R28). -/
  limen : Bool
  /-- `ULIM`: the bit limit (R28). -/
  ulim : Count
  /-- `UIN`: the bits accepted in the current or last unpack stream (R28). -/
  uin : Count
  /-- `UUSED`: the bits consumed by matches in that stream (R28). -/
  uused : Count
  /-- `ERR`: the fault code (R30). -/
  err : ErrCode
  /-- `ERRCMD`: the command word that faulted (R30). -/
  errcmd : Word
  /-- `pout`: the bytes the packer has emitted since reset, oldest first (R31). -/
  pout : List Byte
  /-- `uout`: the symbols the decoder has emitted since reset, oldest first (R31). -/
  uout : List Sym
  /-- `N_ENTRIES`: the capacity of the table (R9). The model's own field: no step changes it. -/
  nEntries : Nat
  /-- The command stream with the assertions of `rst` in it, in order (R50, R51, R186). The model's own
  field: what the host will still do. -/
  input : List HostEvent
  deriving DecidableEq, Repr

/-- The state after reset of a block of capacity `n` whose host will do `input` (R47, R185). -/
def State.resetWith (n : Nat) (input : List HostEvent) : State :=
  { table := [], pacc := [], pactive := false, pbits := 0,
    ubuf := [], uactive := false, ustop := false, limen := false, ulim := 0, uin := 0, uused := 0,
    err := .noError, errcmd := 0, pout := [], uout := [], nEntries := n, input := input }

/-- The machine right after reset (R47, R185), with nothing issued yet. -/
def State.reset : State := State.resetWith capacityAtReset []

end Sys2Proof.Machine
end

