-- ==== Sys2Proof/Machine/Ops.lean ====
section
/-! DEFINITION. The named operations over the state that the commands share: fault entry and the
FAULTED state (60_exceptions.md rules R166, R167), clearing and reset (rules R101, R185), the code table
and its two lookups (20_memory.md rules R60, R61), the packing procedure (41_packer.md rule R112), the
decoder (42_unpacker.md rules R122 to R124) and the taking of the host's next event. -/

namespace Sys2Proof.Machine

/-- What a command answers. -/
abbrev Answer := Host.Outcome State Fault Refusal

/-! ### Faults -/

/-- The block is in the FAULTED state: `ERR != 0` (R30, R167). -/
def faulted (s : State) : Bool := s.err != .noError

/-- Fault entry, `raise E_x(w)`: `ERR` and `ERRCMD`, no other state element, nothing emitted (R166). -/
def raise (e : ErrCode) (w : Word) (s : State) : Answer := .next { s with err := e, errcmd := w }

/-- The FAULTED test of `Step` for every word but CLR: a faulted block ignores it (R103, R167). -/
def whenRunning (s : State) (run : State → Answer) : Answer :=
  if faulted s then .next s else run s

/-- Executing a word that spells no command: `E_CMD`, unless the block is faulted (R75, R103). -/
def runIllegal (w : Word) (s : State) : Answer := whenRunning s (raise .eCmd w)

/-! ### Clearing, reset and the host's events -/

/-- Every element of R22 at its reset value; `pout` and `uout` keep what was emitted (R101). -/
def clearState (s : State) : State :=
  { State.resetWith s.nEntries s.input with pout := s.pout, uout := s.uout }

/-- The block after `rst` was asserted: the reset state, outputs emptied (R185). -/
def resetState (s : State) : State := State.resetWith s.nEntries s.input

/-- The host's next event and the state in which the block meets it (R51, R63, R186). -/
def takeEvent (s : State) : Option (HostEvent × State) :=
  match s.input with
  | [] => none
  | e :: rest => some (e, { s with input := rest })

/-- The host issues the command word `w` as its next event (R51). -/
def issueNext (w : Word) (s : State) : State := { s with input := .command w :: s.input }

/-! ### The code table -/

/-- `TCOUNT`: the number of valid entries (R25). -/
def tcount (s : State) : Nat := s.table.length

/-- The greatest `len` of the entries of a table, 0 for the empty one (R25). -/
def maxLen : List Entry → Nat
  | [] => 0
  | e :: rest => max e.len.toNat (maxLen rest)

/-- `TMAXLEN` (R25). -/
def tmaxlen (s : State) : Nat := maxLen s.table

/-- The bit sequence an entry's code denotes (R80). -/
def Entry.bits (e : Entry) : Bits := codeBits e.len e.code

/-- `T[i]` as R23 gives it, the flag `valid` and the entry: valid exactly when `i < TCOUNT` (R24). The
other fields of an invalid entry are never read; the model takes them as 0 (R47). -/
def slotAt (s : State) (i : Nat) : Bool × Entry :=
  match s.table[i]? with
  | some e => (true, e)
  | none => (false, ⟨0, 0, 0⟩)

/-- A valid entry already has this symbol or this code (R100, R168). -/
def inTable (s : State) (sym : Sym) (len : CodeLen) (code : CodeWord) : Bool :=
  s.table.any fun e => e.sym == sym || (e.len == len && e.code == code)

/-- `T[TCOUNT] <- {valid = 1, ...}; TCOUNT <- TCOUNT + 1` (R100). -/
def loadEntry (e : Entry) (s : State) : State := { s with table := s.table ++ [e] }

/-- `Lookup(sym)`: the valid entry with this symbol (R60). -/
def lookup (table : List Entry) (sym : Sym) : Option Entry := table.find? fun e => e.sym == sym

/-- The entry's code is a prefix of `buf` (R61). -/
def matchesAt (buf : Bits) (e : Entry) : Bool :=
  decide (e.len.toNat ≤ buf.length) && (e.bits == buf.take e.len.toNat)

/-- `Match(buf)`: the longest code of the table that is a prefix of `buf` (R61). -/
def matchLongest : List Entry → Bits → Option Entry
  | [], _ => none
  | e :: rest, buf =>
    match matchesAt buf e, matchLongest rest buf with
    | true, some e' => if e.len.toNat < e'.len.toNat then some e' else some e
    | true, none => some e
    | false, found => found

/-! ### The packer -/

/-- `Emit(pout, b)` for each byte in order (R17, R54). -/
def emitBytes (bs : List Byte) (s : State) : State := { s with pout := s.pout ++ bs }

/-- `PackBits(w, bits)`: count the code's bits, append them and emit every byte that fills (R112). -/
def packBits (w : Word) (bits : Bits) (s : State) : Answer :=
  let base := if s.pactive then s.pbits.toNat else 0
  if Config.cntMax < base + bits.length then raise .eOvf w s
  else
    let acc := s.pacc ++ bits
    let filled := fillBytes acc.length acc
    .next (emitBytes filled.1
      { s with pbits := BitVec.ofNat 32 (base + bits.length), pactive := true, pacc := filled.2 })

/-! ### The unpacker and decoder -/

/-- `Emit(uout, sym)` (R17, R54). -/
def emitSymbol (sym : Sym) (s : State) : State := { s with uout := s.uout ++ [sym] }

/-- `DecodeStep`: take the longest code at the head of the window, or stop (R122, R124). -/
def decodeStep (s : State) : State :=
  match matchLongest s.table s.ubuf with
  | none => { s with ustop := true, ubuf := [] }
  | some e =>
    emitSymbol e.sym
      { s with ubuf := s.ubuf.drop e.len.toNat, uused := s.uused + BitVec.ofNat 32 e.len.toNat }

/-- The head of the window is decided and the decoder has not stopped: none of the three exits of
`Drain(final)` applies (R123). -/
def decides (final : Bool) (s : State) : Bool :=
  !s.ustop && !s.ubuf.isEmpty && (final || decide (tmaxlen s ≤ s.ubuf.length))

/-- The loop of `Drain(final)`, at most `fuel` decoding steps (R123). -/
def drainLoop : Nat → Bool → State → State
  | 0, _, s => s
  | fuel + 1, final, s => if decides final s then drainLoop fuel final (decodeStep s) else s

/-- `Drain(final)` (R123): it "runs at most |ubuf| steps" (R130). -/
def drain (final : Bool) (s : State) : State := drainLoop s.ubuf.length final s

/-- The number of a byte's bits the bit limit lets in, after `base` accepted ones (R121). -/
def acceptedBits (s : State) (base : Nat) : Nat :=
  if s.limen then min 8 (s.ulim.toNat - base) else 8

/-- The first UPB after the unpacker was idle opens the stream (R121). -/
def openUnpack (s : State) : State :=
  if s.uactive then s else { s with uactive := true, uused := 0, ustop := false }

/-- Accepted bits enter the window and what is decided is decoded; after a stop they are discarded
(R121, R124). -/
def acceptBits (bits : Bits) (s : State) : State :=
  if s.ustop then s else drain false { s with ubuf := s.ubuf ++ bits }

end Sys2Proof.Machine
end

