-- ==== Sys2Proof/Machine/Control.lean ====
section
/-! DEFINITION. The control and table family: NOP, CLR, LDE (40_control_table.md rules R100 to R102).
A meaning is the whole of `Step` for its command, the FAULTED test included (rule R103); the word a
fault records is the command's own, `encode` of it (notes/assumptions/7.md). -/

namespace Sys2Proof.Machine

/-- NOP: no state element changes, nothing is emitted (R102). -/
def execNop (s : State) : Answer := whenRunning s .next

/-- CLR: every element to its reset value, the outputs kept; the only command that runs in the FAULTED
state (R101, R103). -/
def execClr (s : State) : Answer := .next (clearState s)

/-- LDE: load one table entry, checks in the order `E_SYM`, `E_LEN`, `E_LOCK`, `E_DUP`, `E_FULL`
(R100, R170). -/
def execLde (sym : Sym) (len : CodeLen) (code : CodeWord) (s : State) : Answer :=
  let w := encode (.lde sym len code)
  whenRunning s fun s =>
    if !scalarOK sym then raise .eSym w s
    else if !codeOK len code then raise .eLen w s
    else if s.pactive || s.uactive then raise .eLock w s
    else if inTable s sym len code then raise .eDup w s
    else if tcount s = s.nEntries then raise .eFull w s
    else .next (loadEntry ⟨sym, len, code⟩ s)

end Sys2Proof.Machine
end

