-- ==== Sys2Proof/Machine/Packer.lean ====
section
/-! DEFINITION. The packer family: PKC, PKS, PKF (41_packer.md rules R110, R111, R114). -/

namespace Sys2Proof.Machine

/-- PKC: pack a code given by its bits; the table is not read (R110). -/
def execPkc (len : CodeLen) (code : CodeWord) (s : State) : Answer :=
  let w := encode (.pkc len code)
  whenRunning s fun s =>
    if !codeOK len code then raise .eLen w s else packBits w (codeBits len code) s

/-- PKS: look the symbol up and pack its code (R111). -/
def execPks (sym : Sym) (s : State) : Answer :=
  let w := encode (.pks sym)
  whenRunning s fun s =>
    if !scalarOK sym then raise .eSym w s
    else match lookup s.table sym with
      | none => raise .eMiss w s
      | some e => packBits w e.bits s

/-- The byte PKF emits for the pending bits, if there are any: padded with zeros on the right (R114). -/
def lastByte (pacc : Bits) : List Byte :=
  if pacc.isEmpty then [] else [byteOf (pacc ++ zeros (8 - pacc.length))]

/-- PKF: pad and emit the last byte, close the pack stream; nothing on an idle packer (R114). -/
def execPkf (s : State) : Answer :=
  whenRunning s fun s =>
    if s.pactive then
      .next (emitBytes (lastByte s.pacc) { s with pacc := [], pactive := false })
    else .next s

end Sys2Proof.Machine
end

