-- ==== Sys2Proof/Machine/Unpacker.lean ====
section
/-! DEFINITION. The unpacker and decoder family: UPB, UPE, ULM (42_unpacker.md rules R121, R127,
R120). -/

namespace Sys2Proof.Machine

/-- UPB: take one payload byte in and decode what is decided (R121). -/
def execUpb (byte : Byte) (s : State) : Answer :=
  let w := encode (.upb byte)
  whenRunning s fun s =>
    let base := if s.uactive then s.uin.toNat else 0
    let k := acceptedBits s base
    if Config.cntMax < base + k then raise .eOvf w s
    else
      let opened := { openUnpack s with uin := BitVec.ofNat 32 (base + k) }
      .next (acceptBits ((bitsOfByte byte).take k) opened)

/-- UPE: decode the rest and close the unpack stream; nothing on an idle unpacker (R127). -/
def execUpe (s : State) : Answer :=
  whenRunning s fun s =>
    if s.uactive then .next { drain true s with uactive := false } else .next s

/-- ULM: set or clear the bit limit, refused while an unpack stream is open (R120). -/
def execUlm (en : Bool) (limit : Count) (s : State) : Answer :=
  let w := encode (.ulm en limit)
  whenRunning s fun s =>
    if s.uactive then raise .eLock w s else .next { s with limen := en, ulim := limit }

end Sys2Proof.Machine
end

