-- ==== Sys2Proof/Machine/Dispatch.lean ====
section
/-! DEFINITION. Which meaning each command has: one arm per constructor of `Instr`. -/

namespace Sys2Proof.Machine

def exec (i : Instr) (s : State) : Host.Outcome State Fault Refusal :=
  match i with
  | .nop => Sys2Proof.Machine.execNop s
  | .clr => Sys2Proof.Machine.execClr s
  | .lde sym len code => Sys2Proof.Machine.execLde sym len code s
  | .pkc len code => Sys2Proof.Machine.execPkc len code s
  | .pks sym => Sys2Proof.Machine.execPks sym s
  | .pkf => Sys2Proof.Machine.execPkf s
  | .upb byte => Sys2Proof.Machine.execUpb byte s
  | .upe => Sys2Proof.Machine.execUpe s
  | .ulm en limit => Sys2Proof.Machine.execUlm en limit s

end Sys2Proof.Machine
end

