-- ==== Sys2Proof/Machine/Step.lean ====
section
/-! DEFINITION. One step of the block: it takes the host's next event, a command word or `rst`, and
runs it to completion (40_control_table.md rule R103, 20_memory.md rule R63, 70_reset_and_hazards.md
rules R185, R186). -/

namespace Sys2Proof.Machine

/-- One step. A command word is decoded (R74) and executed; a word that spells none is illegal (R75);
`rst` puts the block into its reset state (R185); with no event the block holds its state (R179). -/
def step (s : State) : Host.Outcome State Fault Refusal :=
  match takeEvent s with
  | none => .next s
  | some (.reset, s') => .next (resetState s')
  | some (.command w, s') =>
    match decode w with
    | .command i => exec i s'
    | .illegal _ => runIllegal w s'

/-- `s` with the instruction of bits `w` issued as the host's next command: the host's command stream
is where `step` takes its next instruction from (R51). -/
def State.withFetchWord (s : State) (nbits w : Nat) : State :=
  issueNext (BitVec.ofNat 64 (w % 2 ^ nbits)) s

end Sys2Proof.Machine
end

