-- ==== Sys2Proof/Machine/Flags.lean ====
section
/-! DEFINITION. The five status flags (10_state.md rules R32, R35), the fault codes (60_exceptions.md rule
R161), the `fault` output (rule R174) and the register read port (10_state.md rules R33 to R45). The
block has no arithmetic condition codes (R32). -/

namespace Sys2Proof.Machine

/-- The number of a fault code (R161). -/
def errNumber : ErrCode → Nat
  | .noError => 0
  | .eCmd => 1
  | .eSym => 2
  | .eLen => 3
  | .eLock => 4
  | .eDup => 5
  | .eFull => 6
  | .eMiss => 7
  | .eOvf => 8

/-- The level output `fault`, equal to `STATUS.FAULT` at all times (R174). -/
def faultOutput (s : State) : Bool := faulted s

/-- `STATUS`: bit 0 FAULT, 1 PACTIVE, 2 UACTIVE, 3 USTOP, 4 LIMEN, bits 31:5 zero (R35). -/
def statusRegister (s : State) : RegValue :=
  0#27 ++ BitVec.ofBool s.limen ++ BitVec.ofBool s.ustop ++ BitVec.ofBool s.uactive
    ++ BitVec.ofBool s.pactive ++ BitVec.ofBool (faulted s)

/-- `PACC`: bits 7:0 the pending bits left-aligned, bits 10:8 their count, bits 31:11 zero (R41). -/
def paccRegister (s : State) : RegValue :=
  0#21 ++ BitVec.ofNat 3 s.pacc.length ++ byteOf (s.pacc ++ zeros (8 - s.pacc.length))

/-- `RegRead(r)`, the host's read of a register: no side effect (R33 to R45). -/
def regRead (s : State) (r : BitVec 4) : RegValue :=
  match r.toNat with
  | 0 => statusRegister s
  | 1 => BitVec.ofNat 32 (errNumber s.err)
  | 2 => s.errcmd.extractLsb' 0 32
  | 3 => s.errcmd.extractLsb' 32 32
  | 4 => BitVec.ofNat 32 (tcount s)
  | 5 => BitVec.ofNat 32 (tmaxlen s)
  | 6 => s.pbits
  | 7 => paccRegister s
  | 8 => s.ulim
  | 9 => s.uin
  | 10 => s.uused
  | 11 => 0#26 ++ BitVec.ofNat 6 s.ubuf.length
  | _ => 0

end Sys2Proof.Machine
end

