-- ==== Sys2Proof/Machine/Assembler.lean ====
section
/-! DEFINITION. The assembler of 30_encoding.md rule R83: the lines it reads, and which of them it
assembles into a command. It belongs to the host, not to the block; the block needs none of it to step. -/

namespace Sys2Proof.Machine

/-- One line of the assembler's language with its operands read as R83 says: a `<sym>` as a number, a
`<bits>` as a bit sequence, a `<byte>` and an `<n>` as numbers. -/
inductive AsmLine where
  | nop
  | clr
  | lde (sym : Nat) (bits : Bits)
  | pkc (bits : Bits)
  | pks (sym : Nat)
  | pkf
  | upb (byte : Nat)
  | upe
  | ulm (n : Nat)
  | ulmOff
  deriving DecidableEq, Repr

/-- A `<bits>` operand as the pair (number of characters, the string read as a binary numeral); an
empty one and one of more than 32 characters are refused (R76, R83). -/
def assembleBits (bits : Bits) : Option (CodeLen × CodeWord) :=
  if 1 ≤ bits.length ∧ bits.length ≤ Config.lMax then
    some (BitVec.ofNat 6 bits.length, BitVec.ofNat 32 (valOf bits))
  else none

/-- A `<sym>` operand; one above 0x1FFFFF is refused (R83). -/
def assembleSym (n : Nat) : Option Sym := if n ≤ 0x1FFFFF then some (BitVec.ofNat 21 n) else none

/-- A `<byte>` operand, "a number 0..255" (R83). -/
def assembleByte (n : Nat) : Option Byte := if n ≤ 255 then some (BitVec.ofNat 8 n) else none

/-- An `<n>` operand, "a number `0 .. 2^32 - 1`" (R83). -/
def assembleCount (n : Nat) : Option Count :=
  if n ≤ Config.cntMax then some (BitVec.ofNat 32 n) else none

/-- The command a line assembles to; none where the assembler refuses the line (R83). -/
def assemble : AsmLine → Option Instr
  | .nop => some .nop
  | .clr => some .clr
  | .lde sym bits =>
    match assembleSym sym, assembleBits bits with
    | some s, some lc => some (.lde s lc.1 lc.2)
    | _, _ => none
  | .pkc bits => (assembleBits bits).map fun lc => .pkc lc.1 lc.2
  | .pks sym => (assembleSym sym).map .pks
  | .pkf => some .pkf
  | .upb byte => (assembleByte byte).map .upb
  | .upe => some .upe
  | .ulm n => (assembleCount n).map (.ulm true)
  | .ulmOff => some (.ulm false 0)

/-- The word a line assembles to (R83). -/
def assembleWord (line : AsmLine) : Option Word := (assemble line).map encode

/-! ### The text of a line -/

/-- Text with the spaces at its front left out. -/
def skipSpaces : List Char → List Char
  | [] => []
  | c :: rest => if c = ' ' then skipSpaces rest else c :: rest

/-- The text up to the first `sep` and the text after it, if `sep` occurs. -/
def splitAtChar (sep : Char) : List Char → List Char × Option (List Char)
  | [] => ([], none)
  | c :: rest =>
    if c = sep then ([], some rest)
    else
      let more := splitAtChar sep rest
      (c :: more.1, more.2)

/-- Text with the spaces at both ends left out. -/
def trimSpaces (t : List Char) : List Char := (skipSpaces (skipSpaces t).reverse).reverse

/-- The value of a digit in a base of at most 16. -/
def digitValue (base : Nat) (c : Char) : Option Nat :=
  let n := c.toNat
  let v := if 48 ≤ n ∧ n ≤ 57 then n - 48
    else if 65 ≤ n ∧ n ≤ 70 then n - 55
    else if 97 ≤ n ∧ n ≤ 102 then n - 87
    else base
  if v < base then some v else none

/-- Digits read on from the value `acc` of those before them. -/
def digitsFrom (base : Nat) : Nat → List Char → Option Nat
  | acc, [] => some acc
  | acc, c :: rest =>
    match digitValue base c with
    | some d => digitsFrom base (base * acc + d) rest
    | none => none

/-- A number of at least one digit. DESIGN CHOICE: leading zeros are accepted, in any base
(notes/assumptions/26.md). -/
def readDigits (base : Nat) (t : List Char) : Option Nat :=
  if t.isEmpty then none else digitsFrom base 0 t

/-- A number as R13 writes it: decimal unless prefixed, `0x` hexadecimal, `0b` binary. -/
def readNumber : List Char → Option Nat
  | '0' :: 'x' :: rest => readDigits 16 rest
  | '0' :: 'b' :: rest => readDigits 2 rest
  | t => readDigits 10 t

/-- A `<sym>`: a decimal number, `U+` and hexadecimal digits, or one character in single quotes, which
stands for its code point (R83). DESIGN CHOICE: a number may have leading zeros, `097` is 97, where the
header reader `parseDecimal` refuses them; N12 leaves it open (notes/assumptions/26.md). -/
def readSym : List Char → Option Nat
  | ['\'', c, '\''] => some c.toNat
  | 'U' :: '+' :: rest => readDigits 16 rest
  | t => readDigits 10 t

/-- The characters `0` and `1` up to the closing double quote, which ends the operand. -/
def readBitChars : List Char → Option Bits
  | ['"'] => some []
  | '0' :: rest => (readBitChars rest).map (false :: ·)
  | '1' :: rest => (readBitChars rest).map (true :: ·)
  | _ => none

/-- A `<bits>`: a string of `0` and `1` in double quotes (R83). -/
def readBits : List Char → Option Bits
  | '"' :: rest => readBitChars rest
  | _ => none

/-- A line without its comment: `;` starts one (R83), except as the character of a quoted symbol. -/
def dropComment : List Char → List Char
  | '\'' :: c :: '\'' :: rest => '\'' :: c :: '\'' :: dropComment rest
  | ';' :: _ => []
  | c :: rest => c :: dropComment rest
  | [] => []

/-- The operands `<sym>, <bits>` of LDE: the comma is the first one after a quoted character (R83). -/
def readLde (t : List Char) : Option AsmLine :=
  let parts := match t with
    | '\'' :: c :: '\'' :: rest => (['\'', c, '\''] ++ (splitAtChar ',' rest).1, (splitAtChar ',' rest).2)
    | other => splitAtChar ',' other
  match parts.2 with
  | none => none
  | some bits =>
    match readSym (trimSpaces parts.1), readBits (trimSpaces bits) with
    | some s, some b => some (.lde s b)
    | _, _ => none

/-- A command with no operand. -/
def readPlain (t : List Char) (line : AsmLine) : Option AsmLine := if t.isEmpty then some line else none

/-- One line of assembler text, "one per line, `;` starting a comment"; none where it is no line of the
language (R83). DESIGN CHOICE: a blank line and one that is only a comment answer none, like a refused
line; the spec does not say whether such a line is accepted (notes/assumptions/27.md). -/
def readLine (text : List Char) : Option AsmLine :=
  let t := trimSpaces (dropComment text)
  let operands := trimSpaces (t.drop 3)
  if 3 < t.length ∧ (t.drop 3).head? ≠ some ' ' then none
  else match t.take 3 with
    | ['N', 'O', 'P'] => readPlain operands .nop
    | ['C', 'L', 'R'] => readPlain operands .clr
    | ['L', 'D', 'E'] => readLde operands
    | ['P', 'K', 'C'] => (readBits operands).map .pkc
    | ['P', 'K', 'S'] => (readSym operands).map .pks
    | ['P', 'K', 'F'] => readPlain operands .pkf
    | ['U', 'P', 'B'] => (readNumber operands).map .upb
    | ['U', 'P', 'E'] => readPlain operands .upe
    | ['U', 'L', 'M'] =>
      if operands = ['O', 'F', 'F'] then some .ulmOff else (readNumber operands).map .ulm
    | _ => none

end Sys2Proof.Machine
end

