-- ==== Sys2Proof/Machine/HostCodec.lean ====
section
/-! DEFINITION. The host's header codec (43_host_sequences.md rules R141 to R143) and the artifact layout
(30_encoding.md rules R85 to R87). Host software: the block neither emits nor reads a header. -/

namespace Sys2Proof.Machine

/-- DOC's Code Table as the host holds it: a symbol and its bit-string per entry (R18). -/
abbrev CodeTable := List (Sym × Bits)

/-- Why the host refuses an artifact before it issues anything: MalformedHeader of R142, and what R143
adds because it cannot be written as an LDE word. -/
inductive HostError where
  /-- The sentinel does not occur (R142). -/
  | sentinelMissing
  /-- A header line has no `:` (R142). -/
  | noColon
  /-- The code point is no plain decimal number (R142; notes/assumptions/18.md). -/
  | badCodePoint
  /-- The code point exceeds 0x1FFFFF (R143). -/
  | codePointTooLarge
  /-- The bit-string is empty (R142). -/
  | emptyBits
  /-- The bit-string has more than 32 characters (R143). -/
  | codeTooLong
  /-- The bit-string holds a character other than `0` and `1` (R143). -/
  | badBitChar
  /-- The block faulted: no artifact, no text (R146, R148). -/
  | blockFaulted
  deriving DecidableEq, Repr

/-- The byte of `\n`, of `:`, of `0` and of `1` (R85, R86). -/
def newlineByte : Byte := 0x0A
def colonByte : Byte := 0x3A
def zeroByte : Byte := 0x30
def oneByte : Byte := 0x31

/-- The ten bytes of `HEADER_END` (R87). -/
def sentinel : List Byte := [0x48, 0x45, 0x41, 0x44, 0x45, 0x52, 0x5F, 0x45, 0x4E, 0x44]

/-- The decimal digits of a number below `10^fuel`, most significant first, no leading zeros. -/
def decimalDigits : Nat → Nat → List Nat
  | 0, _ => []
  | fuel + 1, n => if n < 10 then [n] else decimalDigits fuel (n / 10) ++ [n % 10]

/-- A symbol as decimal text (R86): seven digits hold every 21-bit number. -/
def decimalText (sym : Sym) : List Byte :=
  (decimalDigits 7 sym.toNat).map fun d => BitVec.ofNat 8 (0x30 + d)

/-- A code as `0` and `1` characters, first bit first (R86). -/
def bitsText (bits : Bits) : List Byte := bits.map fun b => if b then oneByte else zeroByte

/-- One header entry `<symbol-code-point>:<bit-string>` (R86). -/
def headerLine (entry : Sym × Bits) : List Byte :=
  decimalText entry.1 ++ colonByte :: bitsText entry.2

/-- The header: the entries joined by a single newline (R85, R141). -/
def headerText : CodeTable → List Byte
  | [] => []
  | [e] => headerLine e
  | e :: rest => headerLine e ++ newlineByte :: headerText rest

/-- The artifact, byte for byte: header, sentinel, payload (R85). -/
def artifact (table : CodeTable) (payload : List Byte) : List Byte :=
  headerText table ++ sentinel ++ payload

/-- The header and the payload around the first byte-exact occurrence of the sentinel (R142). -/
def splitArtifact : List Byte → Option (List Byte × List Byte)
  | [] => none
  | b :: rest =>
    if sentinel.isPrefixOf (b :: rest) then some ([], (b :: rest).drop sentinel.length)
    else (splitArtifact rest).map fun hp => (b :: hp.1, hp.2)

/-- The pieces of a text between the occurrences of a byte. -/
def splitOnByte (sep : Byte) : List Byte → List (List Byte)
  | [] => [[]]
  | b :: rest =>
    if b = sep then [] :: splitOnByte sep rest
    else match splitOnByte sep rest with
      | [] => [[b]]
      | piece :: more => (b :: piece) :: more

/-- A line split once on the first `:`, if it has one (R142). -/
def splitColon : List Byte → Option (List Byte × List Byte)
  | [] => none
  | b :: rest =>
    if b = colonByte then some ([], rest)
    else (splitColon rest).map fun p => (b :: p.1, p.2)

/-- The value of a decimal digit's byte (R86). -/
def digitOfByte (b : Byte) : Option Nat :=
  if 0x30 ≤ b.toNat ∧ b.toNat ≤ 0x39 then some (b.toNat - 0x30) else none

/-- Digits read on from the value of those before them. -/
def parseDigits : Nat → List Byte → Option Nat
  | acc, [] => some acc
  | acc, b :: rest =>
    match digitOfByte b with
    | some d => parseDigits (10 * acc + d) rest
    | none => none

/-- A plain decimal number: at least one digit, no sign, no space, no leading zero (R86; which other
spellings are accepted DOC does not say, N12, so the host refuses them: notes/assumptions/18.md). -/
def parseDecimal : List Byte → Option Nat
  | [] => none
  | b :: rest => if b = zeroByte ∧ rest ≠ [] then none else parseDigits 0 (b :: rest)

/-- A bit-string of `0` and `1` characters. -/
def parseBits : List Byte → Option Bits
  | [] => some []
  | b :: rest =>
    if b = zeroByte then (parseBits rest).map (false :: ·)
    else if b = oneByte then (parseBits rest).map (true :: ·)
    else none

/-- `LDH "<cp>:<bits>"`: one header line as the one command `LDE <cp>, "<bits>"`, or the host's refusal
(R142, R143). -/
def loadHeaderLine (line : List Byte) : Except HostError Instr :=
  match splitColon line with
  | none => .error .noColon
  | some (cp, bits) =>
    match parseDecimal cp, parseBits bits with
    | none, _ => .error .badCodePoint
    | some _, none => .error .badBitChar
    | some n, some b =>
      match assembleSym n, assembleBits b with
      | none, _ => .error .codePointTooLarge
      | some sym, some (len, code) => .ok (.lde sym len code)
      | some _, none => if b.isEmpty then .error .emptyBits else .error .codeTooLong

/-- One LDH per line, in order; the first refusal ends it (R143). -/
def loadLines : List (List Byte) → Except HostError (List Instr)
  | [] => .ok []
  | line :: rest =>
    match loadHeaderLine line with
    | .error e => .error e
    | .ok i =>
      match loadLines rest with
      | .error e => .error e
      | .ok is => .ok (i :: is)

/-- `LDT "<header body>"`: one LDH per line of the body split on `\n` (R143). -/
def loadTable (header : List Byte) : Except HostError (List Instr) :=
  loadLines (splitOnByte newlineByte header)

end Sys2Proof.Machine
end

