-- ==== Sys2Proof/Machine/HostHuffman.lean ====
section
/-! DEFINITION. The host's frequency counter, tree builder and code extractor (43_host_sequences.md rules
R136 to R140). Host software: the block takes whatever table results. The parameters DOC leaves open,
`tiebreak` and `single_code`, are arguments (92_eei_decisions.md D26, D30). -/

namespace Sys2Proof.Machine

/-- A frequency table with one more occurrence of a symbol. -/
def countSymbol (sym : Sym) : List (Sym × Nat) → List (Sym × Nat)
  | [] => [(sym, 1)]
  | (s, n) :: rest => if s = sym then (s, n + 1) :: rest else (s, n) :: countSymbol sym rest

/-- The Frequency Table of a text: exact counts, no entry for an absent symbol (R136). -/
def frequencyTable (text : List Sym) : List (Sym × Nat) := text.foldl (fun t s => countSymbol s t) []

/-- A Huffman node: a leaf, or an internal node with exactly two children (R18). -/
inductive HuffNode where
  | leaf (sym : Sym) (freq : Nat)
  | branch (freq : Nat) (left right : HuffNode)
  deriving DecidableEq, Repr

/-- A node's frequency. -/
def nodeFreq : HuffNode → Nat
  | .leaf _ f => f
  | .branch f _ _ => f

/-- The host's open parameter `tiebreak` (R137, D30): which of two nodes of equal frequency is taken
first, and whether the first of the two removed nodes becomes the left child. -/
structure TieBreak where
  before : HuffNode → HuffNode → Bool
  firstIsLeft : HuffNode → HuffNode → Bool

/-- Node `a` is taken before node `b`: the smaller frequency, then the tie-break (R137). -/
def takenBefore (tie : TieBreak) (a b : HuffNode) : Bool :=
  decide (nodeFreq a < nodeFreq b) || (nodeFreq a == nodeFreq b && tie.before a b)

/-- The node of a non-empty Priority Structure taken first, and the nodes that remain (R137). -/
def removeFirst (tie : TieBreak) (n : HuffNode) : List HuffNode → HuffNode × List HuffNode
  | [] => (n, [])
  | m :: rest =>
    let more := removeFirst tie m rest
    if takenBefore tie more.1 n then (more.1, n :: more.2) else (n, more.1 :: more.2)

/-- A new internal node whose frequency is the sum (R137). -/
def combine (tie : TieBreak) (a b : HuffNode) : HuffNode :=
  if tie.firstIsLeft a b then .branch (nodeFreq a + nodeFreq b) a b
  else .branch (nodeFreq a + nodeFreq b) b a

/-- The greedy pop-pair loop, at most `fuel` merges: exactly one node remains at the end (R137); with no
node there is no root and with one node nothing is popped (R138). -/
def mergeLoop (tie : TieBreak) : Nat → List HuffNode → Option HuffNode
  | _, [] => none
  | _, [n] => some n
  | 0, _ => none
  | fuel + 1, n :: m :: rest =>
    let first := removeFirst tie n (m :: rest)
    match first.2 with
    | [] => some first.1
    | k :: others =>
      let second := removeFirst tie k others
      mergeLoop tie fuel (combine tie first.1 second.1 :: second.2)

/-- The root of the Huffman tree of a frequency table (R137): k leaves take k - 1 merges. -/
def buildTree (tie : TieBreak) (freqs : List (Sym × Nat)) : Option HuffNode :=
  mergeLoop tie freqs.length (freqs.map fun sf => .leaf sf.1 sf.2)

/-- The codes of a tree's leaves: `0` when descending left, `1` when descending right (R139). -/
def extractCodes : HuffNode → Bits → CodeTable
  | .leaf sym _, path => [(sym, path)]
  | .branch _ l r, path => extractCodes l (path ++ [false]) ++ extractCodes r (path ++ [true])

/-- The Code Table of a tree; a tree of one leaf gets the 1-bit code `singleCode` (R139, R140). -/
def codeTableOf (singleCode : Bool) : HuffNode → CodeTable
  | .leaf sym _ => [(sym, [singleCode])]
  | .branch f l r => extractCodes (.branch f l r) []

/-- The Code Table of a text (R146); none for the empty text (R147). -/
def tableOfText (tie : TieBreak) (singleCode : Bool) (text : List Sym) : Option CodeTable :=
  (buildTree tie (frequencyTable text)).map (codeTableOf singleCode)

end Sys2Proof.Machine
end

