-- ==== Sys2Proof/Machine/Streams.lean ====
section
/-! DEFINITION. What a whole stream means: a sequence of commands run one after another (20_memory.md
rule R63), the whole-stream decoding `DecodeAll` (42_unpacker.md rule R128) and the accepted bits of a
payload. -/

namespace Sys2Proof.Machine

/-- Commands executed one after another, each to completion before the next (R63). -/
def runCommands : List Instr → State → Answer
  | [], s => .next s
  | i :: rest, s =>
    match exec i s with
    | .next s' => runCommands rest s'
    | .fault f => .fault f
    | .refused r => .refused r

/-- The loop of `DecodeAll`, at most `fuel` matches: the symbols in order and the residual (R128). -/
def decodeAllLoop (table : List Entry) : Nat → Bits → List Sym × Bits
  | 0, s => ([], s)
  | fuel + 1, s =>
    match matchLongest table s with
    | none => ([], s)
    | some e =>
      let more := decodeAllLoop table fuel (s.drop e.len.toNat)
      (e.sym :: more.1, more.2)

/-- `DecodeAll(s)` (R128): every match takes at least one bit (R130), so `|s|` rounds are enough. -/
def decodeAll (table : List Entry) (s : Bits) : List Sym × Bits := decodeAllLoop table s.length s

/-- The payload bytes as a stream of bits, bit 7 of byte 0 first (R57). -/
def bitsOfBytes (bytes : List Byte) : Bits := bytes.flatMap bitsOfByte

/-- The bits an unpack stream accepts of a payload: all of them, or the first `ULIM` (R128). -/
def acceptedStream (limen : Bool) (ulim : Count) (bytes : List Byte) : Bits :=
  if limen then (bitsOfBytes bytes).take ulim.toNat else bitsOfBytes bytes

end Sys2Proof.Machine
end

