-- ==== Sys2Proof/Machine/HostJobs.lean ====
section
/-! DEFINITION. The host's pseudo-operations PKT, UPS, ENCODE and DECODE (30_encoding.md rule R84,
43_host_sequences.md rules R146 to R148): the commands each stands for, and the job as a whole over the
block. LDH and LDT are `loadHeaderLine` and `loadTable`. -/

namespace Sys2Proof.Machine

/-- `PKT "<text>"`: one PKS per symbol of the text, in text order (R84, R146). -/
def packText (text : List Sym) : List Instr := text.map .pks

/-- `UPS <byte> ...`: one UPB per byte, in order (R84, R148). -/
def unpackBytes (bytes : List Byte) : List Instr := bytes.map .upb

/-- The host's open parameter `empty_artifact` (R147, D27). -/
inductive EmptyArtifact where
  | zeroBytes
  | bareSentinel
  deriving DecidableEq, Repr

/-- The bytes of the artifact of the empty text (R147). -/
def emptyArtifactBytes : EmptyArtifact → List Byte
  | .zeroBytes => []
  | .bareSentinel => sentinel

/-- One LDE per entry of a table; none where an entry cannot be formed into a word (R83, R146). -/
def loadEntries : CodeTable → Option (List Instr)
  | [] => some []
  | (sym, bits) :: rest =>
    match assembleBits bits, loadEntries rest with
    | some (len, code), some more => some (.lde sym len code :: more)
    | _, _ => none

/-- The commands of `ENCODE` for a non-empty text and its table (R146). -/
def encodeCommands (table : CodeTable) (text : List Sym) : Option (List Instr) :=
  (loadEntries table).map fun loads => .clr :: loads ++ packText text ++ [.pkf]

/-- The payload the host takes: the `ceil(PBITS/8)` bytes appended to `pout` since the CLR (R146). -/
def payloadSince (before after : State) : List Byte :=
  (after.pout.drop before.pout.length).take (((regRead after 6).toNat + 7) / 8)

/-- `ENCODE "<text>"` over the block in state `s` (R146, R147): the artifact and the block's state
after it, or the reason there is none. `order` is the host's open parameter `entry_order`, any
reordering of the header's entries (R88, D30). DESIGN CHOICE: for the empty text the host issues no
command, so the block's state stays as it is, faulted or with a stream open as may be; R146 gives its
sequence for `n >= 1`, and R147 names only commands that are not issued (notes/assumptions/28.md). -/
def encodeJob (tie : TieBreak) (singleCode : Bool) (order : CodeTable → CodeTable) (empty : EmptyArtifact)
    (text : List Sym) (s : State) : Except HostError (List Byte × State) :=
  match (tableOfText tie singleCode text).map order with
  | none => .ok (emptyArtifactBytes empty, s)
  | some table =>
    match encodeCommands table text with
    | none => .error .codeTooLong
    | some commands =>
      match runCommands commands s with
      | .next t =>
        if regRead t 1 = 0 then .ok (artifact table (payloadSince s t), t) else .error .blockFaulted
      | _ => .error .blockFaulted

/-- The commands of `DECODE` for an artifact that is not the empty one (R148); `limit` is the exact bit
count, if the host knows it (R151). -/
def decodeCommands (limit : Option Count) (bytes : List Byte) : Except HostError (List Instr) :=
  match splitArtifact bytes with
  | none => .error .sentinelMissing
  | some (header, payload) =>
    match loadTable header with
    | .error e => .error e
    | .ok loads =>
      .ok (.clr :: loads ++ (limit.map (Instr.ulm true)).toList ++ unpackBytes payload ++ [.upe])

/-- `DECODE <artifact bytes>` over the block in state `s` (R147, R148): the text and the block's state
after it, or the reason there is none. -/
def decodeJob (empty : EmptyArtifact) (limit : Option Count) (bytes : List Byte) (s : State) :
    Except HostError (List Sym × State) :=
  if bytes = emptyArtifactBytes empty then .ok ([], s)
  else match decodeCommands limit bytes with
    | .error e => .error e
    | .ok commands =>
      match runCommands commands s with
      | .next t =>
        if regRead t 1 = 0 then .ok (t.uout.drop s.uout.length, t) else .error .blockFaulted
      | _ => .error .blockFaulted

end Sys2Proof.Machine
end

