-- ==== Sys2Proof/Safety.lean ====
section
/-! DEFINITION. The terms in which claims about the block are made: the invariants of its state
(10_state.md rules R24, R27, R29, R30), bit sequences said directly by the bits of a word (00_scope.md
rule R16), prefix-free tables (20_memory.md rule R62) and the decoding of a window as a relation
(42_unpacker.md rules R122 to R124). -/

namespace Sys2Proof.Machine

/-! ### Bit sequences -/

/-- The bits of an n-bit value, the most significant first: element i is bit `n-1-i` (R16). -/
def msbFirst {n : Nat} (v : BitVec n) : Bits := List.ofFn fun i : Fin n => v.getLsbD (n - 1 - i.val)

/-- The bit-string a code operand stands for: its first bit is bit `len-1` of `code` (R76). -/
def codeString (len : CodeLen) (code : CodeWord) : Bits :=
  List.ofFn fun i : Fin len.toNat => code.getLsbD (len.toNat - 1 - i.val)

/-- The bit-string of an entry (R80). -/
abbrev Entry.string (e : Entry) : Bits := codeString e.len e.code

/-! ### Operand legality, as R76 and R77 say it -/

/-- `CodeOK(len, code)` (R76). -/
abbrev CodeLegal (len : CodeLen) (code : CodeWord) : Prop :=
  1 ≤ len.toNat ∧ len.toNat ≤ 32 ∧ code.toNat < 2 ^ len.toNat

/-- `ScalarOK(sym)` (R77). -/
abbrev SymLegal (sym : Sym) : Prop :=
  sym.toNat ≤ 0x10FFFF ∧ ¬ (0xD800 ≤ sym.toNat ∧ sym.toNat ≤ 0xDFFF)

/-! ### Invariants -/

/-- The invariants of the code table (R24(b) to (e); (a) holds by the form of the state). -/
structure TableInv (table : List Entry) : Prop where
  codes : ∀ e ∈ table, CodeLegal e.len e.code
  syms : ∀ e ∈ table, SymLegal e.sym
  symsDistinct : table.Pairwise fun a b => a.sym ≠ b.sym
  codesDistinct : table.Pairwise fun a b => ¬ (a.len = b.len ∧ a.code = b.code)

/-- The invariants of the table's capacity (R9, R22, R38). -/
structure CapacityInv (s : State) : Prop where
  capacity : Config.capacityOK s.nEntries
  count : s.table.length ≤ s.nEntries

/-- The invariants of the packer between commands (R27). -/
structure PackInv (s : State) : Prop where
  pending : s.pacc.length ≤ 7
  idle : s.pactive = false → s.pacc = []
  counted : s.pactive = true → s.pacc.length = s.pbits.toNat % 8

/-- The invariants of the unpacker between commands (R29), and what `USTOP` says of the counters
(R124, R127 corner case (c)). -/
structure UnpackInv (s : State) : Prop where
  used : s.uused.toNat ≤ s.uin.toNat
  window : s.ubuf.length ≤ max (tmaxlen s) 1 - 1
  idle : s.uactive = false → s.ubuf = []
  stopped : s.ustop = true → s.ubuf = []
  counted : s.uactive = true → s.ustop = false → s.uused.toNat + s.ubuf.length = s.uin.toNat
  limited : s.uactive = true → s.limen = true → s.uin.toNat ≤ s.ulim.toNat
  stoppedEarly : s.ustop = true → s.uused.toNat < s.uin.toNat
  closedWhole : s.uactive = false → s.ustop = false → s.uused = s.uin

/-- `ERRCMD` is 0 while the block is not faulted (R30). -/
def FaultInv (s : State) : Prop := s.err = .noError → s.errcmd = 0

/-- Every invariant of the state between commands. -/
structure StateInv (s : State) : Prop where
  table : TableInv s.table
  capacity : CapacityInv s
  pack : PackInv s
  unpack : UnpackInv s
  fault : FaultInv s

/-- The command word `w` can raise the fault `e`: the "Raised by" column of R161, with the operand
conditions of R162, R163 and R164. -/
def CanRaise (e : ErrCode) (w : Word) : Prop :=
  match e, decode w with
  | .noError, _ => False
  | .eCmd, .illegal _ => True
  | .eSym, .command (.lde sym _ _) => ¬ SymLegal sym
  | .eSym, .command (.pks sym) => ¬ SymLegal sym
  | .eLen, .command (.lde sym len code) => SymLegal sym ∧ ¬ CodeLegal len code
  | .eLen, .command (.pkc len code) => ¬ CodeLegal len code
  | .eLock, .command (.lde sym len code) => SymLegal sym ∧ CodeLegal len code
  | .eLock, .command (.ulm _ _) => True
  | .eDup, .command (.lde sym len code) => SymLegal sym ∧ CodeLegal len code
  | .eFull, .command (.lde sym len code) => SymLegal sym ∧ CodeLegal len code
  | .eMiss, .command (.pks sym) => SymLegal sym
  | .eOvf, .command (.pkc len code) => CodeLegal len code
  | .eOvf, .command (.pks sym) => SymLegal sym
  | .eOvf, .command (.upb _) => True
  | _, _ => False

/-- The fault record explains itself: while the block is faulted, `ERRCMD` holds a word that can raise
the fault `ERR` names (R30, R161). -/
def FaultExplained (s : State) : Prop := s.err ≠ .noError → CanRaise s.err s.errcmd

/-! ### Tables and decoding -/

/-- No code of the table is a proper or improper prefix of another entry's (R18, R62). -/
def PrefixFree (table : List Entry) : Prop :=
  table.Pairwise fun a b => ¬ a.string <+: b.string ∧ ¬ b.string <+: a.string

/-- Entry `e` is a longest entry of the table whose code is a prefix of `buf` (R61). -/
def LongestMatch (table : List Entry) (buf : Bits) (e : Entry) : Prop :=
  e ∈ table ∧ e.string <+: buf ∧ ∀ e' ∈ table, e'.string <+: buf → e'.len.toNat ≤ e.len.toNat

/-- `DecodesTo table need window out left stopped`: decoding a window from its head, deciding a position
only while at least `need` bits are left (R122, R123), emits `out` and leaves `left`: bits held back
as undecided, or, when the decoder stopped, the bits no code matches (R124). -/
inductive DecodesTo (table : List Entry) (need : Nat) : Bits → List Sym → Bits → Bool → Prop where
  /-- The window is empty or its head is not decided: the bits are held back. -/
  | held (window : Bits) : window = [] ∨ window.length < need → DecodesTo table need window [] window false
  /-- No code of the table matches a decided position: the decoder stops. -/
  | stop (window : Bits) : window ≠ [] → need ≤ window.length →
      (∀ e ∈ table, ¬ e.string <+: window) → DecodesTo table need window [] window true
  /-- The longest code that matches is taken off a decided window. -/
  | take (e : Entry) (window rest left : Bits) (out : List Sym) (stopped : Bool) :
      window ≠ [] → need ≤ window.length → LongestMatch table window e → window = e.string ++ rest →
      DecodesTo table need rest out left stopped →
      DecodesTo table need window (e.sym :: out) left stopped

/-! ### Commands and the faults that apply to them -/

/-- The state with the fault `e` of command word `w` recorded, and nothing else changed (R166). -/
abbrev recorded (e : ErrCode) (w : Word) (s : State) : State := { s with err := e, errcmd := w }

/-- The bits a pack stream has counted before a PKC or PKS: a new stream counts from 0 (R112). -/
abbrev packBase (s : State) : Nat := if s.pactive then s.pbits.toNat else 0

/-- The bits an unpack stream has accepted before a UPB: a new stream counts from 0 (R121). -/
abbrev unpackBase (s : State) : Nat := if s.uactive then s.uin.toNat else 0

/-- How many of the next byte's bits are accepted (R121). -/
abbrev unpackTake (s : State) : Nat := if s.limen then min 8 (s.ulim.toNat - unpackBase s) else 8

/-- The code that a packing command packs without a fault of its operand: its own for PKC, its symbol's
for PKS (R110, R111). -/
inductive Packs (table : List Entry) : Instr → Bits → Prop where
  | pkc (len : CodeLen) (code : CodeWord) : CodeLegal len code → Packs table (.pkc len code) (codeString len code)
  | pks (e : Entry) : e ∈ table → SymLegal e.sym → Packs table (.pks e.sym) e.string

/-- The fault `e` applies to command `i` in a state that is not faulted, whatever else applies: the
causes of R163 to R172. -/
def FaultApplies (s : State) : Instr → ErrCode → Prop
  | .lde sym _ _, .eSym => ¬ SymLegal sym
  | .lde _ len code, .eLen => ¬ CodeLegal len code
  | .lde _ _ _, .eLock => s.pactive = true ∨ s.uactive = true
  | .lde sym len code, .eDup => ∃ e ∈ s.table, e.sym = sym ∨ (e.len = len ∧ e.code = code)
  | .lde _ _ _, .eFull => s.table.length = s.nEntries
  | .pkc len code, .eLen => ¬ CodeLegal len code
  | .pkc len _, .eOvf => 2 ^ 32 - 1 < packBase s + len.toNat
  | .pks sym, .eSym => ¬ SymLegal sym
  | .pks sym, .eMiss => ∀ e ∈ s.table, e.sym ≠ sym
  | .pks sym, .eOvf => ∃ e ∈ s.table, e.sym = sym ∧ 2 ^ 32 - 1 < packBase s + e.len.toNat
  | .upb _, .eOvf => 2 ^ 32 - 1 < unpackBase s + unpackTake s
  | .ulm _ _, .eLock => s.uactive = true
  | _, _ => False

/-- A packing command (41_packer.md). -/
def isPackCommand : Instr → Bool
  | .pkc _ _ => true
  | .pks _ => true
  | .pkf => true
  | _ => false

/-- An unpacking command (42_unpacker.md). -/
def isUnpackCommand : Instr → Bool
  | .upb _ => true
  | .upe => true
  | .ulm _ _ => true
  | _ => false

end Sys2Proof.Machine
end

