-- ==== Sys2Proof/WellFormed.lean ====
section
/-! DEFINITION. Which commands have well-formed operands: "The pair is well formed when
`CodeOK(len, code)` holds" (30_encoding.md rule R76) and the symbol "is well formed when
`ScalarOK(sym)` holds" (rule R77); every byte and every limit is legal (rules R78, R79). A command that
is not well formed is still a command: it decodes, and executing it raises the operand's own fault
(rule R75). The widths of the fields need no check: the operand types have them. -/

namespace Sys2Proof

/-- The operands of a command are well formed (R76 to R79). -/
def Instr.wellFormed : Instr → Bool
  | .nop => true
  | .clr => true
  | .lde sym len code => Machine.scalarOK sym && Machine.codeOK len code
  | .pkc len code => Machine.codeOK len code
  | .pks sym => Machine.scalarOK sym
  | .pkf => true
  | .upb _ => true
  | .upe => true
  | .ulm _ _ => true

end Sys2Proof
end

