-- ==== Sys2Proof/Certificates/Slice0/Obligations.lean ====
section
/-! DEFINITION. The statements about the block, for the provers. Each docstring names the rules of
spec/ it formalises. A command word is written `w`, its fields as bits of `w` (30_encoding.md rule R71);
`recorded e w s` is `s` with the fault `e` of `w` recorded and nothing else changed (rule R166). -/

open Sys2Proof Sys2Proof.Machine

/-! ### Encoding -/

/-- Every command's word decodes to that command, with every operand at every value its field holds
(R71, R73, R74). -/
def Obligations.DecodeOfEncodeIsTheCommand : Prop :=
  ∀ i : Instr, decode (encode i) = .command i

/-- A word that spells a command is the word of that command: decoding drops no bit (R73, R74). -/
def Obligations.EncodeOfDecodedIsTheWord : Prop :=
  ∀ (w : Word) (i : Instr), decode w = .command i → encode i = w

/-- R74: each command's (match, mask) pair and operand fields; the nine pairs are disjoint; every word
spells exactly one command or none. -/
def Obligations.WordSpellsCommandByMatchAndMask : Prop :=
  (∀ w : Word,
    (decode w = .command .nop ↔ w &&& 0xFFFFFFFFFFFFFFFF = 0x0000000000000000) ∧
    (decode w = .command .clr ↔ w &&& 0xFFFFFFFFFFFFFFFF = 0x1000000000000000) ∧
    (decode w = .command (.lde (w.extractLsb' 38 21) (w.extractLsb' 32 6) (w.extractLsb' 0 32)) ↔
      w &&& 0xF800000000000000 = 0x2000000000000000) ∧
    (decode w = .command (.pkc (w.extractLsb' 32 6) (w.extractLsb' 0 32)) ↔
      w &&& 0xFFFFFFC000000000 = 0x3000000000000000) ∧
    (decode w = .command (.pks (w.extractLsb' 38 21)) ↔
      w &&& 0xF800003FFFFFFFFF = 0x4000000000000000) ∧
    (decode w = .command .pkf ↔ w &&& 0xFFFFFFFFFFFFFFFF = 0x5000000000000000) ∧
    (decode w = .command (.upb (w.extractLsb' 0 8)) ↔
      w &&& 0xFFFFFFFFFFFFFF00 = 0x6000000000000000) ∧
    (decode w = .command .upe ↔ w &&& 0xFFFFFFFFFFFFFFFF = 0x7000000000000000) ∧
    (decode w = .command (.ulm (w.getLsbD 32) (w.extractLsb' 0 32)) ↔
      w &&& 0xFFFFFFFE00000000 = 0x8000000000000000)) ∧
  (decodeRows.Pairwise fun a b => ∀ w : Word, ¬ (a.spells w = true ∧ b.spells w = true)) ∧
  (∀ w : Word, (∃ r ∈ decodeRows, r.spells w = true ∧ decode w = .command (r.read w)) ∨
    ((∀ r ∈ decodeRows, r.spells w = false) ∧ ∀ i, decode w ≠ .command i))

/-- A few words of the spec's own decoding table decode as it says (95_test_vectors.md section 2.2). -/
def Obligations.WordsOfTheSpecDecodeAsListed : Prop :=
  decode 0x0000000000000000 = .command .nop ∧
  decode 0x1000000000000000 = .command .clr ∧
  decode 0x207D80040000000B = .command (.lde 0x1F600 4 0xB) ∧
  decode 0x2000186100000000 = .command (.lde 0x61 33 0) ∧
  decode 0x30000020FFFFFFFF = .command (.pkc 32 0xFFFFFFFF) ∧
  decode 0x443FFFC000000000 = .command (.pks 0x10FFFF) ∧
  decode 0x5000000000000000 = .command .pkf ∧
  decode 0x60000000000000FF = .command (.upb 0xFF) ∧
  decode 0x7000000000000000 = .command .upe ∧
  decode 0x800000010000000E = .command (.ulm true 14) ∧
  decode 0x8000000000000005 = .command (.ulm false 5) ∧
  decode 0x3000004000000000 = .illegal (.mustBeZero 3) ∧
  decode 0x8800000000000000 = .illegal (.reservedBit 8) ∧
  decode 0xA000000000000000 = .illegal (.reservedOp 10)

/-! ### The step -/

/-- R162: a block that is not faulted raises `E_CMD` for exactly the words with a reserved `op`, with
`rsv` set or with a must-be-zero bit of the format set. -/
def Obligations.IllegalWordRaisesECmd : Prop :=
  ∀ (s : State) (w : Word) (rest : List HostEvent), s.err = .noError → s.input = .command w :: rest →
    let op := (w.extractLsb' 60 4).toNat
    let illegal := 9 ≤ op ∨ w.getLsbD 59 = true ∨
      ((op = 0 ∨ op = 1 ∨ op = 5 ∨ op = 7) ∧ w.extractLsb' 0 59 ≠ 0) ∨
      (op = 3 ∧ w.extractLsb' 38 21 ≠ 0) ∨ (op = 4 ∧ w.extractLsb' 0 38 ≠ 0) ∨
      (op = 6 ∧ w.extractLsb' 8 51 ≠ 0) ∨ (op = 8 ∧ w.extractLsb' 33 26 ≠ 0)
    (illegal → step s = .next { s with input := rest, err := .eCmd, errcmd := w }) ∧
    (¬ illegal → ∃ t, step s = .next t ∧ t.err ≠ .eCmd)

/-- When the host's next command word spells the command `i`, one step is `exec i` at the state the
block meets the command in: the rest of the host's events is untouched (R103, R63). -/
def Obligations.StepRunsTheDecodedCommand : Prop :=
  ∀ (s : State) (w : Word) (rest : List HostEvent) (i : Instr),
    s.input = .command w :: rest → decode w = .command i → step s = exec i { s with input := rest }

/-- `Step` in every case: a faulted block runs a well-formed CLR and ignores every other word; an
unfaulted one raises `E_CMD` for a word that spells no command and runs the command otherwise
(R103). -/
def Obligations.StepTestsFaultedThenIllegalThenRuns : Prop :=
  ∀ (s : State) (w : Word) (rest : List HostEvent), s.input = .command w :: rest →
    (s.err ≠ .noError → w = 0x1000000000000000 → step s = exec .clr { s with input := rest }) ∧
    (s.err ≠ .noError → w ≠ 0x1000000000000000 → step s = .next { s with input := rest }) ∧
    (s.err = .noError → (∀ i, decode w ≠ .command i) →
      step s = .next { s with input := rest, err := .eCmd, errcmd := w }) ∧
    (s.err = .noError → ∀ i, decode w = .command i → step s = exec i { s with input := rest })

/-- Every step ends in a next state, and leaves the capacity as it is: no command stops the machine
(R202: "every command terminates"). With no event of the host the block holds its state (R179). -/
def Obligations.EveryStepCompletes : Prop :=
  ∀ s : State, (∃ t, step s = .next t ∧ t.nEntries = s.nEntries ∧ t.input = s.input.tail) ∧
    (s.input = [] → step s = .next s)

/-- R167: in the FAULTED state every word except a well-formed CLR is ignored: no state change, no
emission, no new fault. -/
def Obligations.FaultedBlockIgnoresEveryWordButClr : Prop :=
  ∀ (s : State) (w : Word) (rest : List HostEvent), s.err ≠ .noError → s.input = .command w :: rest →
    (decode w ≠ .command .clr → step s = .next { s with input := rest }) ∧
    (decode w = .command .clr → ∃ t, step s = .next t ∧ t.err = .noError)

/-- R173: the only exits from FAULTED are CLR and reset, and both put every state element at its reset
value; a fault does not change while the block is faulted. -/
def Obligations.FaultedLeftOnlyByClrOrReset : Prop :=
  ∀ s t : State, s.err ≠ .noError → step s = .next t →
    (t.err = s.err ∧ t.errcmd = s.errcmd) ∨
    ((s.input.head? = some (.command 0x1000000000000000) ∨ s.input.head? = some .reset) ∧
      t.table = [] ∧ t.pacc = [] ∧ t.pactive = false ∧ t.pbits = 0 ∧ t.ubuf = [] ∧ t.uactive = false ∧
      t.ustop = false ∧ t.limen = false ∧ t.ulim = 0 ∧ t.uin = 0 ∧ t.uused = 0 ∧ t.err = .noError ∧
      t.errcmd = 0)

/-! ### Reset, CLR, NOP -/

/-- R47: the state after reset, element by element. -/
def Obligations.ResetLeavesTheResetValues : Prop :=
  tcount State.reset = 0 ∧ tmaxlen State.reset = 0 ∧ (∀ i, (slotAt State.reset i).1 = false) ∧
  State.reset.pacc = [] ∧ State.reset.pactive = false ∧ State.reset.pbits = 0 ∧
  State.reset.ubuf = [] ∧ State.reset.uactive = false ∧ State.reset.ustop = false ∧
  State.reset.limen = false ∧ State.reset.ulim = 0 ∧ State.reset.uin = 0 ∧ State.reset.uused = 0 ∧
  State.reset.err = .noError ∧ State.reset.errcmd = 0 ∧ State.reset.pout = [] ∧ State.reset.uout = [] ∧
  ∀ r, regRead State.reset r = 0

/-- R185: asserting `rst` puts every element at its reset value and empties both outputs; it differs
from CLR only in that. -/
def Obligations.RstDiffersFromClrOnlyInTheOutputs : Prop :=
  ∀ (s : State) (rest : List HostEvent), s.input = .reset :: rest →
    step s = .next { State.reset with nEntries := s.nEntries, input := rest } ∧
    ∃ t, exec .clr { s with input := rest } = .next t ∧
      step s = .next { t with pout := [], uout := [] }

/-- R101: CLR puts every element at its reset value in every state, FAULTED or not, keeps what was
emitted, and is idempotent. -/
def Obligations.ClrClearsAllButTheOutputs : Prop :=
  ∀ (w : Word) (s : State), w &&& 0xFFFFFFFFFFFFFFFF = 0x1000000000000000 →
    decode w = .command .clr ∧
    exec .clr s = .next { State.reset with
      nEntries := s.nEntries, input := s.input, pout := s.pout, uout := s.uout } ∧
    runCommands [.clr, .clr] s = exec .clr s

/-- R102: NOP changes no state element and emits nothing, in every state. -/
def Obligations.NopChangesNothing : Prop :=
  ∀ (w : Word) (s : State), w &&& 0xFFFFFFFFFFFFFFFF = 0x0000000000000000 →
    decode w = .command .nop ∧ exec .nop s = .next s

/-! ### The code table -/

/-- R100: LDE, its faults in check order and its effect. -/
def Obligations.LdeLoadsOneEntry : Prop :=
  ∀ (w : Word) (s : State), w &&& 0xF800000000000000 = 0x2000000000000000 →
    let sym : Sym := w.extractLsb' 38 21
    let len : CodeLen := w.extractLsb' 32 6
    let code : CodeWord := w.extractLsb' 0 32
    let lde := Instr.lde sym len code
    decode w = .command lde ∧
    (s.err = .noError → ¬ SymLegal sym → exec lde s = .next (recorded .eSym w s)) ∧
    (s.err = .noError → SymLegal sym → ¬ CodeLegal len code →
      exec lde s = .next (recorded .eLen w s)) ∧
    (s.err = .noError → SymLegal sym → CodeLegal len code → s.pactive = true ∨ s.uactive = true →
      exec lde s = .next (recorded .eLock w s)) ∧
    (s.err = .noError → SymLegal sym → CodeLegal len code → s.pactive = false → s.uactive = false →
      (∃ e ∈ s.table, e.sym = sym ∨ (e.len = len ∧ e.code = code)) →
      exec lde s = .next (recorded .eDup w s)) ∧
    (s.err = .noError → SymLegal sym → CodeLegal len code → s.pactive = false → s.uactive = false →
      (∀ e ∈ s.table, e.sym ≠ sym ∧ ¬ (e.len = len ∧ e.code = code)) → tcount s = s.nEntries →
      exec lde s = .next (recorded .eFull w s)) ∧
    (s.err = .noError → SymLegal sym → CodeLegal len code → s.pactive = false → s.uactive = false →
      (∀ e ∈ s.table, e.sym ≠ sym ∧ ¬ (e.len = len ∧ e.code = code)) → tcount s ≠ s.nEntries →
      ∃ t, exec lde s = .next t ∧ t = { s with table := s.table ++ [⟨sym, len, code⟩] } ∧
        slotAt t (tcount s) = (true, ⟨sym, len, code⟩) ∧ tcount t = tcount s + 1 ∧
        tmaxlen t = max (tmaxlen s) len.toNat)

/-- R24(a) and R23: slot i of the table is valid exactly when `i < TCOUNT`. -/
def Obligations.SlotValidExactlyBelowTcount : Prop :=
  ∀ (s : State) (i : Nat), ((slotAt s i).1 = true ↔ i < tcount s) ∧
    (∀ e, slotAt s i = (true, e) → e ∈ s.table)

/-- R25: the table is written by LDE, one entry at index `TCOUNT`, and by CLR and reset, which empty
it; no step overwrites or removes a single entry. -/
def Obligations.TableOnlyGrowsByOneEntryOrEmpties : Prop :=
  ∀ s t : State, step s = .next t →
    t.table = s.table ∨ (t.table = [] ∧ (s.input.head? = some (.command 0x1000000000000000) ∨
      s.input.head? = some .reset)) ∨
    ∃ w rest sym len code, s.input = .command w :: rest ∧ decode w = .command (.lde sym len code) ∧
      t.table = s.table ++ [⟨sym, len, code⟩]

/-- R60: `Lookup` returns the valid entry with the symbol, or none if there is none; the result does
not depend on the order of the entries. -/
def Obligations.LookupFindsTheSymbolsEntry : Prop :=
  ∀ (table : List Entry) (sym : Sym), table.Pairwise (fun a b => a.sym ≠ b.sym) →
    (∀ e, lookup table sym = some e ↔ e ∈ table ∧ e.sym = sym) ∧
    (lookup table sym = none ↔ ∀ e ∈ table, e.sym ≠ sym) ∧
    ∀ table', table'.Perm table → lookup table' sym = lookup table sym

/-- R61: `Match` returns the entry with the longest code that is a prefix of the window, or none if no
code is; the result does not depend on the order of the entries. -/
def Obligations.MatchFindsTheLongestCode : Prop :=
  ∀ (table : List Entry) (buf : Bits), TableInv table →
    (∀ e, matchLongest table buf = some e ↔ LongestMatch table buf e) ∧
    (matchLongest table buf = none ↔ ∀ e ∈ table, ¬ e.string <+: buf) ∧
    ∀ table', table'.Perm table → matchLongest table' buf = matchLongest table buf

/-- R62: with a prefix-free table at most one entry's code is a prefix of a window, and `Match` returns
it. -/
def Obligations.PrefixFreeTableHasOneMatch : Prop :=
  ∀ (table : List Entry) (buf : Bits) (e : Entry), PrefixFree table → e ∈ table → e.string <+: buf →
    matchLongest table buf = some e ∧ ∀ e' ∈ table, e'.string <+: buf → e' = e

/-- Bits that arrive later cannot change the match of a decided position (R123, R128). -/
def Obligations.MatchOfDecidedPositionIsFinal : Prop :=
  ∀ (table : List Entry) (buf more : Bits), maxLen table ≤ buf.length →
    matchLongest table (buf ++ more) = matchLongest table buf

/-! ### The packer -/

/-- R110 and R112: PKC, its faults in check order and its effect: the pending bits and the code's bits
leave as whole bytes, first bit at bit 7, and at most 7 bits stay pending. -/
def Obligations.PkcPacksTheCode : Prop :=
  ∀ (w : Word) (s : State), w &&& 0xFFFFFFC000000000 = 0x3000000000000000 →
    let len : CodeLen := w.extractLsb' 32 6
    let code : CodeWord := w.extractLsb' 0 32
    let pkc := Instr.pkc len code
    decode w = .command pkc ∧
    (s.err = .noError → ¬ CodeLegal len code → exec pkc s = .next (recorded .eLen w s)) ∧
    (s.err = .noError → CodeLegal len code → 2 ^ 32 - 1 < packBase s + len.toNat →
      exec pkc s = .next (recorded .eOvf w s)) ∧
    (s.err = .noError → CodeLegal len code → packBase s + len.toNat ≤ 2 ^ 32 - 1 →
      ∃ bytes pending, exec pkc s = .next { s with
          pbits := BitVec.ofNat 32 (packBase s + len.toNat), pactive := true, pacc := pending,
          pout := s.pout ++ bytes } ∧
        bytes.length = (s.pacc.length + len.toNat) / 8 ∧
        pending.length = (s.pacc.length + len.toNat) % 8 ∧
        bytes.flatMap msbFirst ++ pending = s.pacc ++ codeString len code)

/-- R111: PKS, its faults in check order and its effect, that of PKC for the symbol's code. -/
def Obligations.PksPacksTheSymbolsCode : Prop :=
  ∀ (w : Word) (s : State), w &&& 0xF800003FFFFFFFFF = 0x4000000000000000 →
    let sym : Sym := w.extractLsb' 38 21
    let pks := Instr.pks sym
    decode w = .command pks ∧
    (s.err = .noError → ¬ SymLegal sym → exec pks s = .next (recorded .eSym w s)) ∧
    (s.err = .noError → SymLegal sym → (∀ e ∈ s.table, e.sym ≠ sym) →
      exec pks s = .next (recorded .eMiss w s)) ∧
    (∀ e ∈ s.table, s.table.Pairwise (fun a b => a.sym ≠ b.sym) → e.sym = sym → SymLegal sym →
      CodeLegal e.len e.code → s.err = .noError → 2 ^ 32 - 1 < packBase s + e.len.toNat →
      exec pks s = .next (recorded .eOvf w s)) ∧
    (∀ e ∈ s.table, s.table.Pairwise (fun a b => a.sym ≠ b.sym) → e.sym = sym → SymLegal sym →
      CodeLegal e.len e.code → s.err = .noError → packBase s + e.len.toNat ≤ 2 ^ 32 - 1 →
      exec pks s = exec (.pkc e.len e.code) s ∧
      ∃ bytes pending, exec pks s = .next { s with
          pbits := BitVec.ofNat 32 (packBase s + e.len.toNat), pactive := true, pacc := pending,
          pout := s.pout ++ bytes } ∧
        pending.length < 8 ∧ bytes.flatMap msbFirst ++ pending = s.pacc ++ e.string)

/-- R114: PKF on an idle packer does nothing; else it emits the pending bits, padded with zeros on the
right, as one byte if there are any, and closes the stream. -/
def Obligations.PkfEmitsThePaddedLastByte : Prop :=
  ∀ (w : Word) (s : State), w &&& 0xFFFFFFFFFFFFFFFF = 0x5000000000000000 → s.err = .noError →
    decode w = .command .pkf ∧
    (s.pactive = false → exec .pkf s = .next s) ∧
    (s.pactive = true → s.pacc = [] → exec .pkf s = .next { s with pactive := false }) ∧
    (s.pactive = true → s.pacc ≠ [] → s.pacc.length ≤ 7 →
      ∃ b, exec .pkf s = .next { s with pacc := [], pactive := false, pout := s.pout ++ [b] } ∧
        msbFirst b = s.pacc ++ zeros (8 - s.pacc.length))

/-- R81: the packed payload is `ceil(n/8)` bytes whose bits, most significant first, are the codes'
bits in order and then zeros. -/
def Obligations.PayloadIsTheCodesPaddedToBytes : Prop :=
  ∀ codes : List Bits,
    (payloadOf codes).length = (codes.flatten.length + 7) / 8 ∧
    (payloadOf codes).flatMap msbFirst =
      codes.flatten ++ zeros ((8 - codes.flatten.length % 8) % 8)

/-- R115: a pack stream of PKC and PKS commands closed by PKF appends exactly the packed payload of
its codes to `pout`: `ceil(PBITS/8)` bytes, `PBITS` being the codes' total length, with
`(8 - PBITS mod 8) mod 8` padding bits. -/
def Obligations.PackStreamEmitsThePayload : Prop :=
  ∀ (commands : List Instr) (codes : List Bits) (s : State),
    List.Forall₂ (Packs s.table) commands codes → commands ≠ [] → TableInv s.table → s.err = .noError →
    s.pactive = false → s.pacc = [] → codes.flatten.length ≤ 2 ^ 32 - 1 →
    runCommands (commands ++ [.pkf]) s = .next { s with
      pbits := BitVec.ofNat 32 codes.flatten.length, pout := s.pout ++ payloadOf codes } ∧
    (payloadOf codes).length = (codes.flatten.length + 7) / 8 ∧
    8 * (payloadOf codes).length = codes.flatten.length + (8 - codes.flatten.length % 8) % 8

/-! ### The unpacker -/

/-- R120: ULM sets the bit limit, and is refused while an unpack stream is open. -/
def Obligations.UlmSetsTheBitLimit : Prop :=
  ∀ (w : Word) (s : State), w &&& 0xFFFFFFFE00000000 = 0x8000000000000000 → s.err = .noError →
    let en := w.getLsbD 32
    let limit : Count := w.extractLsb' 0 32
    decode w = .command (.ulm en limit) ∧
    (s.uactive = true → exec (.ulm en limit) s = .next (recorded .eLock w s)) ∧
    (s.uactive = false → exec (.ulm en limit) s = .next { s with limen := en, ulim := limit })

/-- R121 with R122 to R124: UPB takes the first `k` bits of the byte in, bit 7 first, and decodes the
positions that are decided; a stopped decoder only counts them. -/
def Obligations.UpbDecodesWhatIsDecided : Prop :=
  ∀ (w : Word) (s : State), w &&& 0xFFFFFFFFFFFFFF00 = 0x6000000000000000 → s.err = .noError →
    (∀ e ∈ s.table, 1 ≤ e.len.toNat) →
    let byte : Byte := w.extractLsb' 0 8
    let k := unpackTake s
    decode w = .command (.upb byte) ∧
    (2 ^ 32 - 1 < unpackBase s + k → exec (.upb byte) s = .next (recorded .eOvf w s)) ∧
    (unpackBase s + k ≤ 2 ^ 32 - 1 → s.uactive = true → s.ustop = true →
      exec (.upb byte) s = .next { s with uin := BitVec.ofNat 32 (unpackBase s + k) }) ∧
    (unpackBase s + k ≤ 2 ^ 32 - 1 → s.uactive = false ∨ s.ustop = false →
      ∃ out left stopped,
        DecodesTo s.table (tmaxlen s) (s.ubuf ++ (msbFirst byte).take k) out left stopped ∧
        exec (.upb byte) s = .next { s with
          uactive := true, uin := BitVec.ofNat 32 (unpackBase s + k),
          uused := BitVec.ofNat 32
            ((if s.uactive then s.uused.toNat else 0) + (s.ubuf.length + k - left.length)),
          ustop := stopped, ubuf := if stopped then [] else left, uout := s.uout ++ out })

/-- R127: UPE on an idle unpacker does nothing; else it decodes the window to its end and closes the
stream. -/
def Obligations.UpeDecodesTheRestAndCloses : Prop :=
  ∀ (w : Word) (s : State), w &&& 0xFFFFFFFFFFFFFFFF = 0x7000000000000000 → s.err = .noError →
    (∀ e ∈ s.table, 1 ≤ e.len.toNat) →
    decode w = .command .upe ∧
    (s.uactive = false → exec .upe s = .next s) ∧
    (s.uactive = true → s.ustop = true → exec .upe s = .next { s with uactive := false }) ∧
    (s.uactive = true → s.ustop = false →
      ∃ out left stopped, DecodesTo s.table 0 s.ubuf out left stopped ∧
        (stopped = false → left = []) ∧
        exec .upe s = .next { s with
          ubuf := [], uactive := false, ustop := stopped,
          uused := BitVec.ofNat 32 (s.uused.toNat + (s.ubuf.length - left.length)),
          uout := s.uout ++ out })

/-- The decoding of a window is one thing: with a table that keeps R24 no two outcomes are possible,
whatever the order of the search (R61, R190). -/
def Obligations.DecodingIsDetermined : Prop :=
  ∀ (table : List Entry) (need : Nat) (window : Bits) (out out' : List Sym) (left left' : Bits)
    (stopped stopped' : Bool), TableInv table →
    DecodesTo table need window out left stopped → DecodesTo table need window out' left' stopped' →
    out = out' ∧ left = left' ∧ stopped = stopped'

/-- `DecodeAll` (R128) repeats the longest match to the end: the symbols in order, and as residual the
bits at the first position where no code matches. -/
def Obligations.DecodeAllRepeatsTheLongestMatch : Prop :=
  ∀ (table : List Entry) (s : Bits), (∀ e ∈ table, 1 ≤ e.len.toNat) →
    DecodesTo table 0 s (decodeAll table s).1 (decodeAll table s).2 (!(decodeAll table s).2.isEmpty)

/-- R128: an unpack stream closed by UPE emits exactly the whole-stream decoding of its accepted bits,
however the payload was cut into commands, and the counters say what was consumed. -/
def Obligations.UnpackStreamDecodesTheWholePayload : Prop :=
  ∀ (bytes : List Byte) (s : State), bytes ≠ [] → StateInv s → s.err = .noError → s.uactive = false →
    (s.limen = false → 8 * bytes.length ≤ 2 ^ 32 - 1) →
    let all := bytes.flatMap msbFirst
    let accepted := if s.limen then all.take s.ulim.toNat else all
    let decoded := decodeAll s.table accepted
    runCommands (bytes.map .upb ++ [.upe]) s = .next { s with
      ubuf := [], uactive := false, ustop := !decoded.2.isEmpty,
      uin := BitVec.ofNat 32 accepted.length,
      uused := BitVec.ofNat 32 (accepted.length - decoded.2.length),
      uout := s.uout ++ decoded.1 }

/-- After the UPE of an open stream, `USTOP = 1` exactly when accepted bits were not consumed (R127,
R131). -/
def Obligations.UstopTellsTheResidual : Prop :=
  ∀ s t : State, StateInv s → s.err = .noError → s.uactive = true → exec .upe s = .next t →
    t.ubuf = [] ∧ t.uin = s.uin ∧ t.limen = s.limen ∧ t.ulim = s.ulim ∧
    (t.ustop = true ↔ 0 < (regRead t 9).toNat - (regRead t 10).toNat)

/-- R194: with a prefix-free table, padding zeros behind codes decode as copies of the all-zeros code's
symbol as long as they reach, and are the residual if there is no such code. -/
def Obligations.PaddingZerosDecodeAsTheAllZerosCode : Prop :=
  ∀ (table : List Entry) (es : List Entry) (p : Nat), TableInv table → PrefixFree table →
    (∀ e ∈ es, e ∈ table) →
    let stream := es.flatMap Entry.string ++ zeros p
    (∀ z ∈ table, z.code = 0 →
      decodeAll table stream =
        (es.map Entry.sym ++ List.replicate (p / z.len.toNat) z.sym, zeros (p % z.len.toNat))) ∧
    ((∀ z ∈ table, z.code ≠ 0) → decodeAll table stream = (es.map Entry.sym, zeros p))

/-- With a prefix-free table and `ULM` set to the packer's `PBITS`, unpacking inverts packing: the text
comes back, nothing spurious, no residual (R131, R150). -/
def Obligations.UnpackingInvertsPacking : Prop :=
  ∀ (text : List Sym) (s : State), text ≠ [] → StateInv s → PrefixFree s.table → s.err = .noError →
    s.pactive = false → s.uactive = false → (∀ sym ∈ text, ∃ e ∈ s.table, e.sym = sym) →
    32 * text.length ≤ 2 ^ 32 - 1 →
    ∃ packed unpacked bytes,
      runCommands (packText text ++ [.pkf]) s = .next packed ∧ packed.pout = s.pout ++ bytes ∧
      packed.err = .noError ∧ bytes.length = (packed.pbits.toNat + 7) / 8 ∧
      runCommands (.ulm true packed.pbits :: unpackBytes bytes ++ [.upe]) packed = .next unpacked ∧
      unpacked.uout = s.uout ++ text ∧ unpacked.uused = unpacked.uin ∧ unpacked.ustop = false ∧
      unpacked.err = .noError

/-! ### Registers -/

/-- R35 and R174: `STATUS` bit by bit, and the `fault` output. -/
def Obligations.StatusRegisterHoldsTheFlags : Prop :=
  regRead State.reset 0 = 0 ∧
  ∀ s : State,
    ((regRead s 0).getLsbD 0 = true ↔ s.err ≠ .noError) ∧
    (regRead s 0).getLsbD 1 = s.pactive ∧ (regRead s 0).getLsbD 2 = s.uactive ∧
    (regRead s 0).getLsbD 3 = s.ustop ∧ (regRead s 0).getLsbD 4 = s.limen ∧
    (∀ j, 5 ≤ j → (regRead s 0).getLsbD j = false) ∧
    faultOutput s = (regRead s 0).getLsbD 0

/-- R36 to R40 and R42 to R45, R34: every other register but `PACC`; `ERR` reads the code R161 gives
each fault. -/
def Obligations.RegistersShowTheState : Prop :=
  ∀ s : State, StateInv s →
    (s.err = .noError ↔ regRead s 1 = 0) ∧ (regRead s 1).toNat ≤ 8 ∧
    (s.err = .eCmd → regRead s 1 = 1) ∧ (s.err = .eSym → regRead s 1 = 2) ∧
    (s.err = .eLen → regRead s 1 = 3) ∧ (s.err = .eLock → regRead s 1 = 4) ∧
    (s.err = .eDup → regRead s 1 = 5) ∧ (s.err = .eFull → regRead s 1 = 6) ∧
    (s.err = .eMiss → regRead s 1 = 7) ∧ (s.err = .eOvf → regRead s 1 = 8) ∧
    (regRead s 3 ++ regRead s 2 : BitVec 64) = s.errcmd ∧
    (regRead s 4).toNat = s.table.length ∧
    ((∀ e ∈ s.table, e.len.toNat ≤ (regRead s 5).toNat) ∧
      (s.table ≠ [] → ∃ e ∈ s.table, e.len.toNat = (regRead s 5).toNat) ∧
      (s.table = [] → regRead s 5 = 0)) ∧
    regRead s 6 = s.pbits ∧ regRead s 8 = s.ulim ∧ regRead s 9 = s.uin ∧ regRead s 10 = s.uused ∧
    (regRead s 11).toNat = s.ubuf.length ∧ s.ubuf.length ≤ 31 ∧
    ∀ r : BitVec 4, 12 ≤ r.toNat → regRead s r = 0

/-- R41: `PACC` holds the pending bits left-aligned in bits 7:0, their count in bits 10:8 and zeros
above; bits 7:0 are the byte PKF would emit. -/
def Obligations.PaccRegisterHoldsThePendingBits : Prop :=
  regRead State.reset 7 = 0 ∧
  ∀ s : State, s.pacc.length ≤ 7 →
    msbFirst ((regRead s 7).extractLsb' 0 8) = s.pacc ++ zeros (8 - s.pacc.length) ∧
    ((regRead s 7).extractLsb' 8 3).toNat = s.pacc.length ∧
    (regRead s 7).extractLsb' 11 21 = 0 ∧
    (s.err = .noError → s.pactive = true → s.pacc ≠ [] →
      ∃ t, exec .pkf s = .next t ∧ t.pout = s.pout ++ [(regRead s 7).extractLsb' 0 8])

/-! ### Faults -/

/-- R166: fault entry is precise. A step of a block that was not faulted and is faulted after it has
recorded its word and changed nothing else. -/
def Obligations.FaultEntryIsPrecise : Prop :=
  ∀ (s t : State), s.err = .noError → step s = .next t → t.err ≠ .noError →
    ∃ w rest, s.input = .command w :: rest ∧ t = { s with input := rest, err := t.err, errcmd := w }

/-- Of several faults that apply to one command the one with the lowest code is reported, and none is
reported when none applies (R170, R161 to R172). -/
def Obligations.LowestApplicableFaultIsReported : Prop :=
  ∀ (i : Instr) (s t : State), TableInv s.table → s.err = .noError → exec i s = .next t →
    (t.err = .noError ↔ ∀ e, ¬ FaultApplies s i e) ∧
    (t.err ≠ .noError → FaultApplies s i t.err ∧
      ∀ e, FaultApplies s i e → errNumber t.err ≤ errNumber e)

/-- A command with ill-formed operands never has its effect: an unfaulted block takes `E_SYM` or
`E_LEN`; a command with well-formed operands never takes either (R75, R163, R164). -/
def Obligations.IllFormedOperandsFault : Prop :=
  ∀ (i : Instr) (s t : State), s.err = .noError → exec i s = .next t →
    (i.wellFormed = false ↔ t.err = .eSym ∨ t.err = .eLen)

/-- The fault record explains itself: after every step, while the block is faulted, `ERRCMD` is a word
that can raise the fault `ERR` names (R30, R161). -/
def Obligations.FaultRecordStaysExplained : Prop :=
  FaultExplained State.reset ∧
  ∀ s t : State, FaultExplained s → step s = .next t → FaultExplained t

/-! ### The whole machine -/

/-- The reset state keeps every invariant of R24, R27, R29 and R30. -/
def Obligations.InvariantHoldsAtReset : Prop :=
  ∀ (n : Nat) (input : List HostEvent), Config.capacityOK n → StateInv (State.resetWith n input)

/-- Every step keeps every invariant of the state between commands: R24 of the table, R27 of the
packer, R29 of the unpacker, R30 of the fault registers. -/
def Obligations.EveryStepKeepsTheInvariant : Prop :=
  ∀ s t : State, StateInv s → step s = .next t → StateInv t

/-- R31: the outputs only grow. No step but a reset removes or changes an emitted item, and a reset
empties both. -/
def Obligations.OutputsOnlyGrow : Prop :=
  ∀ s t : State, step s = .next t →
    (s.input.head? ≠ some .reset → s.pout <+: t.pout ∧ s.uout <+: t.uout) ∧
    (s.input.head? = some .reset → t.pout = [] ∧ t.uout = [])

/-- How much one command emits (R67, R68). -/
def Obligations.EmissionsAreBounded : Prop :=
  ∀ (i : Instr) (s t : State), StateInv s → exec i s = .next t →
    t.pout.length ≤ s.pout.length + 4 ∧ t.uout.length ≤ s.uout.length + 39 ∧
    (i = .pkf → t.pout.length ≤ s.pout.length + 1) ∧
    (i = .upe → t.uout.length ≤ s.uout.length + 31) ∧
    (isPackCommand i = false → t.pout = s.pout) ∧
    ((∀ b, i ≠ .upb b) → i ≠ .upe → t.uout = s.uout)

/-- Frame of the packing commands: nothing outside the packer's elements, the fault registers and
`pout` changes, and PKF leaves `PBITS` as it is (R26, R32, R63). -/
def Obligations.PackingLeavesTheRestAlone : Prop :=
  ∀ (i : Instr) (s t : State), isPackCommand i = true → exec i s = .next t →
    t = { s with pacc := t.pacc, pactive := t.pactive, pbits := t.pbits, pout := t.pout,
                 err := t.err, errcmd := t.errcmd } ∧
    (i = .pkf → t.pbits = s.pbits ∧ t.err = s.err ∧ t.errcmd = s.errcmd)

/-- Frame of the unpacking commands: nothing outside the unpacker's elements, the fault registers and
`uout` changes; only ULM writes the limit, and it writes nothing else (R28, R32, R63). -/
def Obligations.UnpackingLeavesTheRestAlone : Prop :=
  ∀ (i : Instr) (s t : State), isUnpackCommand i = true → exec i s = .next t →
    t = { s with ubuf := t.ubuf, uactive := t.uactive, ustop := t.ustop, limen := t.limen,
                 ulim := t.ulim, uin := t.uin, uused := t.uused, uout := t.uout,
                 err := t.err, errcmd := t.errcmd } ∧
    ((∀ en limit, i ≠ .ulm en limit) → t.limen = s.limen ∧ t.ulim = s.ulim) ∧
    ((∃ en limit, i = .ulm en limit) →
      t = { s with limen := t.limen, ulim := t.ulim, err := t.err, errcmd := t.errcmd }) ∧
    (i = .upe → t.uin = s.uin ∧ t.err = s.err ∧ t.errcmd = s.errcmd)

/-- Which command sets and which clears each flag: no flag is written by a command not listed in its
row of R32. -/
def Obligations.FlagsChangeOnlyByTheirCommands : Prop :=
  ∀ (i : Instr) (s t : State), exec i s = .next t →
    (t.pactive ≠ s.pactive →
      (t.pactive = true ∧ ((∃ len code, i = .pkc len code) ∨ ∃ sym, i = .pks sym)) ∨
      (t.pactive = false ∧ (i = .pkf ∨ i = .clr))) ∧
    (t.uactive ≠ s.uactive →
      (t.uactive = true ∧ ∃ b, i = .upb b) ∨ (t.uactive = false ∧ (i = .upe ∨ i = .clr))) ∧
    (t.ustop ≠ s.ustop →
      (t.ustop = true ∧ ((∃ b, i = .upb b) ∨ i = .upe)) ∨
      (t.ustop = false ∧ ((s.uactive = false ∧ ∃ b, i = .upb b) ∨ i = .clr))) ∧
    (t.limen ≠ s.limen →
      (∃ limit, i = .ulm t.limen limit) ∨ (t.limen = false ∧ i = .clr)) ∧
    (t.err ≠ s.err →
      (s.err = .noError ∧ i ≠ .clr) ∨ (t.err = .noError ∧ i = .clr))

/-- The packer does not see the unpacker: what a packing command does to the packer and emits is a
function of the table, the packer's elements and the fault code (R64, R116). -/
def Obligations.PackerDoesNotSeeTheUnpacker : Prop :=
  ∀ (i : Instr) (s s' t t' : State), isPackCommand i = true →
    s.table = s'.table → s.pacc = s'.pacc → s.pactive = s'.pactive → s.pbits = s'.pbits →
    s.err = s'.err → exec i s = .next t → exec i s' = .next t' →
    t.pacc = t'.pacc ∧ t.pactive = t'.pactive ∧ t.pbits = t'.pbits ∧ t.err = t'.err ∧
    ∃ bytes, t.pout = s.pout ++ bytes ∧ t'.pout = s'.pout ++ bytes

/-- The unpacker does not see the packer: what an unpacking command does to the unpacker and emits is
a function of the table, the unpacker's elements and the fault code (R64). -/
def Obligations.UnpackerDoesNotSeeThePacker : Prop :=
  ∀ (i : Instr) (s s' t t' : State), isUnpackCommand i = true →
    s.table = s'.table → s.ubuf = s'.ubuf → s.uactive = s'.uactive → s.ustop = s'.ustop →
    s.limen = s'.limen → s.ulim = s'.ulim → s.uin = s'.uin → s.uused = s'.uused → s.err = s'.err →
    exec i s = .next t → exec i s' = .next t' →
    t.ubuf = t'.ubuf ∧ t.uactive = t'.uactive ∧ t.ustop = t'.ustop ∧ t.limen = t'.limen ∧
    t.ulim = t'.ulim ∧ t.uin = t'.uin ∧ t.uused = t'.uused ∧ t.err = t'.err ∧
    ∃ syms, t.uout = s.uout ++ syms ∧ t'.uout = s'.uout ++ syms

/-- Pack and unpack streams interleave freely: a packing and an unpacking command that both complete
give the same state in either order (R64, R63). -/
def Obligations.PackAndUnpackCommandsCommute : Prop :=
  ∀ (i j : Instr) (s a b : State), isPackCommand i = true → isUnpackCommand j = true →
    exec i s = .next a → exec j s = .next b → a.err = .noError → b.err = .noError →
    exec j a = exec i b

/-- `N_ENTRIES` matters only through `E_FULL`: a command does the same at every capacity the table is
not exactly full for (R190). -/
def Obligations.CapacityMattersOnlyWhenFull : Prop :=
  ∀ (i : Instr) (s t : State) (n : Nat), tcount s ≠ s.nEntries → tcount s ≠ n →
    exec i s = .next t → exec i { s with nEntries := n } = .next { t with nEntries := n }

/-- The bit counters never wrap: in an open stream no command but CLR makes a counter smaller, and
every counter stays at what its stream accepted (R172, R178). -/
def Obligations.CountersNeverWrap : Prop :=
  ∀ (i : Instr) (s t : State), StateInv s → i ≠ .clr → exec i s = .next t →
    (s.pactive = true → s.pbits.toNat ≤ t.pbits.toNat) ∧
    (s.uactive = true → s.uin.toNat ≤ t.uin.toNat ∧ s.uused.toNat ≤ t.uused.toNat) ∧
    (t.err = .eOvf → s.err = .noError → t.pbits = s.pbits ∧ t.uin = s.uin ∧ t.uused = s.uused)

/-! ### The host's side -/

/-- A bit-string operand of the assembler denotes itself: it assembles unless it is empty or longer
than 32 characters, and the assembled pair stands for the same bit-string (R76, R83). -/
def Obligations.AssembledCodeStandsForItsString : Prop :=
  ∀ bits : Bits,
    (∀ len code, assembleBits bits = some (len, code) → CodeLegal len code ∧ codeString len code = bits) ∧
    (assembleBits bits = none ↔ bits = [] ∨ 32 < bits.length)

/-- The first occurrence of the sentinel in a well-formed artifact is the real one: taking the artifact
apart gives back its header and its payload (R87, R142). -/
def Obligations.ArtifactSplitsAtItsSentinel : Prop :=
  ∀ (table : CodeTable) (payload : List Byte),
    splitArtifact (artifact table payload) = some (headerText table, payload)

/-- Header round trip: reading back the header of a non-empty Code Table with codes of 1 to 32 bits
gives the LDE of each entry, in order (R86, R143, R150). -/
def Obligations.HeaderReadsBackAsItsEntries : Prop :=
  ∀ table : CodeTable, table ≠ [] → (∀ entry ∈ table, 1 ≤ entry.2.length ∧ entry.2.length ≤ 32) →
    ∃ loads, loadEntries table = some loads ∧ loadTable (headerText table) = .ok loads

/-- Counts are exact: every symbol present in the text is in the Frequency Table once, with its number
of occurrences, and no other symbol is (R136). -/
def Obligations.FrequencyTableCountsExactly : Prop :=
  ∀ text : List Sym,
    (∀ sym n, (sym, n) ∈ frequencyTable text ↔ sym ∈ text ∧ n = text.count sym) ∧
    ((frequencyTable text).map Prod.fst).Nodup

/-- The codes extracted from a Huffman tree are prefix-free, and none is empty when the tree has more
than one leaf or gets the single-leaf code (R139, R140). -/
def Obligations.ExtractedCodesArePrefixFree : Prop :=
  ∀ (singleCode : Bool) (tree : HuffNode),
    (codeTableOf singleCode tree).Pairwise (fun a b => ¬ a.2 <+: b.2 ∧ ¬ b.2 <+: a.2) ∧
    ∀ entry ∈ codeTableOf singleCode tree, entry.2 ≠ []

/-- DOC's round trip, with its condition (R150): what `ENCODE` made of a non-empty text on one block,
`DECODE` with the exact bit count gives back on any block of the same capacity, for every tie-break,
single-symbol code, entry order and empty artifact the host may choose. -/
def Obligations.DecodeJobInvertsEncodeJob : Prop :=
  ∀ (tie : TieBreak) (singleCode : Bool) (order : CodeTable → CodeTable) (empty : EmptyArtifact)
    (text : List Sym) (s t u : State) (bytes : List Byte),
    (∀ table, (order table).Perm table) → text ≠ [] → Config.capacityOK s.nEntries →
    u.nEntries = s.nEntries →
    encodeJob tie singleCode order empty text s = .ok (bytes, t) →
    ∃ v, decodeJob empty (some t.pbits) bytes u = .ok (text, v)
end

