-- ==== Sys2Proof/Laws/Bits.lean ====
section
/-! SUPPORT. Bit sequences: lengths, the agreement of `bitsOf` with the bits of a word, and what taking
the full bytes off an accumulator gives. -/

namespace Sys2Proof.Machine

@[simp] theorem zeros_length (n : Nat) : (zeros n).length = n := List.length_replicate

@[simp] theorem bitsOf_length (n v : Nat) : (bitsOf n v).length = n := by
  induction n with
  | zero => rfl
  | succ n ih => simp [bitsOf, ih]

@[simp] theorem bitsOfByte_length (b : Byte) : (bitsOfByte b).length = 8 := bitsOf_length 8 _

@[simp] theorem codeString_length (len : CodeLen) (code : CodeWord) :
    (codeString len code).length = len.toNat := by simp [codeString]

@[simp] theorem msbFirst_length {n : Nat} (v : BitVec n) : (msbFirst v).length = n := by
  simp [msbFirst]

/-- Element i of `BitsOf(n, v)` is bit `n-1-i` of v (R16). -/
theorem bitsOf_eq_ofFn (n v : Nat) :
    bitsOf n v = List.ofFn fun i : Fin n => v.testBit (n - 1 - i.val) := by
  induction n with
  | zero => rfl
  | succ n ih =>
    rw [bitsOf, ih, List.ofFn_succ]
    congr 2
    funext i
    have : n + 1 - 1 - (i.succ : Fin (n + 1)).val = n - 1 - i.val := by
      simp only [Fin.val_succ]; omega
    rw [this]

/-- The bits a code operand denotes are its bit-string (R76). -/
theorem codeBits_eq (len : CodeLen) (code : CodeWord) : codeBits len code = codeString len code := by
  rw [codeBits, bitsOf_eq_ofFn]; rfl

/-- The bits of a byte, bit 7 first (R16, R57). -/
theorem bitsOfByte_eq (b : Byte) : bitsOfByte b = msbFirst b := by
  rw [bitsOfByte, bitsOf_eq_ofFn]; rfl

theorem Entry.bits_eq (e : Entry) : e.bits = e.string := codeBits_eq _ _

theorem valOf_lt (s : Bits) : valOf s < 2 ^ s.length := by
  induction s with
  | nil => simp [valOf]
  | cons b s ih =>
    have hb := Bool.toNat_le b
    simp only [valOf, List.length_cons, Nat.pow_succ]
    have : b.toNat * 2 ^ s.length ≤ 1 * 2 ^ s.length := Nat.mul_le_mul_right _ hb
    omega

theorem bitsOf_add_mul (n v k : Nat) : bitsOf n (k * 2 ^ n + v) = bitsOf n v := by
  rw [bitsOf_eq_ofFn, bitsOf_eq_ofFn]
  congr 1
  funext i
  have hi := i.isLt
  have h : n - 1 - i.val < n := by omega
  have low (x : Nat) : (x % 2 ^ n).testBit (n - 1 - i.val) = x.testBit (n - 1 - i.val) := by
    simp [Nat.testBit_mod_two_pow, h]
  rw [← low, ← low v, Nat.mul_comm, Nat.mul_add_mod_self_left]

/-- `BitsOf` inverts `ValOf` (R16). -/
theorem bitsOf_valOf (s : Bits) : bitsOf s.length (valOf s) = s := by
  induction s with
  | nil => rfl
  | cons b s ih =>
    have hlt := valOf_lt s
    rw [List.length_cons, bitsOf, valOf, bitsOf_add_mul, ih]
    congr 1
    rw [Nat.testBit_eq_decide_div_mod_eq, Nat.add_comm, Nat.add_mul_div_right _ _ (by positivity),
      Nat.div_eq_of_lt hlt]
    cases b <;> simp

/-- The bits of the byte of eight bits are those bits (R16). -/
theorem msbFirst_byteOf (s : Bits) (h : s.length = 8) : msbFirst (byteOf s) = s := by
  have hlt := valOf_lt s
  rw [h] at hlt
  rw [← bitsOfByte_eq, bitsOfByte, byteOf, BitVec.toNat_ofNat, Nat.mod_eq_of_lt hlt, ← h, bitsOf_valOf]

theorem flatMap_msbFirst_length (bytes : List Byte) :
    (bytes.flatMap msbFirst).length = 8 * bytes.length := by
  induction bytes with
  | nil => rfl
  | cons b rest ih => simp [ih]; omega

/-- The loop of `PackBits`: whole bytes leave in order, most significant bit first, and fewer than 8
bits remain (R112). -/
theorem fillBytes_spec (fuel : Nat) (acc : Bits) (h : acc.length ≤ fuel) :
    (fillBytes fuel acc).1.flatMap msbFirst ++ (fillBytes fuel acc).2 = acc ∧
      (fillBytes fuel acc).2.length < 8 := by
  induction fuel generalizing acc with
  | zero => simp_all [fillBytes]
  | succ fuel ih =>
    rw [fillBytes]
    split
    · simp_all
    · obtain ⟨h1, h2⟩ := ih (acc.drop 8) (by rw [List.length_drop]; omega)
      refine ⟨?_, h2⟩
      simp only [List.flatMap_cons, List.append_assoc, h1]
      rw [msbFirst_byteOf _ (by rw [List.length_take]; omega), List.take_append_drop]

end Sys2Proof.Machine
end

