-- ==== Sys2Proof/Laws/Encoding.lean ====
section
/-! SUPPORT. A command word as its five fields: every word is the fields of R71 put together, masks act
field by field, and words are equal exactly when their fields are. -/

namespace Sys2Proof

/-- The five fields of R71 put together, `rsv` included. -/
def joinFields (op : BitVec 4) (rsv : BitVec 1) (sym : Sym) (len : CodeLen) (code : CodeWord) : Word :=
  op ++ rsv ++ sym ++ len ++ code

theorem assembleFields_eq (op : BitVec 4) (sym : Sym) (len : CodeLen) (code : CodeWord) :
    assembleFields op sym len code = joinFields op 0 sym len code := rfl

theorem append_eq_iff {n m : Nat} (a c : BitVec n) (b d : BitVec m) : a ++ b = c ++ d ↔ a = c ∧ b = d := by
  refine ⟨fun h => ⟨?_, ?_⟩, fun h => by rw [h.1, h.2]⟩
  · have := congrArg (BitVec.extractLsb' m n) h
    rwa [BitVec.extractLsb'_append_eq_left, BitVec.extractLsb'_append_eq_left] at this
  · have := congrArg (BitVec.extractLsb' 0 m) h
    rwa [BitVec.extractLsb'_append_eq_right, BitVec.extractLsb'_append_eq_right] at this

section
variable (op op' : BitVec 4) (rsv rsv' : BitVec 1) (sym sym' : Sym) (len len' : CodeLen)
  (code code' : CodeWord)

theorem joinFields_inj : joinFields op rsv sym len code = joinFields op' rsv' sym' len' code' ↔
    op = op' ∧ rsv = rsv' ∧ sym = sym' ∧ len = len' ∧ code = code' := by
  simp only [joinFields]
  erw [append_eq_iff, append_eq_iff, append_eq_iff, append_eq_iff]
  simp only [and_assoc]

theorem joinFields_and : joinFields op rsv sym len code &&& joinFields op' rsv' sym' len' code' =
    joinFields (op &&& op') (rsv &&& rsv') (sym &&& sym') (len &&& len') (code &&& code') := by
  simp only [joinFields]
  erw [BitVec.and_append, BitVec.and_append, BitVec.and_append, BitVec.and_append]

@[simp] theorem opField_join : opField (joinFields op rsv sym len code) = op := by
  ext i hi
  simp only [opField, joinFields, BitVec.getElem_extractLsb', BitVec.getLsbD_append]
  rw [if_neg (by omega), if_neg (by omega), if_neg (by omega), if_neg (by omega),
    show 60 + i - 32 - 6 - 21 - 1 = i by omega, BitVec.getLsbD_eq_getElem hi]

@[simp] theorem rsvField_join : rsvField (joinFields op rsv sym len code) = (rsv == 1) := by
  simp only [rsvField, joinFields, BitVec.getLsbD_append]
  simp only [show ¬ 59 < 32 by omega, show ¬ 59 - 32 < 6 by omega, show ¬ 59 - 32 - 6 < 21 by omega,
    show 59 - 32 - 6 - 21 < 1 by omega, if_true, if_false]
  revert rsv
  decide

@[simp] theorem symField_join : symField (joinFields op rsv sym len code) = sym := by
  ext i hi
  simp only [symField, joinFields, BitVec.getElem_extractLsb', BitVec.getLsbD_append]
  rw [if_neg (by omega), if_neg (by omega), if_pos (by omega), show 38 + i - 32 - 6 = i by omega,
    BitVec.getLsbD_eq_getElem hi]

@[simp] theorem lenField_join : lenField (joinFields op rsv sym len code) = len := by
  ext i hi
  simp only [lenField, joinFields, BitVec.getElem_extractLsb', BitVec.getLsbD_append]
  rw [if_neg (by omega), if_pos (by omega), show 32 + i - 32 = i by omega,
    BitVec.getLsbD_eq_getElem hi]

@[simp] theorem codeField_join : codeField (joinFields op rsv sym len code) = code :=
  BitVec.extractLsb'_append_eq_right

@[simp] theorem byteField_join :
    byteField (joinFields op rsv sym len code) = code.extractLsb' 0 8 := by
  ext i hi
  simp only [byteField, joinFields, BitVec.getElem_extractLsb', BitVec.getLsbD_append]
  rw [if_pos (by omega)]

@[simp] theorem enField_join : enField (joinFields op rsv sym len code) = len.getLsbD 0 := by
  simp only [enField, joinFields, BitVec.getLsbD_append]
  simp only [show ¬ 32 < 32 by omega, show 32 - 32 < 6 by omega, if_true, if_false, Nat.sub_self]

end

/-- Every word is its fields put together (R71). -/
theorem join_of_word (w : Word) :
    ∃ op rsv sym len code, w = joinFields op rsv sym len code := by
  refine ⟨w.extractLsb' 60 4, w.extractLsb' 59 1, w.extractLsb' 38 21, w.extractLsb' 32 6,
    w.extractLsb' 0 32, ?_⟩
  simp only [joinFields]
  rw [BitVec.extractLsb'_append_extractLsb'_eq_extractLsb' (start₂ := 60) (start₁ := 59) rfl,
    BitVec.extractLsb'_append_extractLsb'_eq_extractLsb' (start₂ := 59) (start₁ := 38) rfl,
    BitVec.extractLsb'_append_extractLsb'_eq_extractLsb' (start₂ := 38) (start₁ := 32) rfl,
    BitVec.extractLsb'_append_extractLsb'_eq_extractLsb' (start₂ := 32) (start₁ := 0) rfl]
  exact BitVec.extractLsb'_eq_self.symm

/-- A row spells a word field by field (R74). -/
theorem spells_join (p0 m0 op : BitVec 4) (p1 m1 rsv : BitVec 1) (p2 m2 sym : Sym) (p3 m3 len : CodeLen)
    (p4 m4 code : CodeWord) (read : Word → Instr) :
    (DecodeRow.mk (joinFields p0 p1 p2 p3 p4) (joinFields m0 m1 m2 m3 m4) read).spells
        (joinFields op rsv sym len code) =
      (op &&& m0 == p0 && (rsv &&& m1 == p1 && (sym &&& m2 == p2 && (len &&& m3 == p3 &&
        code &&& m4 == p4)))) := by
  rw [Bool.eq_iff_iff, DecodeRow.spells, joinFields_and]
  simp only [beq_iff_eq, joinFields_inj, Bool.and_eq_true]

/-- The rows of the decoding table, field by field (R73, R74). -/
theorem decodeRows_eq : decodeRows =
    [ ⟨joinFields 0 0 0 0 0, joinFields 0xF 1 0x1FFFFF 0x3F 0xFFFFFFFF, fun _ => .nop⟩,
      ⟨joinFields 1 0 0 0 0, joinFields 0xF 1 0x1FFFFF 0x3F 0xFFFFFFFF, fun _ => .clr⟩,
      ⟨joinFields 2 0 0 0 0, joinFields 0xF 1 0 0 0, fun w => .lde (symField w) (lenField w) (codeField w)⟩,
      ⟨joinFields 3 0 0 0 0, joinFields 0xF 1 0x1FFFFF 0 0, fun w => .pkc (lenField w) (codeField w)⟩,
      ⟨joinFields 4 0 0 0 0, joinFields 0xF 1 0 0x3F 0xFFFFFFFF, fun w => .pks (symField w)⟩,
      ⟨joinFields 5 0 0 0 0, joinFields 0xF 1 0x1FFFFF 0x3F 0xFFFFFFFF, fun _ => .pkf⟩,
      ⟨joinFields 6 0 0 0 0, joinFields 0xF 1 0x1FFFFF 0x3F 0xFFFFFF00, fun w => .upb (byteField w)⟩,
      ⟨joinFields 7 0 0 0 0, joinFields 0xF 1 0x1FFFFF 0x3F 0xFFFFFFFF, fun _ => .upe⟩,
      ⟨joinFields 8 0 0 0 0, joinFields 0xF 1 0x1FFFFF 0x3E 0,
        fun w => .ulm (enField w) (codeField w)⟩ ] := rfl

/-- The decoder on the fields of a word: which command they spell (R73 to R75). -/
theorem decode_joinFields (op : BitVec 4) (rsv : BitVec 1) (sym : Sym) (len : CodeLen) (code : CodeWord) :
   decode (joinFields op rsv sym len code) =
    if rsv = 0 then
     (if op = 0 ∧ sym = 0 ∧ len = 0 ∧ code = 0 then .command .nop
      else if op = 1 ∧ sym = 0 ∧ len = 0 ∧ code = 0 then .command .clr
      else if op = 2 then .command (.lde sym len code)
      else if op = 3 ∧ sym = 0 then .command (.pkc len code)
      else if op = 4 ∧ len = 0 ∧ code = 0 then .command (.pks sym)
      else if op = 5 ∧ sym = 0 ∧ len = 0 ∧ code = 0 then .command .pkf
      else if op = 6 ∧ sym = 0 ∧ len = 0 ∧ code &&& 0xFFFFFF00 = 0 then .command (.upb (code.extractLsb' 0 8))
      else if op = 7 ∧ sym = 0 ∧ len = 0 ∧ code = 0 then .command .upe
      else if op = 8 ∧ sym = 0 ∧ len &&& 0x3E = 0 then .command (.ulm (len.getLsbD 0) code)
      else .illegal (illegalReason (joinFields op rsv sym len code)))
    else .illegal (illegalReason (joinFields op rsv sym len code)) := by
  have h0 : op &&& 0xF = op := BitVec.and_allOnes
  have h1 : rsv &&& 1 = rsv := BitVec.and_allOnes
  have h2 : sym &&& 0x1FFFFF = sym := BitVec.and_allOnes
  have h3 : len &&& 0x3F = len := BitVec.and_allOnes
  have h4 : code &&& 0xFFFFFFFF = code := BitVec.and_allOnes
  simp only [decode, decodeRows_eq, List.find?, spells_join, h0, h1, h2, h3, h4]
  by_cases hr : rsv = 0
  · subst hr
    rcases (show op = 0 ∨ op = 1 ∨ op = 2 ∨ op = 3 ∨ op = 4 ∨ op = 5 ∨ op = 6 ∨ op = 7 ∨ op = 8 ∨ op = 9 ∨ op = 10 ∨ op = 11 ∨ op = 12 ∨ op = 13 ∨ op = 14 ∨ op = 15 from by revert op; decide) with h|h|h|h|h|h|h|h|h|h|h|h|h|h|h|h <;> subst h <;> simp
    all_goals
      split <;> rename_i hh <;> split at hh <;> simp_all
      subst hh
      simp_all
  · obtain rfl : rsv = 1 := by revert hr; revert rsv; decide
    simp

end Sys2Proof
end

