-- ==== Sys2Proof/Laws/State.lean ====
section
/-! SUPPORT. The small lemmas of the state's updates: for every update, what each field is after it. -/

namespace Sys2Proof.Machine

/-! ### `resetWith` -/

@[simp] theorem resetWith_table (n : Nat) (input : List HostEvent) : (State.resetWith n input).table = [] := rfl
@[simp] theorem resetWith_pacc (n : Nat) (input : List HostEvent) : (State.resetWith n input).pacc = [] := rfl
@[simp] theorem resetWith_pactive (n : Nat) (input : List HostEvent) : (State.resetWith n input).pactive = false := rfl
@[simp] theorem resetWith_pbits (n : Nat) (input : List HostEvent) : (State.resetWith n input).pbits = 0 := rfl
@[simp] theorem resetWith_ubuf (n : Nat) (input : List HostEvent) : (State.resetWith n input).ubuf = [] := rfl
@[simp] theorem resetWith_uactive (n : Nat) (input : List HostEvent) : (State.resetWith n input).uactive = false := rfl
@[simp] theorem resetWith_ustop (n : Nat) (input : List HostEvent) : (State.resetWith n input).ustop = false := rfl
@[simp] theorem resetWith_limen (n : Nat) (input : List HostEvent) : (State.resetWith n input).limen = false := rfl
@[simp] theorem resetWith_ulim (n : Nat) (input : List HostEvent) : (State.resetWith n input).ulim = 0 := rfl
@[simp] theorem resetWith_uin (n : Nat) (input : List HostEvent) : (State.resetWith n input).uin = 0 := rfl
@[simp] theorem resetWith_uused (n : Nat) (input : List HostEvent) : (State.resetWith n input).uused = 0 := rfl
@[simp] theorem resetWith_err (n : Nat) (input : List HostEvent) : (State.resetWith n input).err = .noError := rfl
@[simp] theorem resetWith_errcmd (n : Nat) (input : List HostEvent) : (State.resetWith n input).errcmd = 0 := rfl
@[simp] theorem resetWith_pout (n : Nat) (input : List HostEvent) : (State.resetWith n input).pout = [] := rfl
@[simp] theorem resetWith_uout (n : Nat) (input : List HostEvent) : (State.resetWith n input).uout = [] := rfl
@[simp] theorem resetWith_nEntries (n : Nat) (input : List HostEvent) : (State.resetWith n input).nEntries = n := rfl
@[simp] theorem resetWith_input (n : Nat) (input : List HostEvent) : (State.resetWith n input).input = input := rfl

/-! ### `clearState` -/

@[simp] theorem clearState_table (s : State) : (clearState s).table = [] := rfl
@[simp] theorem clearState_pacc (s : State) : (clearState s).pacc = [] := rfl
@[simp] theorem clearState_pactive (s : State) : (clearState s).pactive = false := rfl
@[simp] theorem clearState_pbits (s : State) : (clearState s).pbits = 0 := rfl
@[simp] theorem clearState_ubuf (s : State) : (clearState s).ubuf = [] := rfl
@[simp] theorem clearState_uactive (s : State) : (clearState s).uactive = false := rfl
@[simp] theorem clearState_ustop (s : State) : (clearState s).ustop = false := rfl
@[simp] theorem clearState_limen (s : State) : (clearState s).limen = false := rfl
@[simp] theorem clearState_ulim (s : State) : (clearState s).ulim = 0 := rfl
@[simp] theorem clearState_uin (s : State) : (clearState s).uin = 0 := rfl
@[simp] theorem clearState_uused (s : State) : (clearState s).uused = 0 := rfl
@[simp] theorem clearState_err (s : State) : (clearState s).err = .noError := rfl
@[simp] theorem clearState_errcmd (s : State) : (clearState s).errcmd = 0 := rfl
@[simp] theorem clearState_pout (s : State) : (clearState s).pout = s.pout := rfl
@[simp] theorem clearState_uout (s : State) : (clearState s).uout = s.uout := rfl
@[simp] theorem clearState_nEntries (s : State) : (clearState s).nEntries = s.nEntries := rfl
@[simp] theorem clearState_input (s : State) : (clearState s).input = s.input := rfl

/-! ### `resetState` -/

@[simp] theorem resetState_table (s : State) : (resetState s).table = [] := rfl
@[simp] theorem resetState_pacc (s : State) : (resetState s).pacc = [] := rfl
@[simp] theorem resetState_pactive (s : State) : (resetState s).pactive = false := rfl
@[simp] theorem resetState_pbits (s : State) : (resetState s).pbits = 0 := rfl
@[simp] theorem resetState_ubuf (s : State) : (resetState s).ubuf = [] := rfl
@[simp] theorem resetState_uactive (s : State) : (resetState s).uactive = false := rfl
@[simp] theorem resetState_ustop (s : State) : (resetState s).ustop = false := rfl
@[simp] theorem resetState_limen (s : State) : (resetState s).limen = false := rfl
@[simp] theorem resetState_ulim (s : State) : (resetState s).ulim = 0 := rfl
@[simp] theorem resetState_uin (s : State) : (resetState s).uin = 0 := rfl
@[simp] theorem resetState_uused (s : State) : (resetState s).uused = 0 := rfl
@[simp] theorem resetState_err (s : State) : (resetState s).err = .noError := rfl
@[simp] theorem resetState_errcmd (s : State) : (resetState s).errcmd = 0 := rfl
@[simp] theorem resetState_pout (s : State) : (resetState s).pout = [] := rfl
@[simp] theorem resetState_uout (s : State) : (resetState s).uout = [] := rfl
@[simp] theorem resetState_nEntries (s : State) : (resetState s).nEntries = s.nEntries := rfl
@[simp] theorem resetState_input (s : State) : (resetState s).input = s.input := rfl

/-! ### `issueNext` -/

@[simp] theorem issueNext_table (w : Word) (s : State) : (issueNext w s).table = s.table := rfl
@[simp] theorem issueNext_pacc (w : Word) (s : State) : (issueNext w s).pacc = s.pacc := rfl
@[simp] theorem issueNext_pactive (w : Word) (s : State) : (issueNext w s).pactive = s.pactive := rfl
@[simp] theorem issueNext_pbits (w : Word) (s : State) : (issueNext w s).pbits = s.pbits := rfl
@[simp] theorem issueNext_ubuf (w : Word) (s : State) : (issueNext w s).ubuf = s.ubuf := rfl
@[simp] theorem issueNext_uactive (w : Word) (s : State) : (issueNext w s).uactive = s.uactive := rfl
@[simp] theorem issueNext_ustop (w : Word) (s : State) : (issueNext w s).ustop = s.ustop := rfl
@[simp] theorem issueNext_limen (w : Word) (s : State) : (issueNext w s).limen = s.limen := rfl
@[simp] theorem issueNext_ulim (w : Word) (s : State) : (issueNext w s).ulim = s.ulim := rfl
@[simp] theorem issueNext_uin (w : Word) (s : State) : (issueNext w s).uin = s.uin := rfl
@[simp] theorem issueNext_uused (w : Word) (s : State) : (issueNext w s).uused = s.uused := rfl
@[simp] theorem issueNext_err (w : Word) (s : State) : (issueNext w s).err = s.err := rfl
@[simp] theorem issueNext_errcmd (w : Word) (s : State) : (issueNext w s).errcmd = s.errcmd := rfl
@[simp] theorem issueNext_pout (w : Word) (s : State) : (issueNext w s).pout = s.pout := rfl
@[simp] theorem issueNext_uout (w : Word) (s : State) : (issueNext w s).uout = s.uout := rfl
@[simp] theorem issueNext_nEntries (w : Word) (s : State) : (issueNext w s).nEntries = s.nEntries := rfl
@[simp] theorem issueNext_input (w : Word) (s : State) : (issueNext w s).input = .command w :: s.input := rfl

/-! ### `loadEntry` -/

@[simp] theorem loadEntry_table (e : Entry) (s : State) : (loadEntry e s).table = s.table ++ [e] := rfl
@[simp] theorem loadEntry_pacc (e : Entry) (s : State) : (loadEntry e s).pacc = s.pacc := rfl
@[simp] theorem loadEntry_pactive (e : Entry) (s : State) : (loadEntry e s).pactive = s.pactive := rfl
@[simp] theorem loadEntry_pbits (e : Entry) (s : State) : (loadEntry e s).pbits = s.pbits := rfl
@[simp] theorem loadEntry_ubuf (e : Entry) (s : State) : (loadEntry e s).ubuf = s.ubuf := rfl
@[simp] theorem loadEntry_uactive (e : Entry) (s : State) : (loadEntry e s).uactive = s.uactive := rfl
@[simp] theorem loadEntry_ustop (e : Entry) (s : State) : (loadEntry e s).ustop = s.ustop := rfl
@[simp] theorem loadEntry_limen (e : Entry) (s : State) : (loadEntry e s).limen = s.limen := rfl
@[simp] theorem loadEntry_ulim (e : Entry) (s : State) : (loadEntry e s).ulim = s.ulim := rfl
@[simp] theorem loadEntry_uin (e : Entry) (s : State) : (loadEntry e s).uin = s.uin := rfl
@[simp] theorem loadEntry_uused (e : Entry) (s : State) : (loadEntry e s).uused = s.uused := rfl
@[simp] theorem loadEntry_err (e : Entry) (s : State) : (loadEntry e s).err = s.err := rfl
@[simp] theorem loadEntry_errcmd (e : Entry) (s : State) : (loadEntry e s).errcmd = s.errcmd := rfl
@[simp] theorem loadEntry_pout (e : Entry) (s : State) : (loadEntry e s).pout = s.pout := rfl
@[simp] theorem loadEntry_uout (e : Entry) (s : State) : (loadEntry e s).uout = s.uout := rfl
@[simp] theorem loadEntry_nEntries (e : Entry) (s : State) : (loadEntry e s).nEntries = s.nEntries := rfl
@[simp] theorem loadEntry_input (e : Entry) (s : State) : (loadEntry e s).input = s.input := rfl

/-! ### `emitBytes` -/

@[simp] theorem emitBytes_table (bs : List Byte) (s : State) : (emitBytes bs s).table = s.table := rfl
@[simp] theorem emitBytes_pacc (bs : List Byte) (s : State) : (emitBytes bs s).pacc = s.pacc := rfl
@[simp] theorem emitBytes_pactive (bs : List Byte) (s : State) : (emitBytes bs s).pactive = s.pactive := rfl
@[simp] theorem emitBytes_pbits (bs : List Byte) (s : State) : (emitBytes bs s).pbits = s.pbits := rfl
@[simp] theorem emitBytes_ubuf (bs : List Byte) (s : State) : (emitBytes bs s).ubuf = s.ubuf := rfl
@[simp] theorem emitBytes_uactive (bs : List Byte) (s : State) : (emitBytes bs s).uactive = s.uactive := rfl
@[simp] theorem emitBytes_ustop (bs : List Byte) (s : State) : (emitBytes bs s).ustop = s.ustop := rfl
@[simp] theorem emitBytes_limen (bs : List Byte) (s : State) : (emitBytes bs s).limen = s.limen := rfl
@[simp] theorem emitBytes_ulim (bs : List Byte) (s : State) : (emitBytes bs s).ulim = s.ulim := rfl
@[simp] theorem emitBytes_uin (bs : List Byte) (s : State) : (emitBytes bs s).uin = s.uin := rfl
@[simp] theorem emitBytes_uused (bs : List Byte) (s : State) : (emitBytes bs s).uused = s.uused := rfl
@[simp] theorem emitBytes_err (bs : List Byte) (s : State) : (emitBytes bs s).err = s.err := rfl
@[simp] theorem emitBytes_errcmd (bs : List Byte) (s : State) : (emitBytes bs s).errcmd = s.errcmd := rfl
@[simp] theorem emitBytes_pout (bs : List Byte) (s : State) : (emitBytes bs s).pout = s.pout ++ bs := rfl
@[simp] theorem emitBytes_uout (bs : List Byte) (s : State) : (emitBytes bs s).uout = s.uout := rfl
@[simp] theorem emitBytes_nEntries (bs : List Byte) (s : State) : (emitBytes bs s).nEntries = s.nEntries := rfl
@[simp] theorem emitBytes_input (bs : List Byte) (s : State) : (emitBytes bs s).input = s.input := rfl

/-! ### `emitSymbol` -/

@[simp] theorem emitSymbol_table (sym : Sym) (s : State) : (emitSymbol sym s).table = s.table := rfl
@[simp] theorem emitSymbol_pacc (sym : Sym) (s : State) : (emitSymbol sym s).pacc = s.pacc := rfl
@[simp] theorem emitSymbol_pactive (sym : Sym) (s : State) : (emitSymbol sym s).pactive = s.pactive := rfl
@[simp] theorem emitSymbol_pbits (sym : Sym) (s : State) : (emitSymbol sym s).pbits = s.pbits := rfl
@[simp] theorem emitSymbol_ubuf (sym : Sym) (s : State) : (emitSymbol sym s).ubuf = s.ubuf := rfl
@[simp] theorem emitSymbol_uactive (sym : Sym) (s : State) : (emitSymbol sym s).uactive = s.uactive := rfl
@[simp] theorem emitSymbol_ustop (sym : Sym) (s : State) : (emitSymbol sym s).ustop = s.ustop := rfl
@[simp] theorem emitSymbol_limen (sym : Sym) (s : State) : (emitSymbol sym s).limen = s.limen := rfl
@[simp] theorem emitSymbol_ulim (sym : Sym) (s : State) : (emitSymbol sym s).ulim = s.ulim := rfl
@[simp] theorem emitSymbol_uin (sym : Sym) (s : State) : (emitSymbol sym s).uin = s.uin := rfl
@[simp] theorem emitSymbol_uused (sym : Sym) (s : State) : (emitSymbol sym s).uused = s.uused := rfl
@[simp] theorem emitSymbol_err (sym : Sym) (s : State) : (emitSymbol sym s).err = s.err := rfl
@[simp] theorem emitSymbol_errcmd (sym : Sym) (s : State) : (emitSymbol sym s).errcmd = s.errcmd := rfl
@[simp] theorem emitSymbol_pout (sym : Sym) (s : State) : (emitSymbol sym s).pout = s.pout := rfl
@[simp] theorem emitSymbol_uout (sym : Sym) (s : State) : (emitSymbol sym s).uout = s.uout ++ [sym] := rfl
@[simp] theorem emitSymbol_nEntries (sym : Sym) (s : State) : (emitSymbol sym s).nEntries = s.nEntries := rfl
@[simp] theorem emitSymbol_input (sym : Sym) (s : State) : (emitSymbol sym s).input = s.input := rfl

/-! ### The number of entries -/

@[simp] theorem tcount_loadEntry (e : Entry) (s : State) : tcount (loadEntry e s) = tcount s + 1 := by
  simp [tcount]

@[simp] theorem tcount_clearState (s : State) : tcount (clearState s) = 0 := rfl

end Sys2Proof.Machine
end

