-- ==== Sys2Proof/Laws/Ops.lean ====
section
/-! SUPPORT. For each shared operation, the lemma that says everything it can do; proofs cite these and
do not unfold the operation. -/

namespace Sys2Proof.Machine

/-! ### Operands -/

theorem codeOK_iff (len : CodeLen) (code : CodeWord) : codeOK len code = true ↔ CodeLegal len code :=
  decide_eq_true_iff

theorem scalarOK_iff (sym : Sym) : scalarOK sym = true ↔ SymLegal sym :=
  decide_eq_true_iff

/-! ### Faults -/

theorem faulted_iff (s : State) : faulted s = true ↔ s.err ≠ .noError := by simp [faulted]

theorem whenRunning_running {s : State} (h : s.err = .noError) (run : State → Answer) :
    whenRunning s run = run s := by simp [whenRunning, faulted, h]

theorem whenRunning_faulted {s : State} (h : s.err ≠ .noError) (run : State → Answer) :
    whenRunning s run = .next s := by simp [whenRunning, faulted, h]

/-- A faulted block ignores the command, an unfaulted one runs it (R103, R167). -/
theorem whenRunning_cases {s t : State} {run : State → Answer} (h : whenRunning s run = .next t) :
    (s.err ≠ .noError ∧ t = s) ∨ (s.err = .noError ∧ run s = .next t) := by
  by_cases he : s.err = .noError
  · exact .inr ⟨he, by rwa [whenRunning_running he] at h⟩
  · rw [whenRunning_faulted he] at h
    exact .inl ⟨he, by cases h; rfl⟩

theorem raise_eq (e : ErrCode) (w : Word) (s : State) : raise e w s = .next (recorded e w s) := rfl

/-! ### The host's events -/

/-- What `takeEvent` gives, if it gives an event: the first one, and the rest stays (R51). -/
theorem takeEvent_cases {s s' : State} {e : HostEvent} (h : takeEvent s = some (e, s')) :
    ∃ rest, s.input = e :: rest ∧ s' = { s with input := rest } := by
  unfold takeEvent at h
  split at h
  · cases h
  · rename_i e' rest hi
    cases h
    exact ⟨rest, hi, rfl⟩

theorem takeEvent_cons {s : State} {e : HostEvent} {rest : List HostEvent} (h : s.input = e :: rest) :
    takeEvent s = some (e, { s with input := rest }) := by simp [takeEvent, h]

theorem takeEvent_nil {s : State} (h : s.input = []) : takeEvent s = none := by simp [takeEvent, h]

/-! ### The code table -/

theorem inTable_iff (s : State) (sym : Sym) (len : CodeLen) (code : CodeWord) :
    inTable s sym len code = true ↔ ∃ e ∈ s.table, e.sym = sym ∨ (e.len = len ∧ e.code = code) := by
  simp [inTable]

theorem le_maxLen {table : List Entry} {e : Entry} (h : e ∈ table) : e.len.toNat ≤ maxLen table := by
  induction table with
  | nil => cases h
  | cons a rest ih =>
    rw [maxLen]
    rcases List.mem_cons.mp h with rfl | h
    · exact Nat.le_max_left _ _
    · exact (ih h).trans (Nat.le_max_right _ _)

theorem maxLen_mem {table : List Entry} (h : table ≠ []) : ∃ e ∈ table, e.len.toNat = maxLen table := by
  induction table with
  | nil => exact absurd rfl h
  | cons a rest ih =>
    rw [maxLen]
    by_cases hr : rest = []
    · subst hr
      exact ⟨a, by simp, by simp [maxLen]⟩
    · obtain ⟨e, he, hl⟩ := ih hr
      rcases Nat.le_total (maxLen rest) a.len.toNat with hm | hm
      · exact ⟨a, by simp, by simp [hm]⟩
      · exact ⟨e, by simp [he], by rw [hl, Nat.max_eq_right hm]⟩

theorem maxLen_append (l : List Entry) (e : Entry) :
    maxLen (l ++ [e]) = max (maxLen l) e.len.toNat := by
  induction l with
  | nil => simp [maxLen]
  | cons a rest ih => simp only [List.cons_append, maxLen, ih, Nat.max_assoc]

theorem maxLen_le {table : List Entry} {n : Nat} (h : ∀ e ∈ table, e.len.toNat ≤ n) :
    maxLen table ≤ n := by
  induction table with
  | nil => exact Nat.zero_le _
  | cons a rest ih =>
    exact Nat.max_le.mpr ⟨h a (by simp), ih fun e he => h e (List.mem_cons_of_mem _ he)⟩

theorem lookup_some {table : List Entry} {sym : Sym} {e : Entry} (h : lookup table sym = some e) :
    e ∈ table ∧ e.sym = sym :=
  ⟨List.mem_of_find?_eq_some h, by simpa using List.find?_some h⟩

theorem lookup_none {table : List Entry} {sym : Sym} (h : lookup table sym = none) :
    ∀ e ∈ table, e.sym ≠ sym := by
  intro e he
  simpa using List.find?_eq_none.mp h e he

/-- An entry is found by its symbol when no other entry has it (R24(d), R60). -/
theorem lookup_of_mem {table : List Entry} {e : Entry} (hd : table.Pairwise fun a b => a.sym ≠ b.sym)
    (he : e ∈ table) : lookup table e.sym = some e := by
  induction table with
  | nil => cases he
  | cons a rest ih =>
    rw [List.pairwise_cons] at hd
    rcases List.mem_cons.mp he with rfl | he'
    · simp [lookup]
    · have : (a.sym == e.sym) = false := by simpa using hd.1 e he'
      rw [lookup, List.find?_cons, this]
      exact ih hd.2 he'

/-- The entry's code is a prefix of the window (R61). -/
theorem matchesAt_iff (buf : Bits) (e : Entry) : matchesAt buf e = true ↔ e.string <+: buf := by
  rw [matchesAt, Entry.bits_eq, List.prefix_iff_eq_take, codeString_length]
  simp only [Bool.and_eq_true, decide_eq_true_eq, beq_iff_eq]
  refine ⟨fun h => h.2, fun h => ⟨?_, h⟩⟩
  have := congrArg List.length h
  simp at this
  omega

/-- `Match` finds nothing exactly when no code of the table is a prefix of the window (R61). -/
theorem matchLongest_none_iff {table : List Entry} {buf : Bits} :
    matchLongest table buf = none ↔ ∀ e ∈ table, ¬ e.string <+: buf := by
  induction table with
  | nil => simp [matchLongest]
  | cons a rest ih =>
    rw [matchLongest, List.forall_mem_cons, ← matchesAt_iff, ← ih]
    cases matchesAt buf a <;> cases matchLongest rest buf <;> simp
    split <;> simp

/-- What `Match` finds is a longest entry whose code is a prefix of the window (R61). -/
theorem matchLongest_some {table : List Entry} {buf : Bits} {e : Entry}
    (h : matchLongest table buf = some e) : LongestMatch table buf e := by
  induction table generalizing e with
  | nil => cases h
  | cons a rest ih =>
    have ha := matchesAt_iff buf a
    rw [matchLongest] at h
    cases hm : matchesAt buf a <;> cases hr : matchLongest rest buf <;> rw [hm, hr] at h
    · cases h
    · cases h
      obtain ⟨hmem, hp, hl⟩ := ih hr
      refine ⟨List.mem_cons_of_mem _ hmem, hp, List.forall_mem_cons.mpr ⟨fun hpa => ?_, hl⟩⟩
      rw [ha.mpr hpa] at hm
      cases hm
    · cases h
      refine ⟨List.mem_cons_self, ha.mp hm, List.forall_mem_cons.mpr ⟨fun _ => le_rfl, ?_⟩⟩
      exact fun x hx hpx => absurd hpx (matchLongest_none_iff.mp hr x hx)
    · obtain ⟨hmem, hp, hl⟩ := ih hr
      simp only at h
      split at h <;> cases h
      · refine ⟨List.mem_cons_of_mem _ hmem, hp, List.forall_mem_cons.mpr ⟨fun _ => by omega, hl⟩⟩
      · refine ⟨List.mem_cons_self, ha.mp hm, List.forall_mem_cons.mpr ⟨fun _ => le_rfl, ?_⟩⟩
        intro x hx hpx
        have := hl x hx hpx
        omega

/-! ### The packer -/

/-- `PackBits` faults, or counts the bits, emits the bytes that fill and keeps the rest pending
(R112). -/
theorem packBits_overflow {s : State} {w : Word} {bits : Bits} (h : 2 ^ 32 - 1 < packBase s + bits.length) :
    packBits w bits s = .next (recorded .eOvf w s) := by
  exact if_pos h

theorem packBits_packs {s : State} {w : Word} {bits : Bits} (h : packBase s + bits.length ≤ 2 ^ 32 - 1) :
    ∃ bytes pending,
      packBits w bits s = .next { s with
        pbits := BitVec.ofNat 32 (packBase s + bits.length), pactive := true, pacc := pending,
        pout := s.pout ++ bytes } ∧
      bytes.flatMap msbFirst ++ pending = s.pacc ++ bits ∧ pending.length < 8 := by
  obtain ⟨h1, h2⟩ := fillBytes_spec (s.pacc ++ bits).length (s.pacc ++ bits) le_rfl
  exact ⟨_, _, if_neg (Nat.not_lt.mpr h), h1, h2⟩

/-! ### The unpacker and decoder -/

/-- The longest match is a prefix of at least one bit that `Match` takes off the window (R122, R130). -/
theorem LongestMatch.split {table : List Entry} {buf : Bits} {e : Entry} (h : LongestMatch table buf e) :
    buf = e.string ++ buf.drop e.len.toNat := by
  have := List.prefix_iff_eq_append.mp h.2.1
  rw [codeString_length] at this
  exact this.symm

/-- The window's bits after a decoding are no more than before it. -/
theorem DecodesTo.left_length {table : List Entry} {need : Nat} {window left : Bits} {out : List Sym}
    {stopped : Bool} (h : DecodesTo table need window out left stopped) : left.length ≤ window.length := by
  induction h with
  | held => exact le_rfl
  | stop => exact le_rfl
  | take e window rest left out stopped _ _ _ hw _ ih => subst hw; simp; omega

/-- How many bits a position must have to be decided: `Drain(final)` waits for `TMAXLEN` of them unless
no bits will arrive later (R123). -/
def drainNeed (final : Bool) (s : State) : Nat := if final then 0 else tmaxlen s

/-- The three exits of `Drain` (R123). -/
theorem decides_iff (final : Bool) (s : State) :
    decides final s = true ↔ s.ustop = false ∧ s.ubuf ≠ [] ∧ drainNeed final s ≤ s.ubuf.length := by
  cases final <;> simp [decides, drainNeed, and_assoc]

/-- `Drain` decodes the window as far as it is decided, or stops (R122 to R124). -/
theorem drainLoop_spec (fuel : Nat) (final : Bool) (s : State) (hlen : ∀ e ∈ s.table, 1 ≤ e.len.toNat)
    (hstop : s.ustop = false) (hfuel : s.ubuf.length ≤ fuel) :
    ∃ out left stopped,
      DecodesTo s.table (drainNeed final s) s.ubuf out left stopped ∧
      drainLoop fuel final s = { s with
        ubuf := if stopped then [] else left, ustop := stopped,
        uused := s.uused + BitVec.ofNat 32 (s.ubuf.length - left.length), uout := s.uout ++ out } := by
  have held (h : s.ubuf = [] ∨ s.ubuf.length < (drainNeed final s)) :
      ∃ out left stopped,
        DecodesTo s.table (drainNeed final s) s.ubuf out left stopped ∧
        s = { s with
          ubuf := if stopped then [] else left, ustop := stopped,
          uused := s.uused + BitVec.ofNat 32 (s.ubuf.length - left.length), uout := s.uout ++ out } :=
    ⟨[], s.ubuf, false, .held _ h, by cases s; simp_all⟩
  induction fuel generalizing s with
  | zero => exact held (.inl (List.length_eq_zero_iff.mp (Nat.le_zero.mp hfuel)))
  | succ fuel ih =>
    rw [drainLoop]
    by_cases hd : decides final s = true
    · rw [if_pos hd]
      obtain ⟨-, hne, hneed'⟩ := (decides_iff _ _).mp hd
      rw [decodeStep]
      split
      · rename_i hm
        refine ⟨[], s.ubuf, true, .stop _ hne hneed' (matchLongest_none_iff.mp hm), ?_⟩
        have hstay : ∀ k f (t : State), t.ustop = true → drainLoop k f t = t := by
          intro k
          cases k <;> intro f t ht <;> simp [drainLoop, decides, ht]
        rw [hstay _ _ _ rfl]
        simp
      · rename_i e hm
        have hl := matchLongest_some hm
        have h1 : 1 ≤ e.len.toNat := hlen e hl.1
        have hlt : e.len.toNat ≤ s.ubuf.length := by
          have := congrArg List.length hl.split
          simp only [List.length_append, codeString_length, List.length_drop] at this
          omega
        obtain ⟨out, left, stopped, hdec, heq⟩ := ih
          (emitSymbol e.sym { s with
            ubuf := s.ubuf.drop e.len.toNat, uused := s.uused + BitVec.ofNat 32 e.len.toNat })
          (by simpa using hlen) (by simpa using hstop) (by simp; omega)
          (fun h => ⟨[], _, false, .held _ h, by cases s; simp_all [emitSymbol]⟩)
        have hll := hdec.left_length
        simp only [emitSymbol_ubuf, List.length_drop] at hll
        refine ⟨e.sym :: out, left, stopped, ?_, ?_⟩
        · exact .take e s.ubuf (s.ubuf.drop e.len.toNat) left out stopped hne hneed' hl hl.split hdec
        · rw [heq]
          simp only [emitSymbol, List.length_drop, List.append_assoc, List.singleton_append]
          congr 1
          rw [BitVec.add_assoc, ← BitVec.ofNat_add]
          congr 2
          omega
    · rw [if_neg hd]
      apply held
      rw [decides_iff] at hd
      by_cases hne : s.ubuf = []
      · exact .inl hne
      · exact .inr (Nat.lt_of_not_le fun h => hd ⟨hstop, hne, h⟩)

theorem drain_spec (final : Bool) (s : State) (hlen : ∀ e ∈ s.table, 1 ≤ e.len.toNat)
    (hstop : s.ustop = false) :
    ∃ out left stopped,
      DecodesTo s.table (drainNeed final s) s.ubuf out left stopped ∧
      drain final s = { s with
        ubuf := if stopped then [] else left, ustop := stopped,
        uused := s.uused + BitVec.ofNat 32 (s.ubuf.length - left.length), uout := s.uout ++ out } :=
  drainLoop_spec s.ubuf.length final s hlen hstop le_rfl

/-- A stopped decoder decodes nothing (R123, R124). -/
theorem drain_stopped (final : Bool) {s : State} (h : s.ustop = true) : drain final s = s := by
  unfold drain
  cases s.ubuf.length <;> simp [drainLoop, decides, h]

/-- Whatever the state, `Drain` changes the window, the stop flag, `UUSED` and `uout` alone (R122). -/
theorem drainLoop_frame (fuel : Nat) (final : Bool) (s : State) :
    ∃ syms, drainLoop fuel final s = { s with
      ubuf := (drainLoop fuel final s).ubuf, ustop := (drainLoop fuel final s).ustop,
      uused := (drainLoop fuel final s).uused, uout := s.uout ++ syms } := by
  induction fuel generalizing s with
  | zero => exact ⟨[], by cases s; simp [drainLoop]⟩
  | succ fuel ih =>
    rw [drainLoop]
    split
    · obtain ⟨syms, h⟩ := ih (decodeStep s)
      unfold decodeStep at h ⊢
      split at h
      · exact ⟨syms, h⟩
      · rename_i e _
        exact ⟨e.sym :: syms, by
          rw [h]; simp [emitSymbol]⟩
    · exact ⟨[], by cases s; simp⟩

theorem drain_frame (final : Bool) (s : State) :
    ∃ syms, drain final s = { s with
      ubuf := (drain final s).ubuf, ustop := (drain final s).ustop,
      uused := (drain final s).uused, uout := s.uout ++ syms } :=
  drainLoop_frame _ _ _

end Sys2Proof.Machine
end

