-- ==== Sys2Proof/Laws/Meanings.lean ====
section
/-! SUPPORT. What each command can answer, said once: a faulted block ignores it; otherwise it records one
of its faults, or has its effect. Proofs about every command cite these and unfold no meaning. -/

namespace Sys2Proof.Machine

/-- A command completes in every state (R202). -/
theorem packBits_next (w : Word) (bits : Bits) (s : State) : ∃ t, packBits w bits s = .next t := by
  by_cases h : packBase s + bits.length ≤ 2 ^ 32 - 1
  · obtain ⟨_, _, he, _⟩ := packBits_packs (w := w) h
    exact ⟨_, he⟩
  · exact ⟨_, packBits_overflow (by omega)⟩

/-- What the acceptance of bits changes: the window, the stop flag, `UUSED` and `uout` (R121). -/
theorem acceptBits_frame (bits : Bits) (s : State) :
    ∃ syms, acceptBits bits s = { s with
      ubuf := (acceptBits bits s).ubuf, ustop := (acceptBits bits s).ustop,
      uused := (acceptBits bits s).uused, uout := s.uout ++ syms } := by
  unfold acceptBits
  split
  · exact ⟨[], by cases s; simp⟩
  · exact drain_frame false _

/-- What opening an unpack stream changes (R121). -/
theorem openUnpack_frame (s : State) :
    openUnpack s = { s with
      uactive := true, uused := if s.uactive then s.uused else 0,
      ustop := if s.uactive then s.ustop else false } := by
  unfold openUnpack
  cases h : s.uactive <;> cases s <;> simp_all

/-! ### The meanings of an unfaulted block, with the tests as propositions -/

section
variable {s : State} (h : s.err = .noError)
include h

theorem execLde_running (sym : Sym) (len : CodeLen) (code : CodeWord) :
    execLde sym len code s =
      if ¬ SymLegal sym then .next (recorded .eSym (encode (.lde sym len code)) s)
      else if ¬ CodeLegal len code then .next (recorded .eLen (encode (.lde sym len code)) s)
      else if s.pactive = true ∨ s.uactive = true then
        .next (recorded .eLock (encode (.lde sym len code)) s)
      else if ∃ e ∈ s.table, e.sym = sym ∨ (e.len = len ∧ e.code = code) then
        .next (recorded .eDup (encode (.lde sym len code)) s)
      else if tcount s = s.nEntries then .next (recorded .eFull (encode (.lde sym len code)) s)
      else .next (loadEntry ⟨sym, len, code⟩ s) := by
  simp only [execLde, whenRunning_running h, raise_eq, ← inTable_iff, ← codeOK_iff, ← scalarOK_iff,
    Bool.not_eq_true', Bool.not_eq_true, Bool.or_eq_true]

theorem execPkc_running (len : CodeLen) (code : CodeWord) :
    execPkc len code s =
      if ¬ CodeLegal len code then .next (recorded .eLen (encode (.pkc len code)) s)
      else packBits (encode (.pkc len code)) (codeString len code) s := by
  simp only [execPkc, whenRunning_running h, raise_eq, ← codeOK_iff, Bool.not_eq_true', Bool.not_eq_true,
    codeBits_eq]

theorem execPks_running (sym : Sym) :
    execPks sym s =
      if ¬ SymLegal sym then .next (recorded .eSym (encode (.pks sym)) s)
      else match lookup s.table sym with
        | none => .next (recorded .eMiss (encode (.pks sym)) s)
        | some e => packBits (encode (.pks sym)) e.string s := by
  cases hl : lookup s.table sym <;>
    simp only [execPks, whenRunning_running h, raise_eq, ← scalarOK_iff, Bool.not_eq_true',
      Bool.not_eq_true, Entry.bits_eq, hl]

theorem execPkf_running :
    execPkf s = .next (if s.pactive then
      { s with pacc := [], pactive := false, pout := s.pout ++ lastByte s.pacc } else s) := by
  rw [execPkf, whenRunning_running h]
  split <;> rfl

theorem execUpb_running (byte : Byte) :
    execUpb byte s =
      if 2 ^ 32 - 1 < unpackBase s + unpackTake s then .next (recorded .eOvf (encode (.upb byte)) s)
      else .next (acceptBits ((msbFirst byte).take (unpackTake s)) { s with
        uactive := true, uused := if s.uactive then s.uused else 0,
        ustop := if s.uactive then s.ustop else false,
        uin := BitVec.ofNat 32 (unpackBase s + unpackTake s) }) := by
  rw [execUpb, whenRunning_running h, openUnpack_frame, bitsOfByte_eq]
  rfl

theorem execUpe_running :
    execUpe s = .next (if s.uactive then { drain true s with uactive := false } else s) := by
  rw [execUpe, whenRunning_running h]
  split <;> rfl

theorem execUlm_running (en : Bool) (limit : Count) :
    execUlm en limit s =
      if s.uactive then .next (recorded .eLock (encode (.ulm en limit)) s)
      else .next { s with limen := en, ulim := limit } := by
  rw [execUlm, whenRunning_running h]
  rfl

end

/-- In the FAULTED state every command but CLR leaves the block as it is (R167). -/
theorem exec_faulted {s : State} (h : s.err ≠ .noError) (i : Instr) (hi : i ≠ .clr) :
    exec i s = .next s := by
  cases i <;> first
    | exact absurd rfl hi
    | simp only [exec, execNop, execLde, execPkc, execPks, execPkf, execUpb, execUpe, execUlm,
        whenRunning_faulted h]

/-- What one command can do, said once: it is ignored by a faulted block; CLR clears; it records a fault
and changes nothing else; or it has its effect, which is that of a load, of packing, of closing, of
accepting, of ending or of setting the limit. -/
inductive Effect (s : State) : Instr → State → Prop where
  | ignored (i : Instr) : s.err ≠ .noError → i ≠ .clr → Effect s i s
  | nothing (i : Instr) : s.err = .noError → i = .nop ∨ (i = .pkf ∧ s.pactive = false) ∨
      (i = .upe ∧ s.uactive = false) → Effect s i s
  | cleared : Effect s .clr (clearState s)
  | faulted (i : Instr) (e : ErrCode) : s.err = .noError → e ≠ .noError → e ≠ .eCmd →
      Effect s i (recorded e (encode i) s)
  | loaded (sym : Sym) (len : CodeLen) (code : CodeWord) : s.err = .noError → SymLegal sym →
      CodeLegal len code → s.pactive = false → s.uactive = false →
      (∀ e ∈ s.table, e.sym ≠ sym ∧ ¬ (e.len = len ∧ e.code = code)) → tcount s ≠ s.nEntries →
      Effect s (.lde sym len code) (loadEntry ⟨sym, len, code⟩ s)
  | packed (i : Instr) (bits : Bits) (bytes : List Byte) (pending : Bits) : s.err = .noError →
      ((∃ len code, i = .pkc len code ∧ CodeLegal len code ∧ bits = codeString len code) ∨
        ∃ e, i = .pks e.sym ∧ SymLegal e.sym ∧ e ∈ s.table ∧ bits = e.string) →
      packBase s + bits.length ≤ 2 ^ 32 - 1 → bytes.flatMap msbFirst ++ pending = s.pacc ++ bits →
      pending.length < 8 →
      Effect s i { s with
        pbits := BitVec.ofNat 32 (packBase s + bits.length), pactive := true, pacc := pending,
        pout := s.pout ++ bytes }
  | flushed : s.err = .noError → s.pactive = true →
      Effect s .pkf { s with pacc := [], pactive := false, pout := s.pout ++ lastByte s.pacc }
  | accepted (byte : Byte) : s.err = .noError → unpackBase s + unpackTake s ≤ 2 ^ 32 - 1 →
      Effect s (.upb byte) (acceptBits ((msbFirst byte).take (unpackTake s)) { s with
        uactive := true, uused := if s.uactive then s.uused else 0,
        ustop := if s.uactive then s.ustop else false,
        uin := BitVec.ofNat 32 (unpackBase s + unpackTake s) })
  | ended : s.err = .noError → s.uactive = true → Effect s .upe { drain true s with uactive := false }
  | limited (en : Bool) (limit : Count) : s.err = .noError → s.uactive = false →
      Effect s (.ulm en limit) { s with limen := en, ulim := limit }

theorem packBits_effect {s : State} (i : Instr) (bits : Bits) (h : s.err = .noError)
    (hi : (∃ len code, i = .pkc len code ∧ CodeLegal len code ∧ bits = codeString len code) ∨
      ∃ e, i = .pks e.sym ∧ SymLegal e.sym ∧ e ∈ s.table ∧ bits = e.string) :
    ∃ t, packBits (encode i) bits s = .next t ∧ Effect s i t := by
  by_cases hb : packBase s + bits.length ≤ 2 ^ 32 - 1
  · obtain ⟨bytes, pending, he, hs, hl⟩ := packBits_packs (w := encode i) hb
    exact ⟨_, he, .packed i bits bytes pending h hi hb hs hl⟩
  · exact ⟨_, packBits_overflow (by omega),
      .faulted i ErrCode.eOvf h (show ErrCode.eOvf ≠ .noError by decide) (show ErrCode.eOvf ≠ .eCmd by decide)⟩

/-- Every command completes, with one of its effects (R202). -/
theorem exec_effect (i : Instr) (s : State) : ∃ t, exec i s = .next t ∧ Effect s i t := by
  by_cases h : s.err = .noError
  swap
  · by_cases hi : i = .clr
    · subst hi
      exact ⟨_, rfl, .cleared⟩
    · exact ⟨s, exec_faulted h i hi, .ignored i h hi⟩
  have fault (e : ErrCode) (he : e ≠ .noError) (hc : e ≠ .eCmd) :
      ∃ t, (.next (recorded e (encode i) s) : Answer) = .next t ∧ Effect s i t :=
    ⟨_, rfl, .faulted i e h he hc⟩
  cases i with
  | nop => exact ⟨s, whenRunning_running h _, .nothing _ h (.inl rfl)⟩
  | clr => exact ⟨_, rfl, .cleared⟩
  | lde sym len code =>
    rw [exec, execLde_running h]
    split
    · exact fault .eSym (by decide) (by decide)
    split
    · exact fault .eLen (by decide) (by decide)
    split
    · exact fault .eLock (by decide) (by decide)
    split
    · exact fault .eDup (by decide) (by decide)
    split
    · exact fault .eFull (by decide) (by decide)
    rename_i h1 h2 h3 h4 h5
    rw [not_or, Bool.not_eq_true, Bool.not_eq_true] at h3
    refine ⟨_, rfl, .loaded sym len code h (not_not.mp h1) (not_not.mp h2) h3.1 h3.2 ?_ h5⟩
    exact fun e he => not_or.mp fun hd => h4 ⟨e, he, hd⟩
  | pkc len code =>
    rw [exec, execPkc_running h]
    split
    · exact fault .eLen (by decide) (by decide)
    · rename_i h1
      exact packBits_effect _ _ h (.inl ⟨len, code, rfl, not_not.mp h1, rfl⟩)
  | pks sym =>
    rw [exec, execPks_running h]
    split
    · exact fault .eSym (by decide) (by decide)
    rename_i h1
    split
    · exact fault .eMiss (by decide) (by decide)
    · rename_i e he
      obtain ⟨hm, rfl⟩ := lookup_some he
      exact packBits_effect _ _ h (.inr ⟨e, rfl, not_not.mp h1, hm, rfl⟩)
  | pkf =>
    rw [exec, execPkf_running h]
    refine ⟨_, rfl, ?_⟩
    split_ifs with h1
    · exact .flushed h h1
    · exact .nothing _ h (.inr (.inl ⟨rfl, Bool.eq_false_iff.mpr h1⟩))
  | upb byte =>
    rw [exec, execUpb_running h]
    split
    · exact fault .eOvf (by decide) (by decide)
    · rename_i h1
      exact ⟨_, rfl, .accepted byte h (Nat.not_lt.mp h1)⟩
  | upe =>
    rw [exec, execUpe_running h]
    refine ⟨_, rfl, ?_⟩
    split_ifs with h1
    · exact .ended h h1
    · exact .nothing _ h (.inr (.inr ⟨rfl, Bool.eq_false_iff.mpr h1⟩))
  | ulm en limit =>
    rw [exec, execUlm_running h]
    split_ifs with h1
    · exact fault .eLock (by decide) (by decide)
    · exact ⟨_, rfl, .limited en limit h (Bool.eq_false_iff.mpr h1)⟩

/-- The inversion of `exec`: from its answer to the effect it had. -/
theorem exec_cases {i : Instr} {s t : State} (h : exec i s = .next t) : Effect s i t := by
  obtain ⟨t', h', he⟩ := exec_effect i s
  rw [h] at h'
  cases h'
  exact he

end Sys2Proof.Machine
end

