-- ==== Sys2Proof/Laws/PerInstr.lean ====
section
/-! SUPPORT. Statements made per command. `OpNumber`: the word of a command carries the operation number
of R72 and `rsv = 0` (30_encoding.md rules R71, R72). -/

namespace Sys2Proof.Laws.OpNumber

/-- The operation number of a command (R72). -/
def number : Instr → Nat
  | .nop => 0x0
  | .clr => 0x1
  | .lde _ _ _ => 0x2
  | .pkc _ _ => 0x3
  | .pks _ => 0x4
  | .pkf => 0x5
  | .upb _ => 0x6
  | .upe => 0x7
  | .ulm _ _ => 0x8

/-- The word of the command has its number in `op` and 0 in `rsv`. -/
def Statement (i : Instr) : Prop := (opField (encode i)).toNat = number i ∧ rsvField (encode i) = false

theorem of_fields {i : Instr} {op : BitVec 4} {sym : Sym} {len : CodeLen} {code : CodeWord}
    (h : encode i = assembleFields op sym len code) (hn : op.toNat = number i) : Statement i := by
  rw [Statement, h, assembleFields_eq, opField_join, rsvField_join]
  exact ⟨hn, rfl⟩

theorem nop : Statement .nop := of_fields rfl rfl
theorem clr : Statement .clr := of_fields rfl rfl
theorem lde (sym : Sym) (len : CodeLen) (code : CodeWord) : Statement (.lde sym len code) := of_fields rfl rfl
theorem pkc (len : CodeLen) (code : CodeWord) : Statement (.pkc len code) := of_fields rfl rfl
theorem pks (sym : Sym) : Statement (.pks sym) := of_fields rfl rfl
theorem pkf : Statement .pkf := of_fields rfl rfl
theorem upb (byte : Byte) : Statement (.upb byte) := of_fields rfl rfl
theorem upe : Statement .upe := of_fields rfl rfl
theorem ulm (en : Bool) (limit : Count) : Statement (.ulm en limit) := of_fields rfl rfl

end Sys2Proof.Laws.OpNumber
end

