-- ==== Sys2Proof/Laws/Step.lean ====
section
/-! SUPPORT. What one step can do, said once: the equations of `step` by the host's next event, and their
inversion. -/

namespace Sys2Proof.Machine

theorem step_idle {s : State} (h : s.input = []) : step s = .next s := by simp [step, takeEvent_nil h]

theorem step_rst {s : State} {rest : List HostEvent} (h : s.input = .reset :: rest) :
    step s = .next (State.resetWith s.nEntries rest) := by simp [step, takeEvent_cons h, resetState]

theorem step_word {s : State} {w : Word} {rest : List HostEvent} (h : s.input = .command w :: rest) :
    step s = match decode w with
      | .command i => exec i { s with input := rest }
      | .illegal _ => runIllegal w { s with input := rest } := by
  cases hd : decode w <;> simp only [step, takeEvent_cons h, hd]

theorem runIllegal_running {s : State} (w : Word) (h : s.err = .noError) :
    runIllegal w s = .next (recorded .eCmd w s) := whenRunning_running h _

theorem runIllegal_faulted {s : State} (w : Word) (h : s.err ≠ .noError) : runIllegal w s = .next s :=
  whenRunning_faulted h _

/-- What one step can do: nothing is issued; `rst` was asserted; a command had its effect; or a word
that spells no command was met, ignored by a faulted block and recorded by another. -/
theorem step_cases {s t : State} (h : step s = .next t) :
    (s.input = [] ∧ t = s) ∨
    (∃ rest, s.input = .reset :: rest ∧ t = State.resetWith s.nEntries rest) ∨
    ∃ w rest, s.input = .command w :: rest ∧
      ((∃ i, decode w = .command i ∧ Effect { s with input := rest } i t) ∨
        ((∃ why, decode w = .illegal why) ∧
          ((s.err ≠ .noError ∧ t = { s with input := rest }) ∨
            (s.err = .noError ∧ t = recorded .eCmd w { s with input := rest })))) := by
  match hi : s.input with
  | [] =>
    rw [step_idle hi] at h
    cases h
    exact .inl ⟨rfl, rfl⟩
  | .reset :: rest =>
    rw [step_rst hi] at h
    cases h
    exact .inr (.inl ⟨rest, rfl, rfl⟩)
  | .command w :: rest =>
    rw [step_word hi] at h
    refine .inr (.inr ⟨w, rest, rfl, ?_⟩)
    cases hd : decode w with
    | command i =>
      rw [hd] at h
      exact .inl ⟨i, rfl, exec_cases h⟩
    | illegal why =>
      rw [hd] at h
      replace h : runIllegal w { s with input := rest } = .next t := h
      refine .inr ⟨⟨why, rfl⟩, ?_⟩
      by_cases he : s.err = .noError
      · rw [runIllegal_running (s := { s with input := rest }) w he] at h
        cases h
        exact .inr ⟨he, rfl⟩
      · rw [runIllegal_faulted (s := { s with input := rest }) w he] at h
        cases h
        exact .inl ⟨he, rfl⟩

end Sys2Proof.Machine
end

