-- ==== Sys2Proof/Tests/Slice0.lean ====
section
/-! SUPPORT. The model's own tests: words and steps whose results stand in spec/95_test_vectors.md, a
smoke test of `Instr.wellFormed`, and for every statement with hypotheses a state and operands that meet
them (theorems named `witness_…`). -/

namespace Sys2Proof.Tests

open Sys2Proof.Machine

/-! ### States the tests are about -/

/-- The table a = "0", b = "11", c = "10" of 95_test_vectors.md section V1. -/
def abc : List Entry := [⟨97, 1, 0⟩, ⟨98, 2, 3⟩, ⟨99, 2, 2⟩]

/-- An idle block with that table. -/
def idle : State := { State.reset with table := abc }

/-- A pack stream open, six bits pending (before step 14 of the V1 program). -/
def packing : State := { idle with pactive := true, pbits := 14, pacc := [true, true, true, false, true, false] }

/-- An unpack stream open after `0F E8`: one bit held back (vector U2). -/
def unpacking : State := { idle with uactive := true, uin := 16, uused := 15, ubuf := [false] }

/-- An unpack stream open and stopped: table a = "1", payload byte 0xE0 (vector U9). -/
def stopped : State :=
  { State.reset with table := [⟨97, 1, 1⟩], uactive := true, ustop := true, uin := 8, uused := 3 }

/-- A faulted block: the symbol `d` was missing (vector S3). -/
def faulty : State := { idle with err := .eMiss, errcmd := 0x4000190000000000 }

/-- The state `s` with the host about to issue the word `w`. -/
def issuing (w : Word) (s : State) : State := { s with input := [.command w] }

/-- The next state, if the answer is one. -/
def nextOf : Answer → Option State
  | .next t => some t
  | _ => none

/-- What an observer sees of an answer: the fault code, `STATUS`, `TCOUNT`, `PBITS`, `PACC`, `UIN`, `UUSED`
and the two outputs. -/
def seen (a : Answer) : Option (List Nat × List Byte × List Sym) :=
  (nextOf a).map fun t => ([1, 0, 4, 6, 7, 9, 10].map fun r => (regRead t r).toNat, t.pout, t.uout)

/-! ### Decoding (95_test_vectors.md section 2.2) -/

theorem test_decode_control : decode 0x0000000000000000 = .command .nop ∧
    decode 0x1000000000000000 = .command .clr ∧
    decode 0x2000184100000000 = .command (.lde 0x61 1 0) ∧
    decode 0x243FFFE0FFFFFFFF = .command (.lde 0x10FFFF 32 0xFFFFFFFF) ∧
    decode 0x2036000100000000 = .command (.lde 0xD800 1 0) ∧
    decode 0x0000000000000001 = .illegal (.mustBeZero 0) ∧
    decode 0x2800000000000000 = .illegal (.reservedBit 2) := by decide

theorem test_decode_packer : decode 0x3000000200000003 = .command (.pkc 2 3) ∧
    decode 0x4000184000000000 = .command (.pks 0x61) ∧ decode 0x5000000000000000 = .command .pkf ∧
    decode 0x3800000000000000 = .illegal (.reservedBit 3) ∧
    decode 0x5000000000000001 = .illegal (.mustBeZero 5) := by decide

theorem test_decode_unpacker : decode 0x600000000000000F = .command (.upb 0x0F) ∧
    decode 0x7000000000000000 = .command .upe ∧ decode 0x80000001FFFFFFFF = .command (.ulm true 0xFFFFFFFF) ∧
    decode 0x8000000000000000 = .command (.ulm false 0) ∧
    decode 0x8000000200000000 = .illegal (.mustBeZero 8) ∧
    decode 0xFFFFFFFFFFFFFFFF = .illegal (.reservedOp 15) := by decide

/-- The encoder gives the spec's words (section 2.2). -/
theorem test_encode : [Instr.nop, .clr, .lde 0x1F600 4 0xB, .pkc 32 0xFFFFFFFF, .pks 0x10FFFF, .pkf,
      .upb 0xFF, .upe, .ulm true 14].map encode =
    [0x0000000000000000, 0x1000000000000000, 0x207D80040000000B, 0x30000020FFFFFFFF, 0x443FFFC000000000,
      0x5000000000000000, 0x60000000000000FF, 0x7000000000000000, 0x800000010000000E] := by decide

/-- The host's question of each row: the table's word is decoded and runs first after reset. -/
theorem test_table_words : decodeTableWord 64 0x2000184100000000 = some (.lde 0x61 1 0) ∧
    decodeTableWord 64 0x9000000000000000 = none ∧
    (nextOf (step (State.reset.withFetchWord 64 0x2000184100000000))).map State.table =
      some [⟨0x61, 1, 0⟩] := by decide

/-! ### Well-formed operands: each check refuses a term (R76, R77) -/

theorem test_wf_symbol : (Instr.pks 0xD7FF).wellFormed = true ∧ (Instr.pks 0xD800).wellFormed = false ∧
    (Instr.pks 0xDFFF).wellFormed = false ∧ (Instr.pks 0xE000).wellFormed = true ∧
    (Instr.pks 0x10FFFF).wellFormed = true ∧ (Instr.pks 0x110000).wellFormed = false ∧
    (Instr.lde 0x110000 1 0).wellFormed = false := by decide

theorem test_wf_code : (Instr.pkc 0 0).wellFormed = false ∧ (Instr.pkc 1 1).wellFormed = true ∧
    (Instr.pkc 1 2).wellFormed = false ∧ (Instr.pkc 32 0xFFFFFFFF).wellFormed = true ∧
    (Instr.pkc 33 0).wellFormed = false ∧ (Instr.lde 0x61 31 0x80000000).wellFormed = false := by decide

/-! ### One step of each command (95_test_vectors.md sections 2.3 to 2.6) -/

/-- Vector K6: a faulted block ignores NOP; K3: NOP with a pack stream open. -/
theorem test_nop : nextOf (exec .nop faulty) = some faulty ∧ nextOf (exec .nop packing) = some packing := by
  decide

/-- Vectors K1 and K5. -/
theorem test_clr : nextOf (exec .clr packing) = some State.reset ∧
    nextOf (exec .clr faulty) = some State.reset := by decide

/-- Vector T2. -/
theorem test_lde : nextOf (exec (.lde 99 2 2) { State.reset with table := [⟨97, 1, 0⟩, ⟨98, 2, 3⟩] }) =
    some idle := by decide

/-- Vectors T21, T27 (duplicate wins over full) and T26. -/
theorem test_lde_faults :
    nextOf (exec (.lde 98 1 0) idle) = some { idle with err := .eDup, errcmd := 0x2000188100000000 } ∧
    nextOf (exec (.lde 97 2 1) { idle with nEntries := 3 }) =
      some { idle with nEntries := 3, err := .eDup, errcmd := 0x2000184200000001 } ∧
    nextOf (exec (.lde 100 3 3) { idle with nEntries := 3 }) =
      some { idle with nEntries := 3, err := .eFull, errcmd := 0x2000190300000003 } := by decide

/-- Vector P4: seven pending bits and 32 more. -/
theorem test_pkc : seen (exec (.pkc 32 0xFFFFFFFF) { State.reset with
      pactive := true, pbits := 7, pacc := [true, false, true, false, true, false, true] }) =
    some ([0, 2, 0, 39, 0x7FE, 0, 0], [0xAB, 0xFF, 0xFF, 0xFF], []) := by decide

/-- Vectors O1 and O2: the counter reaches `2^32 - 1`, and does not pass it. -/
theorem test_pkc_overflow :
    seen (exec (.pkc 1 1) { State.reset with
      pactive := true, pbits := 0xFFFFFFFE, pacc := [true, false, true, false, true, false] }) =
      some ([0, 2, 0, 0xFFFFFFFF, 0x7AA, 0, 0], [], []) ∧
    seen (exec (.pkc 1 1) { State.reset with
      pactive := true, pbits := 0xFFFFFFFF, pacc := [true, false, true, false, true, false, true] }) =
      some ([8, 3, 0, 0xFFFFFFFF, 0x7AA, 0, 0], [], []) := by decide

/-- Vectors S1 and S5. -/
theorem test_pks : seen (exec (.pks 98) idle) = some ([0, 2, 3, 2, 0x2C0, 0, 0], [], []) ∧
    seen (exec (.pks 0xD800) idle) = some ([2, 1, 3, 0, 0, 0, 0], [], []) := by decide

/-- Vectors F1 and F3. -/
theorem test_pkf : seen (exec .pkf packing) = some ([0, 0, 3, 14, 0, 0, 0], [0xE8], []) ∧
    nextOf (exec .pkf idle) = some idle := by decide

/-- Vectors U1 and U2. -/
theorem test_upb : seen (exec (.upb 0x0F) idle) =
      some ([0, 4, 3, 0, 0, 8, 8], [], [97, 97, 97, 97, 98, 98]) ∧
    nextOf (exec (.upb 0xE8) { idle with uactive := true, uin := 8, uused := 8 }) =
      some { unpacking with uout := [98, 99, 99, 97] } := by decide

/-- Vectors U8 (the limit inside a byte) and U9 (a position no code matches). -/
theorem test_upb_limit_and_stop :
    nextOf (exec (.upb 0xFF) { idle with limen := true, ulim := 3 }) =
      some { idle with limen := true, ulim := 3, uactive := true, uin := 3, uused := 2, ubuf := [true],
                       uout := [98] } ∧
    nextOf (exec (.upb 0xE0) { stopped with uactive := false, ustop := false, uin := 0, uused := 0 }) =
      some { stopped with uout := [97, 97, 97] } := by decide

/-- Vectors E1 and E5. -/
theorem test_upe : seen (exec .upe unpacking) = some ([0, 0, 3, 0, 0, 16, 16], [], [97]) ∧
    seen (exec .upe { idle with limen := true, ulim := 3, uactive := true, uin := 3, uused := 2,
                                ubuf := [true] }) = some ([0, 0x18, 3, 0, 0, 3, 2], [], []) := by decide

/-- Vectors L1 and L5. -/
theorem test_ulm : nextOf (exec (.ulm true 14) idle) = some { idle with limen := true, ulim := 14 } ∧
    nextOf (exec (.ulm true 3) unpacking) =
      some { unpacking with err := .eLock, errcmd := 0x8000000100000003 } := by decide

/-- Vectors K7, K10 and K14: an illegal word, ignored by a faulted block, recorded by another. -/
theorem test_illegal_word : nextOf (step (issuing 0x1000000000000001 faulty)) = some faulty ∧
    nextOf (step (issuing 0x9000000000000000 State.reset)) =
      some { State.reset with err := .eCmd, errcmd := 0x9000000000000000 } ∧
    nextOf (step (issuing 0x5000000000000001 packing)) =
      some { packing with err := .eCmd, errcmd := 0x5000000000000001 } := by decide

/-! ### Witnesses: states and operands that meet the hypotheses of the statements

Each theorem instantiates the hypotheses of the statement it is named after, every clause of it, at
boundary values where a clause has a range. -/

theorem abc_inv : TableInv abc := ⟨by decide, by decide, by decide, by decide⟩

theorem abc_prefixFree : PrefixFree abc := by unfold PrefixFree; decide

theorem idle_inv : StateInv idle :=
  ⟨abc_inv, ⟨by decide, by decide⟩, ⟨by decide, by decide, by decide⟩,
    ⟨by decide, by decide, by decide, by decide, by decide, by decide, by decide, by decide⟩,
    fun _ => rfl⟩

theorem packing_inv : StateInv packing :=
  ⟨abc_inv, ⟨by decide, by decide⟩, ⟨by decide, by decide, by decide⟩,
    ⟨by decide, by decide, by decide, by decide, by decide, by decide, by decide, by decide⟩,
    fun _ => rfl⟩

theorem unpacking_inv : StateInv unpacking :=
  ⟨abc_inv, ⟨by decide, by decide⟩, ⟨by decide, by decide, by decide⟩,
    ⟨by decide, by decide, by decide, by decide, by decide, by decide, by decide, by decide⟩,
    fun _ => rfl⟩

theorem stopped_inv : StateInv stopped :=
  ⟨⟨by decide, by decide, by decide, by decide⟩, ⟨by decide, by decide⟩, ⟨by decide, by decide, by decide⟩,
    ⟨by decide, by decide, by decide, by decide, by decide, by decide, by decide, by decide⟩,
    fun _ => rfl⟩

theorem faulty_inv : StateInv faulty :=
  ⟨abc_inv, ⟨by decide, by decide⟩, ⟨by decide, by decide, by decide⟩,
    ⟨by decide, by decide, by decide, by decide, by decide, by decide, by decide, by decide⟩,
    fun h => absurd h (by decide)⟩

/-- An invariant state with an issued word is one. -/
theorem issuing_inv (w : Word) {s : State} (h : StateInv s) : StateInv (issuing w s) :=
  ⟨h.table, ⟨h.capacity.capacity, h.capacity.count⟩, ⟨h.pack.pending, h.pack.idle, h.pack.counted⟩,
    ⟨h.unpack.used, h.unpack.window, h.unpack.idle, h.unpack.stopped, h.unpack.counted, h.unpack.limited,
      h.unpack.stoppedEarly, h.unpack.closedWhole⟩, h.fault⟩

/-! #### Encoding and the step -/

theorem witness_EncodeOfDecodedIsTheWord : decode 0x443FFFC000000000 = .command (.pks 0x10FFFF) := by decide

theorem witness_IllegalWordRaisesECmd_illegal :
    packing.err = .noError ∧ (issuing 0x9000000000000000 packing).input = [.command 0x9000000000000000] ∧
    9 ≤ ((0x9000000000000000 : Word).extractLsb' 60 4).toNat := by decide

theorem witness_IllegalWordRaisesECmd_legal :
    let w : Word := 0x8000000100000003
    let op := (w.extractLsb' 60 4).toNat
    (issuing w idle).err = .noError ∧ ¬ 9 ≤ op ∧ w.getLsbD 59 = false ∧
    ¬ (op = 0 ∨ op = 1 ∨ op = 5 ∨ op = 7) ∧ op ≠ 3 ∧ op ≠ 4 ∧ op ≠ 6 ∧ op = 8 ∧
    w.extractLsb' 33 26 = 0 := by decide

theorem witness_StepRunsTheDecodedCommand :
    (issuing 0x60000000000000E8 unpacking).input = [.command 0x60000000000000E8] ∧
    decode 0x60000000000000E8 = .command (.upb 0xE8) := by decide

theorem witness_StepTestsFaultedThenIllegalThenRuns :
    ((issuing 0x1000000000000000 faulty).input = [.command 0x1000000000000000] ∧ faulty.err ≠ .noError) ∧
    ((issuing 0x1000000000000001 faulty).err ≠ .noError ∧
      (0x1000000000000001 : Word) ≠ 0x1000000000000000) ∧
    (idle.err = .noError ∧ (decode 0x1000000000000001).toOption = none) ∧
    (idle.err = .noError ∧ decode 0x7000000000000000 = .command .upe) := by decide

theorem witness_EveryStepCompletes : idle.input = [] := rfl

theorem witness_FaultedBlockIgnoresEveryWordButClr :
    faulty.err ≠ .noError ∧
    ((issuing 0x5000000000000000 faulty).input = [.command 0x5000000000000000] ∧
      decode 0x5000000000000000 ≠ .command .clr) ∧
    ((issuing 0x1000000000000000 faulty).input = [.command 0x1000000000000000] ∧
      decode 0x1000000000000000 = .command .clr) := by decide

theorem witness_FaultedLeftOnlyByClrOrReset : faulty.err ≠ .noError ∧
    step (issuing 0x1000000000000000 faulty) = .next State.reset ∧
    step (issuing 0x5000000000000000 faulty) = .next faulty ∧
    step { faulty with input := [.reset] } = .next State.reset := ⟨by decide, rfl, rfl, rfl⟩

theorem witness_RstDiffersFromClrOnlyInTheOutputs :
    ({ packing with pout := [0x0F], input := [.reset, .command 0] } : State).input =
      .reset :: [.command 0] := rfl

theorem witness_ClrClearsAllButTheOutputs :
    (0x1000000000000000 : Word) &&& 0xFFFFFFFFFFFFFFFF = 0x1000000000000000 := by decide

theorem witness_NopChangesNothing :
    (0x0000000000000000 : Word) &&& 0xFFFFFFFFFFFFFFFF = 0x0000000000000000 := by decide

/-! #### The code table -/

theorem witness_LdeLoadsOneEntry_symbol :
    (0x2440000100000000 : Word) &&& 0xF800000000000000 = 0x2000000000000000 ∧ idle.err = .noError ∧
    ¬ SymLegal 0x110000 ∧ SymLegal 0x10FFFF ∧ SymLegal 0xD7FF ∧ ¬ SymLegal 0xD800 ∧ ¬ SymLegal 0xDFFF ∧
    SymLegal 0xE000 := by decide

theorem witness_LdeLoadsOneEntry_length :
    (0x2000186100000000 : Word) &&& 0xF800000000000000 = 0x2000000000000000 ∧ idle.err = .noError ∧
    SymLegal 0x61 ∧ ¬ CodeLegal 33 0 ∧ ¬ CodeLegal 0 0 ∧ ¬ CodeLegal 1 2 ∧ CodeLegal 1 1 ∧
    CodeLegal 32 0xFFFFFFFF := by decide

theorem witness_LdeLoadsOneEntry_lock :
    (0x2000188200000003 : Word) &&& 0xF800000000000000 = 0x2000000000000000 ∧ SymLegal 98 ∧
    CodeLegal 2 3 ∧ (packing.err = .noError ∧ packing.pactive = true) ∧
    (unpacking.err = .noError ∧ unpacking.uactive = true) := by decide

theorem witness_LdeLoadsOneEntry_duplicate :
    (0x2000188100000000 : Word) &&& 0xF800000000000000 = 0x2000000000000000 ∧ idle.err = .noError ∧
    idle.pactive = false ∧ idle.uactive = false ∧ SymLegal 98 ∧ CodeLegal 1 0 ∧
    ∃ e ∈ idle.table, e.sym = 98 ∨ (e.len = 1 ∧ e.code = 0) := by decide

theorem witness_LdeLoadsOneEntry_full :
    (0x2000190300000003 : Word) &&& 0xF800000000000000 = 0x2000000000000000 ∧ SymLegal 100 ∧
    CodeLegal 3 3 ∧ (∀ e ∈ idle.table, e.sym ≠ 100 ∧ ¬ (e.len = 3 ∧ e.code = 3)) ∧
    idle.err = .noError ∧ idle.pactive = false ∧ idle.uactive = false ∧
    tcount { idle with nEntries := 3 } = ({ idle with nEntries := 3 } : State).nEntries := by decide

theorem witness_LdeLoadsOneEntry_loads :
    (0x2000190300000003 : Word) &&& 0xF800000000000000 = 0x2000000000000000 ∧ SymLegal 100 ∧
    CodeLegal 3 3 ∧ (∀ e ∈ idle.table, e.sym ≠ 100 ∧ ¬ (e.len = 3 ∧ e.code = 3)) ∧
    idle.err = .noError ∧ idle.pactive = false ∧ idle.uactive = false ∧
    tcount { idle with nEntries := 4 } ≠ ({ idle with nEntries := 4 } : State).nEntries := by decide

theorem witness_SlotValidExactlyBelowTcount : slotAt idle 2 = (true, ⟨99, 2, 2⟩) ∧
    (slotAt idle 3).1 = false := by decide

theorem witness_TableOnlyGrowsByOneEntryOrEmpties :
    step (issuing 0x200018C200000002 { State.reset with table := [⟨97, 1, 0⟩, ⟨98, 2, 3⟩] }) = .next idle ∧
    step (issuing 0x1000000000000000 idle) = .next State.reset ∧
    step (issuing 0x5000000000000000 idle) = .next idle := ⟨rfl, rfl, rfl⟩

theorem witness_LookupFindsTheSymbolsEntry :
    abc.Pairwise (fun a b => a.sym ≠ b.sym) ∧ lookup abc 98 = some ⟨98, 2, 3⟩ ∧ lookup abc 100 = none ∧
    abc.reverse.Perm abc := by decide

theorem witness_MatchFindsTheLongestCode : TableInv abc ∧
    matchLongest abc [true, false, true] = some ⟨99, 2, 2⟩ ∧ matchLongest abc [true] = none ∧
    abc.reverse.Perm abc := ⟨abc_inv, by decide, by decide, by decide⟩

theorem witness_PrefixFreeTableHasOneMatch : PrefixFree abc ∧ (⟨98, 2, 3⟩ : Entry) ∈ abc ∧
    Entry.string ⟨98, 2, 3⟩ <+: [true, true, false] := ⟨abc_prefixFree, by decide, by decide⟩

theorem witness_MatchOfDecidedPositionIsFinal : maxLen abc ≤ [true, false].length := by decide

/-! #### The packer -/

theorem witness_PkcPacksTheCode :
    ((0x3000000200000003 : Word) &&& 0xFFFFFFC000000000 = 0x3000000000000000 ∧
      (0x3000002100000000 : Word) &&& 0xFFFFFFC000000000 = 0x3000000000000000) ∧
    (idle.err = .noError ∧ ¬ CodeLegal 33 0) ∧ CodeLegal 2 3 ∧ packBase packing + 2 ≤ 2 ^ 32 - 1 ∧
    2 ^ 32 - 1 < packBase { packing with pbits := 0xFFFFFFFE } + 2 ∧
    packBase { packing with pbits := 0xFFFFFFFD } + 2 = 2 ^ 32 - 1 := by decide

theorem witness_PksPacksTheSymbolsCode :
    (0x4000188000000000 : Word) &&& 0xF800003FFFFFFFFF = 0x4000000000000000 ∧
    (idle.err = .noError ∧ ¬ SymLegal 0xD800) ∧ (SymLegal 100 ∧ ∀ e ∈ idle.table, e.sym ≠ 100) ∧
    ((⟨98, 2, 3⟩ : Entry) ∈ packing.table ∧ packing.table.Pairwise (fun a b => a.sym ≠ b.sym) ∧
      SymLegal 98 ∧ CodeLegal 2 3 ∧ packing.err = .noError ∧ packBase packing + 2 ≤ 2 ^ 32 - 1) ∧
    2 ^ 32 - 1 < packBase { packing with pbits := 0xFFFFFFFE } + 2 := by decide

theorem witness_PkfEmitsThePaddedLastByte :
    (0x5000000000000000 : Word) &&& 0xFFFFFFFFFFFFFFFF = 0x5000000000000000 ∧
    (idle.err = .noError ∧ idle.pactive = false) ∧
    (packing.err = .noError ∧ packing.pactive = true ∧ packing.pacc ≠ [] ∧ packing.pacc.length ≤ 7) ∧
    ({ packing with pacc := [] } : State).pacc = [] := by decide

theorem witness_PackStreamEmitsThePayload :
    List.Forall₂ (Packs idle.table) [.pkc 2 3, .pks 99] [codeString 2 3, Entry.string ⟨99, 2, 2⟩] ∧
    TableInv idle.table ∧ idle.err = .noError ∧ idle.pactive = false ∧ idle.pacc = [] ∧
    [codeString 2 3, Entry.string ⟨99, 2, 2⟩].flatten.length ≤ 2 ^ 32 - 1 :=
  ⟨.cons (.pkc 2 3 (by decide)) (.cons (.pks ⟨99, 2, 2⟩ (by decide) (by decide)) .nil), abc_inv,
    by decide, by decide, by decide, by decide⟩

/-! #### The unpacker -/

theorem witness_UlmSetsTheBitLimit :
    (0x800000010000000E : Word) &&& 0xFFFFFFFE00000000 = 0x8000000000000000 ∧
    (unpacking.err = .noError ∧ unpacking.uactive = true) ∧
    (packing.err = .noError ∧ packing.uactive = false) := by decide

theorem witness_UpbDecodesWhatIsDecided :
    (0x60000000000000E8 : Word) &&& 0xFFFFFFFFFFFFFF00 = 0x6000000000000000 ∧
    (unpacking.err = .noError ∧ (∀ e ∈ unpacking.table, 1 ≤ e.len.toNat) ∧ unpacking.ustop = false ∧
      unpackBase unpacking + unpackTake unpacking ≤ 2 ^ 32 - 1) ∧
    2 ^ 32 - 1 < unpackBase { unpacking with uin := 0xFFFFFFF8 }
      + unpackTake { unpacking with uin := 0xFFFFFFF8 } ∧
    (stopped.err = .noError ∧ (∀ e ∈ stopped.table, 1 ≤ e.len.toNat) ∧ stopped.uactive = true ∧
      stopped.ustop = true ∧ unpackBase stopped + unpackTake stopped ≤ 2 ^ 32 - 1) ∧
    (idle.uactive = false ∧ unpackBase idle + unpackTake idle ≤ 2 ^ 32 - 1) := by decide

theorem witness_UpeDecodesTheRestAndCloses :
    (0x7000000000000000 : Word) &&& 0xFFFFFFFFFFFFFFFF = 0x7000000000000000 ∧
    (idle.err = .noError ∧ (∀ e ∈ idle.table, 1 ≤ e.len.toNat) ∧ idle.uactive = false) ∧
    (stopped.err = .noError ∧ (∀ e ∈ stopped.table, 1 ≤ e.len.toNat) ∧ stopped.uactive = true ∧
      stopped.ustop = true) ∧
    (unpacking.err = .noError ∧ unpacking.uactive = true ∧ unpacking.ustop = false) := by decide

theorem witness_DecodingIsDetermined : TableInv abc ∧
    DecodesTo abc 2 [true, true, false] [98] [false] false :=
  ⟨abc_inv, .take ⟨98, 2, 3⟩ _ [false] _ _ _ (by decide) (by decide)
    ⟨by decide, by decide, by decide⟩ rfl (.held _ (.inr (by decide)))⟩

theorem witness_DecodeAllRepeatsTheLongestMatch : ∀ e ∈ abc, 1 ≤ e.len.toNat := by decide

theorem witness_UnpackStreamDecodesTheWholePayload :
    ([0x0F, 0xE8] : List Byte) ≠ [] ∧ StateInv idle ∧ idle.err = .noError ∧ idle.uactive = false ∧
    idle.limen = false ∧ 8 * ([0x0F, 0xE8] : List Byte).length ≤ 2 ^ 32 - 1 :=
  ⟨by decide, idle_inv, by decide, by decide, by decide, by decide⟩

theorem witness_UstopTellsTheResidual :
    (StateInv unpacking ∧ unpacking.err = .noError ∧ unpacking.uactive = true ∧
      ∃ t, exec .upe unpacking = .next t ∧ t.ustop = false) ∧
    (StateInv stopped ∧ stopped.err = .noError ∧ stopped.uactive = true ∧
      ∃ t, exec .upe stopped = .next t ∧ t.ustop = true) :=
  ⟨⟨unpacking_inv, by decide, by decide, _, rfl, rfl⟩, ⟨stopped_inv, by decide, by decide, _, rfl, rfl⟩⟩

theorem witness_PaddingZerosDecodeAsTheAllZerosCode :
    (TableInv abc ∧ PrefixFree abc ∧ (∀ e ∈ abc, e ∈ abc) ∧ (⟨97, 1, 0⟩ : Entry) ∈ abc) ∧
    (TableInv stopped.table ∧ PrefixFree stopped.table ∧ ∀ z ∈ stopped.table, z.code ≠ 0) :=
  ⟨⟨abc_inv, abc_prefixFree, fun _ h => h, by decide⟩, stopped_inv.table,
    by unfold PrefixFree; decide, by decide⟩

/-- A text over the table. -/
def abcText : List Sym := abc.map Entry.sym

theorem witness_UnpackingInvertsPacking :
    abcText ≠ [] ∧ StateInv idle ∧ PrefixFree idle.table ∧ idle.err = .noError ∧
    idle.pactive = false ∧ idle.uactive = false ∧
    (∀ sym ∈ abcText, ∃ e ∈ idle.table, e.sym = sym) ∧ 32 * abcText.length ≤ 2 ^ 32 - 1 :=
  ⟨by decide, idle_inv, abc_prefixFree, rfl, rfl, rfl, fun _ h => List.mem_map.mp h, by decide⟩

/-! #### Registers, faults, the whole machine -/

theorem witness_RegistersShowTheState : StateInv unpacking ∧ unpacking.table ≠ [] ∧
    (∀ e, StateInv { State.reset with err := e }) ∧ State.reset.table = [] :=
  ⟨unpacking_inv, by decide,
    fun e => by cases e <;> exact ⟨⟨by decide, by decide, by decide, by decide⟩, ⟨by decide, by decide⟩,
      ⟨by decide, by decide, by decide⟩,
      ⟨by decide, by decide, by decide, by decide, by decide, by decide, by decide, by decide⟩,
      fun _ => rfl⟩, rfl⟩

theorem witness_PaccRegisterHoldsThePendingBits : packing.pacc.length ≤ 7 ∧ packing.err = .noError ∧
    packing.pactive = true ∧ packing.pacc ≠ [] ∧ regRead packing 7 = 0x6E8 := by decide

theorem witness_FaultEntryIsPrecise : idle.err = .noError ∧ faulty.err ≠ .noError ∧
    step (issuing 0x4000190000000000 idle) = .next faulty := ⟨by decide, by decide, rfl⟩

theorem witness_LowestApplicableFaultIsReported :
    (TableInv idle.table ∧ idle.err = .noError ∧ exec (.pks 100) idle = .next faulty) ∧
    (TableInv unpacking.table ∧ unpacking.err = .noError ∧
      ∃ t, exec (.upb 0xFF) unpacking = .next t ∧ t.err = .noError) :=
  ⟨⟨abc_inv, by decide, rfl⟩, abc_inv, by decide, _, rfl, rfl⟩

theorem witness_IllFormedOperandsFault :
    (idle.err = .noError ∧ (Instr.pks 0xD800).wellFormed = false ∧
      exec (.pks 0xD800) idle = .next { idle with err := .eSym, errcmd := 0x4036000000000000 }) ∧
    ((Instr.pks 100).wellFormed = true ∧ exec (.pks 100) idle = .next faulty) :=
  ⟨⟨by decide, by decide, rfl⟩, by decide, rfl⟩

theorem witness_FaultRecordStaysExplained : FaultExplained faulty ∧ FaultExplained idle ∧
    step (issuing 0x4000190000000000 idle) = .next faulty :=
  ⟨fun _ => show SymLegal 100 by decide, fun h => absurd rfl h, rfl⟩

theorem witness_InvariantHoldsAtReset : Config.capacityOK 1 ∧ Config.capacityOK (2 ^ 32 - 1) ∧
    ¬ Config.capacityOK 0 ∧ ¬ Config.capacityOK (2 ^ 32) := by decide

theorem witness_EveryStepKeepsTheInvariant :
    (StateInv (issuing 0x4000190000000000 idle) ∧
      step (issuing 0x4000190000000000 idle) = .next faulty) ∧
    (StateInv (issuing 0x60000000000000E8 unpacking) ∧
      ∃ t, step (issuing 0x60000000000000E8 unpacking) = .next t ∧ t.uin = 24) ∧
    (StateInv (issuing 0x5000000000000000 packing) ∧
      ∃ t, step (issuing 0x5000000000000000 packing) = .next t ∧ t.pout = [0xE8]) ∧
    (StateInv (issuing 0x5000000000000000 faulty) ∧
      step (issuing 0x5000000000000000 faulty) = .next faulty) :=
  ⟨⟨issuing_inv _ idle_inv, rfl⟩, ⟨issuing_inv _ unpacking_inv, _, rfl, by decide⟩,
    ⟨issuing_inv _ packing_inv, _, rfl, by decide⟩, ⟨issuing_inv _ faulty_inv, rfl⟩⟩

theorem witness_OutputsOnlyGrow :
    ((issuing 0x5000000000000000 packing).input.head? ≠ some .reset ∧
      ∃ t, step (issuing 0x5000000000000000 packing) = .next t ∧ t.pout = [0xE8]) ∧
    (({ packing with pout := [0x0F], input := [.reset] } : State).input.head? = some .reset ∧
      step { packing with pout := [0x0F], input := [.reset] } = .next State.reset) :=
  ⟨⟨by decide, _, rfl, by decide⟩, by decide, rfl⟩

theorem witness_EmissionsAreBounded :
    (StateInv idle ∧ isPackCommand (.upb 0) = false ∧ ∃ t, exec (.upb 0) idle = .next t ∧ t.uout.length = 7) ∧
    (StateInv packing ∧ ∃ t, exec .pkf packing = .next t ∧ t.pout.length = 1) ∧
    (StateInv unpacking ∧ ∃ t, exec .upe unpacking = .next t ∧ t.uout.length = 1) :=
  ⟨⟨idle_inv, rfl, _, rfl, by decide⟩, ⟨packing_inv, _, rfl, by decide⟩, unpacking_inv, _, rfl, by decide⟩

theorem witness_PackingLeavesTheRestAlone :
    isPackCommand (.pkc 2 3) = true ∧ isPackCommand (.pks 98) = true ∧ isPackCommand .pkf = true ∧
    (nextOf (exec (.pkc 2 3) packing)).isSome ∧ (nextOf (exec (.pks 98) packing)).isSome ∧
    (nextOf (exec .pkf packing)).isSome := by decide

theorem witness_UnpackingLeavesTheRestAlone :
    isUnpackCommand (.upb 0xE8) = true ∧ isUnpackCommand .upe = true ∧ isUnpackCommand (.ulm true 3) = true ∧
    (nextOf (exec (.upb 0xE8) unpacking)).isSome ∧ (nextOf (exec .upe unpacking)).isSome ∧
    (nextOf (exec (.ulm true 3) idle)).isSome := by decide

/-- Each flag set by a command of its row of R32 and cleared by one. -/
theorem witness_FlagsChangeOnlyByTheirCommands :
    (nextOf (exec (.pks 98) idle)).map State.pactive = some true ∧
    (nextOf (exec .pkf packing)).map State.pactive = some false ∧
    (nextOf (exec (.upb 0xE8) idle)).map State.uactive = some true ∧
    (nextOf (exec .upe unpacking)).map State.uactive = some false ∧
    (nextOf (exec (.upb 0xE0) { stopped with uactive := false, ustop := false })).map State.ustop = some true ∧
    (nextOf (exec (.upb 0xFF) { stopped with uactive := false })).map State.ustop = some false ∧
    (nextOf (exec (.ulm true 3) idle)).map State.limen = some true ∧
    (nextOf (exec (.pks 100) idle)).map State.err = some .eMiss ∧
    (nextOf (exec .clr faulty)).map State.err = some .noError := by decide

theorem witness_PackerDoesNotSeeTheUnpacker : isPackCommand (.pks 98) = true ∧
    idle.table = unpacking.table ∧ idle.pacc = unpacking.pacc ∧ idle.pactive = unpacking.pactive ∧
    idle.pbits = unpacking.pbits ∧ idle.err = unpacking.err ∧
    (nextOf (exec (.pks 98) idle)).isSome ∧ (nextOf (exec (.pks 98) unpacking)).isSome := by decide

theorem witness_UnpackerDoesNotSeeThePacker : isUnpackCommand (.upb 0x0F) = true ∧
    idle.table = packing.table ∧ idle.ubuf = packing.ubuf ∧ idle.uactive = packing.uactive ∧
    idle.ustop = packing.ustop ∧ idle.limen = packing.limen ∧ idle.ulim = packing.ulim ∧
    idle.uin = packing.uin ∧ idle.uused = packing.uused ∧ idle.err = packing.err ∧
    (nextOf (exec (.upb 0x0F) idle)).isSome ∧ (nextOf (exec (.upb 0x0F) packing)).isSome := by decide

theorem witness_PackAndUnpackCommandsCommute :
    isPackCommand (.pks 98) = true ∧ isUnpackCommand (.upb 0x0F) = true ∧
    (nextOf (exec (.pks 98) idle)).map State.err = some .noError ∧
    (nextOf (exec (.upb 0x0F) idle)).map State.err = some .noError := by decide

theorem witness_CapacityMattersOnlyWhenFull : tcount idle ≠ idle.nEntries ∧ tcount idle ≠ 4 ∧
    (nextOf (exec (.lde 100 3 3) idle)).isSome := by decide

theorem witness_CountersNeverWrap :
    (StateInv packing ∧ packing.pactive = true ∧ Instr.pks 98 ≠ .clr ∧ ∃ t, exec (.pks 98) packing = .next t) ∧
    (StateInv unpacking ∧ unpacking.uactive = true ∧ Instr.upb 0xE8 ≠ .clr ∧
      ∃ t, exec (.upb 0xE8) unpacking = .next t) ∧
    (nextOf (exec (.pkc 1 1) { packing with pbits := 0xFFFFFFFF })).map State.err = some .eOvf :=
  ⟨⟨packing_inv, rfl, by decide, _, rfl⟩, ⟨unpacking_inv, rfl, by decide, _, rfl⟩, by decide⟩

/-! #### The host's side -/

theorem witness_AssembledCodeStandsForItsString :
    assembleBits [true, true] = some (2, 3) ∧ assembleBits [] = none ∧
    assembleBits (List.replicate 32 true) = some (32, 0xFFFFFFFF) ∧
    assembleBits (List.replicate 33 true) = none := by decide

/-- The artifact of 95_test_vectors.md section V4, byte for byte. -/
theorem test_artifact_of_V4 :
    artifact [(97, [false]), (98, [true, true]), (99, [true, false])] [0x0F, 0xE8] =
      [0x39, 0x37, 0x3A, 0x30, 0x0A, 0x39, 0x38, 0x3A, 0x31, 0x31, 0x0A, 0x39, 0x39, 0x3A, 0x31, 0x30,
        0x48, 0x45, 0x41, 0x44, 0x45, 0x52, 0x5F, 0x45, 0x4E, 0x44, 0x0F, 0xE8] := by decide

theorem witness_HeaderReadsBackAsItsEntries :
    ([(0x10FFFF, List.replicate 32 true), (0, [false])] : CodeTable) ≠ [] ∧
    ∀ entry ∈ ([(0x10FFFF, List.replicate 32 true), (0, [false])] : CodeTable),
      1 ≤ entry.2.length ∧ entry.2.length ≤ 32 := by decide

/-- A tie-break: the first in order, and the first removed becomes the left child. -/
def firstTie : TieBreak := ⟨fun _ _ => true, fun _ _ => true⟩

theorem witness_DecodeJobInvertsEncodeJob :
    (∀ table : CodeTable, (id table).Perm table) ∧ ([97, 98, 97] : List Sym) ≠ [] ∧
    Config.capacityOK State.reset.nEntries ∧ packing.nEntries = State.reset.nEntries ∧
    ∃ bytes t, encodeJob firstTie false id .zeroBytes [97, 98, 97] State.reset = .ok (bytes, t) :=
  ⟨fun _ => List.Perm.refl _, by decide, by decide, rfl, _, _, rfl⟩

end Sys2Proof.Tests
end

section
/-! SUPPORT. The register read port and the state after reset (10_state.md rules R33, R35, R41, R47, R174):
STATUS and PACC field by field, the values reset leaves, and the statements settled with them. -/

namespace Sys2Proof.Machine

theorem regRead_status (s : State) : regRead s 0 = statusRegister s := rfl

theorem regRead_pacc (s : State) : regRead s 7 = paccRegister s := rfl

/-! ### PACC (R41) -/

/-- The pending bits padded with zeros on the right to one byte: `PACC` shows it and PKF emits it
(R41, R114). -/
def pendingByte (pacc : Bits) : Byte := byteOf (pacc ++ zeros (8 - pacc.length))

theorem msbFirst_pendingByte {pacc : Bits} (h : pacc.length ≤ 8) :
    msbFirst (pendingByte pacc) = pacc ++ zeros (8 - pacc.length) :=
  msbFirst_byteOf _ (by rw [List.length_append, zeros_length]; omega)

theorem lastByte_of_pending {pacc : Bits} (h : pacc ≠ []) : lastByte pacc = [pendingByte pacc] :=
  if_neg (by simpa using h)

theorem paccRegister_byte (s : State) : (paccRegister s).extractLsb' 0 8 = pendingByte s.pacc :=
  BitVec.extractLsb'_append_eq_right

theorem paccRegister_count (s : State) :
    (paccRegister s).extractLsb' 8 3 = BitVec.ofNat 3 s.pacc.length := by
  rw [paccRegister, BitVec.extractLsb'_append_eq_of_le (Nat.le_refl 8)]
  exact BitVec.extractLsb'_append_eq_right

theorem paccRegister_high (s : State) : (paccRegister s).extractLsb' 11 21 = 0 := by
  rw [paccRegister, BitVec.extractLsb'_append_eq_of_le (by decide)]
  exact BitVec.extractLsb'_append_eq_left

/-- PKF of an open stream with pending bits emits the low byte of `PACC` (R41, R114). -/
theorem exec_pkf_emits_paccByte {s : State} (herr : s.err = .noError) (hopen : s.pactive = true)
    (hpending : s.pacc ≠ []) :
    ∃ t, exec .pkf s = .next t ∧ t.pout = s.pout ++ [(paccRegister s).extractLsb' 0 8] := by
  refine ⟨_, execPkf_running herr, ?_⟩
  rw [if_pos hopen, paccRegister_byte, lastByte_of_pending hpending]

/-! ### STATUS (R35, R174) -/

/-- A register whose lowest bit is a flag has the flag there. -/
theorem getLsbD_append_ofBool_zero {n : Nat} (high : BitVec n) (flag : Bool) :
    (high ++ BitVec.ofBool flag).getLsbD 0 = flag := by
  rw [BitVec.getLsbD_append, if_pos Nat.one_pos, BitVec.getLsbD_ofBool]
  rfl

/-- Above the flag it has the other bits, one place up. -/
theorem getLsbD_append_ofBool_succ {n : Nat} (high : BitVec n) (flag : Bool) (j : Nat) :
    (high ++ BitVec.ofBool flag).getLsbD (j + 1) = high.getLsbD j := by
  rw [BitVec.getLsbD_append, if_neg (by omega), Nat.add_sub_cancel]

section
variable (s : State)

theorem statusRegister_fault : (statusRegister s).getLsbD 0 = faulted s :=
  getLsbD_append_ofBool_zero _ _

theorem statusRegister_pactive : (statusRegister s).getLsbD 1 = s.pactive := by
  simp only [statusRegister, getLsbD_append_ofBool_succ, getLsbD_append_ofBool_zero]

theorem statusRegister_uactive : (statusRegister s).getLsbD 2 = s.uactive := by
  simp only [statusRegister, getLsbD_append_ofBool_succ, getLsbD_append_ofBool_zero]

theorem statusRegister_ustop : (statusRegister s).getLsbD 3 = s.ustop := by
  simp only [statusRegister, getLsbD_append_ofBool_succ, getLsbD_append_ofBool_zero]

theorem statusRegister_limen : (statusRegister s).getLsbD 4 = s.limen := by
  simp only [statusRegister, getLsbD_append_ofBool_succ, getLsbD_append_ofBool_zero]

theorem statusRegister_above {j : Nat} (h : 5 ≤ j) : (statusRegister s).getLsbD j = false := by
  obtain ⟨k, rfl⟩ := Nat.exists_eq_add_of_le' h
  simp only [statusRegister, getLsbD_append_ofBool_succ, BitVec.getLsbD_zero]

end

/-! ### The state after reset (R47) -/

/-- After reset no slot of the table is valid. -/
theorem slotAt_resetWith (n : Nat) (input : List HostEvent) (i : Nat) :
    (slotAt (State.resetWith n input) i).1 = false := rfl

theorem statusRegister_resetWith (n : Nat) (input : List HostEvent) :
    statusRegister (State.resetWith n input) = 0 := by
  simp [statusRegister, faulted]

theorem paccRegister_resetWith (n : Nat) (input : List HostEvent) :
    paccRegister (State.resetWith n input) = 0 := by
  simp [paccRegister, byteOf, zeros, valOf]

/-- After reset every register reads 0, at every capacity. -/
theorem regRead_resetWith (n : Nat) (input : List HostEvent) (r : BitVec 4) :
    regRead (State.resetWith n input) r = 0 := by
  unfold regRead
  split
  case h_1 => exact statusRegister_resetWith n input
  case h_8 => exact paccRegister_resetWith n input
  all_goals simp [errNumber, tcount, tmaxlen, maxLen]

/-! ### The statements -/

/-- Settles O38, from the three fields of `PACC` and from what PKF emits. -/
theorem paccRegisterHoldsThePendingBits : Obligations.PaccRegisterHoldsThePendingBits := by
  refine ⟨regRead_resetWith _ _ 7, fun s hlen => ?_⟩
  rw [regRead_pacc]
  refine ⟨?_, ?_, paccRegister_high s, exec_pkf_emits_paccByte⟩
  · rw [paccRegister_byte, msbFirst_pendingByte (by omega)]
  · rw [paccRegister_count, BitVec.toNat_ofNat, Nat.mod_eq_of_lt (by omega)]

/-- Settles O11: the elements by their reset values, the registers at every capacity. -/
theorem resetLeavesTheResetValues : Obligations.ResetLeavesTheResetValues :=
  ⟨rfl, rfl, slotAt_resetWith _ _, rfl, rfl, rfl, rfl, rfl, rfl, rfl, rfl, rfl, rfl, rfl, rfl, rfl, rfl,
    regRead_resetWith _ _⟩

/-- Settles O36, bit by bit; the output `fault` is bit 0 by what both show. -/
theorem statusRegisterHoldsTheFlags : Obligations.StatusRegisterHoldsTheFlags := by
  refine ⟨regRead_resetWith _ _ 0, fun s => ?_⟩
  rw [regRead_status, statusRegister_fault]
  exact ⟨faulted_iff s, statusRegister_pactive s, statusRegister_uactive s, statusRegister_ustop s,
    statusRegister_limen s, fun _ h => statusRegister_above s h, rfl⟩

end Sys2Proof.Machine
end

section
/-! SUPPORT. The code table's two lookups (20_memory.md rules R60, R61): a code string determines its code,
a longest match is unique in a table that keeps its invariants, and the statements settled with them. -/

namespace Sys2Proof.Machine

/-! ### A code string determines its code (R16, R76) -/

/-- `ValOf` inverts `BitsOf` up to the bits above the n-th (R16). -/
theorem valOf_bitsOf (n v : Nat) : valOf (bitsOf n v) = v % 2 ^ n := by
  induction n with
  | zero => simp [bitsOf, valOf, Nat.mod_one]
  | succ n ih =>
    rw [bitsOf, valOf, ih, bitsOf_length, Nat.mod_pow_succ, Nat.toNat_testBit, Nat.mul_comm, Nat.add_comm]

theorem valOf_codeString {len : CodeLen} {code : CodeWord} (h : CodeLegal len code) :
    valOf (codeString len code) = code.toNat := by
  obtain ⟨-, -, hlt⟩ := h
  rw [← codeBits_eq, codeBits, valOf_bitsOf, Nat.mod_eq_of_lt hlt]

theorem codeString_inj {len len' : CodeLen} {code code' : CodeWord} (h : CodeLegal len code)
    (h' : CodeLegal len' code') (heq : codeString len code = codeString len' code') :
    len = len' ∧ code = code' := by
  have hlen := congrArg List.length heq
  have hval := congrArg valOf heq
  rw [codeString_length, codeString_length] at hlen
  rw [valOf_codeString h, valOf_codeString h'] at hval
  exact ⟨BitVec.eq_of_toNat_eq hlen, BitVec.eq_of_toNat_eq hval⟩

/-- No two entries of the table have the same code string (R24(b), R24(e)). -/
theorem TableInv.eq_of_string_eq {table : List Entry} (inv : TableInv table) {a b : Entry}
    (ha : a ∈ table) (hb : b ∈ table) (h : a.string = b.string) : a = b := by
  by_contra hne
  have : Std.Symm fun a b : Entry => ¬ (a.len = b.len ∧ a.code = b.code) :=
    ⟨fun _ _ hd hc => hd ⟨hc.1.symm, hc.2.symm⟩⟩
  exact inv.codesDistinct.forall ha hb hne (codeString_inj (inv.codes a ha) (inv.codes b hb) h)

/-! ### Lookup (R60) -/

theorem lookup_some_iff {table : List Entry} (hd : table.Pairwise fun a b => a.sym ≠ b.sym) {sym : Sym}
    {e : Entry} : lookup table sym = some e ↔ e ∈ table ∧ e.sym = sym := by
  refine ⟨lookup_some, ?_⟩
  rintro ⟨he, rfl⟩
  exact lookup_of_mem hd he

theorem lookup_none_iff {table : List Entry} {sym : Sym} :
    lookup table sym = none ↔ ∀ e ∈ table, e.sym ≠ sym :=
  ⟨lookup_none, fun h => List.find?_eq_none.mpr (by simpa using h)⟩

theorem lookup_perm {table table' : List Entry} (hd : table.Pairwise fun a b => a.sym ≠ b.sym)
    (hp : table'.Perm table) (sym : Sym) : lookup table' sym = lookup table sym := by
  cases h : lookup table' sym with
  | none =>
    exact (lookup_none_iff.mpr fun e he => lookup_none h e (hp.mem_iff.mpr he)).symm
  | some e =>
    obtain ⟨he, hs⟩ := lookup_some h
    exact ((lookup_some_iff hd).mpr ⟨hp.mem_iff.mp he, hs⟩).symm

/-! ### Match (R61) -/

/-- Two longest matches have one length, so they are the same prefix of the window: the same entry. -/
theorem LongestMatch.unique {table : List Entry} {buf : Bits} {a b : Entry} (inv : TableInv table)
    (ha : LongestMatch table buf a) (hb : LongestMatch table buf b) : a = b := by
  obtain ⟨hamem, hapre, hamax⟩ := ha
  obtain ⟨hbmem, hbpre, hbmax⟩ := hb
  have hlen : a.len.toNat = b.len.toNat := (hbmax a hamem hapre).antisymm (hamax b hbmem hbpre)
  have hpre : a.string <+: b.string := List.prefix_of_prefix_length_le hapre hbpre (by simp [hlen])
  exact inv.eq_of_string_eq hamem hbmem (hpre.eq_of_length (by simp [hlen]))

theorem longestMatch_perm {table table' : List Entry} (hp : table'.Perm table) {buf : Bits} {e : Entry} :
    LongestMatch table' buf e ↔ LongestMatch table buf e := by
  simp only [LongestMatch, hp.mem_iff]

theorem matchLongest_some_iff {table : List Entry} (inv : TableInv table) {buf : Bits} {e : Entry} :
    matchLongest table buf = some e ↔ LongestMatch table buf e := by
  refine ⟨matchLongest_some, fun he => ?_⟩
  cases h : matchLongest table buf with
  | none =>
    obtain ⟨hmem, hpre, -⟩ := he
    exact absurd hpre (matchLongest_none_iff.mp h e hmem)
  | some e' => rw [(matchLongest_some h).unique inv he]

theorem matchLongest_perm {table table' : List Entry} (inv : TableInv table) (hp : table'.Perm table)
    (buf : Bits) : matchLongest table' buf = matchLongest table buf := by
  cases h : matchLongest table' buf with
  | none =>
    exact (matchLongest_none_iff.mpr fun e he => matchLongest_none_iff.mp h e (hp.mem_iff.mpr he)).symm
  | some e =>
    exact ((matchLongest_some_iff inv).mpr ((longestMatch_perm hp).mp (matchLongest_some h))).symm

/-! ### The statements -/

/-- Settles O18, from what `Lookup` finds, when it finds nothing, and its independence of the order. -/
theorem lookupFindsTheSymbolsEntry : Obligations.LookupFindsTheSymbolsEntry := fun _ sym hd =>
  ⟨fun _ => lookup_some_iff hd, lookup_none_iff, fun _ hp => lookup_perm hd hp sym⟩

/-- Settles O19, from the uniqueness of the longest match: `Match` finds it, in whatever order. -/
theorem matchFindsTheLongestCode : Obligations.MatchFindsTheLongestCode := fun _ buf inv =>
  ⟨fun _ => matchLongest_some_iff inv, matchLongest_none_iff, fun _ hp => matchLongest_perm inv hp buf⟩

end Sys2Proof.Machine
end

section
/-! SUPPORT. The decoding table as rows (30_encoding.md rule R74): two rows differ in a bit that both masks
keep, so at most one spells a word; they read different commands, so a command tells its row; and the
statement settled with them. -/

namespace Sys2Proof

theorem DecodeRow.spells_iff (r : DecodeRow) (w : Word) : r.spells w = true ↔ w &&& r.mask = r.pattern :=
  beq_iff_eq

/-- What a row demands of a word in the bits of another row's mask. -/
theorem DecodeRow.pattern_and {r : DecodeRow} {w : Word} (h : r.spells w = true) (mask : Word) :
    r.pattern &&& mask = w &&& (r.mask &&& mask) := by
  rw [← (r.spells_iff w).mp h, BitVec.and_assoc]

/-- The two rows demand different values of the bits that both their masks keep. -/
def DecodeRow.Conflicts (a b : DecodeRow) : Prop := a.pattern &&& b.mask ≠ b.pattern &&& a.mask

theorem DecodeRow.Conflicts.not_both_spell {a b : DecodeRow} (h : a.Conflicts b) (w : Word) :
    ¬ (a.spells w = true ∧ b.spells w = true) := by
  rintro ⟨ha, hb⟩
  exact h (by rw [pattern_and ha, pattern_and hb, BitVec.and_comm a.mask])

theorem decodeRows_conflict : decodeRows.Pairwise DecodeRow.Conflicts := by
  unfold DecodeRow.Conflicts
  decide

theorem decodeRows_disjoint :
    decodeRows.Pairwise fun a b => ∀ w : Word, ¬ (a.spells w = true ∧ b.spells w = true) :=
  decodeRows_conflict.imp DecodeRow.Conflicts.not_both_spell

/-- Different rows are rows of different commands, whatever the operand fields hold. -/
theorem decodeRows_read_ne : decodeRows.Pairwise fun a b => ∀ w : Word, a.read w ≠ b.read w := by
  simp [decodeRows]

/-- Rows that stand in a symmetric relation no two rows of the table stand in are one row. -/
theorem decodeRows_eq_of_rel {R : DecodeRow → DecodeRow → Prop} (symm : ∀ a b, R a b → R b a)
    (hnot : decodeRows.Pairwise fun a b => ¬ R a b) {a b : DecodeRow} (ha : a ∈ decodeRows)
    (hb : b ∈ decodeRows) (h : R a b) : a = b := by
  by_contra hne
  have : Std.Symm fun a b => ¬ R a b := ⟨fun a b hab hba => hab (symm b a hba)⟩
  exact hnot.forall ha hb hne h

/-- At most one row spells a word. -/
theorem decodeRows_spells_unique {a b : DecodeRow} (ha : a ∈ decodeRows) (hb : b ∈ decodeRows) {w : Word}
    (hsa : a.spells w = true) (hsb : b.spells w = true) : a = b :=
  decodeRows_eq_of_rel (R := fun a b => a.spells w = true ∧ b.spells w = true) (fun _ _ => And.symm)
    (decodeRows_disjoint.imp (· w)) ha hb ⟨hsa, hsb⟩

/-- The command read tells the row. -/
theorem decodeRows_read_inj {a b : DecodeRow} (ha : a ∈ decodeRows) (hb : b ∈ decodeRows) {w : Word}
    (h : a.read w = b.read w) : a = b :=
  decodeRows_eq_of_rel (R := fun a b => a.read w = b.read w) (fun _ _ => Eq.symm)
    (decodeRows_read_ne.imp (· w)) ha hb h

theorem decode_of_spells {r : DecodeRow} (hr : r ∈ decodeRows) {w : Word} (h : r.spells w = true) :
    decode w = .command (r.read w) := by
  unfold decode
  split
  next r' hfound =>
    have hr' := List.mem_of_find?_eq_some hfound
    have h' : r'.spells w = true := List.find?_some (p := (DecodeRow.spells · w)) hfound
    rw [decodeRows_spells_unique hr hr' h h']
  next hnone => exact absurd h (List.find?_eq_none.mp hnone r hr)

theorem exists_row_of_decode {w : Word} {i : Instr} (h : decode w = .command i) :
    ∃ r ∈ decodeRows, r.spells w = true ∧ r.read w = i := by
  unfold decode at h
  split at h
  next r hfound =>
    exact ⟨r, List.mem_of_find?_eq_some hfound, List.find?_some (p := (DecodeRow.spells · w)) hfound,
      Decoded.command.inj h⟩
  next => nomatch h

/-- A word decodes to the command a row reads from it exactly when it matches the row under its mask. -/
theorem decode_eq_read_iff {r : DecodeRow} (hr : r ∈ decodeRows) (w : Word) :
    decode w = .command (r.read w) ↔ w &&& r.mask = r.pattern := by
  rw [← DecodeRow.spells_iff]
  refine ⟨fun h => ?_, decode_of_spells hr⟩
  obtain ⟨r', hr', hspells, hread⟩ := exists_row_of_decode h
  rwa [← decodeRows_read_inj hr' hr hread]

theorem row_or_no_command (w : Word) :
    (∃ r ∈ decodeRows, r.spells w = true ∧ decode w = .command (r.read w)) ∨
      ((∀ r ∈ decodeRows, r.spells w = false) ∧ ∀ i, decode w ≠ .command i) := by
  by_cases h : ∃ r ∈ decodeRows, r.spells w = true
  · obtain ⟨r, hr, hspells⟩ := h
    exact .inl ⟨r, hr, hspells, decode_of_spells hr hspells⟩
  · refine .inr ⟨fun r hr => Bool.eq_false_iff.mpr fun hspells => h ⟨r, hr, hspells⟩, fun i hi => ?_⟩
    obtain ⟨r, hr, hspells, -⟩ := exists_row_of_decode hi
    exact h ⟨r, hr, hspells⟩

/-- Settles O3: each of the nine rows by `decode_eq_read_iff`, then disjointness and totality. -/
theorem wordSpellsCommandByMatchAndMask : Obligations.WordSpellsCommandByMatchAndMask := by
  refine ⟨fun w => ?_, decodeRows_disjoint, row_or_no_command⟩
  have row (i : Fin 9) := decode_eq_read_iff (List.getElem_mem (l := decodeRows) i.isLt) w
  exact ⟨row 0, row 1, row 2, row 3, row 4, row 5, row 6, row 7, row 8⟩

end Sys2Proof
end

section
/-! SUPPORT. The packed payload (30_encoding.md rule R81): the length of a padded stream, and a stream cut
into bytes and put together again; the statement settled with them. -/

namespace Sys2Proof.Machine

theorem padToByte_length (s : Bits) : (padToByte s).length = 8 * ((s.length + 7) / 8) := by
  rw [padToByte, List.length_append, zeros_length]
  omega

/-- The first k runs of 8 bits, put together, are the first 8k bits. -/
theorem flatMap_chunks (s : Bits) (k : Nat) :
    (List.range k).flatMap (fun j => (s.drop (8 * j)).take 8) = s.take (8 * k) := by
  induction k with
  | zero => rfl
  | succ k ih =>
    rw [List.range_succ, List.flatMap_append, ih, List.flatMap_singleton, Nat.mul_succ, List.take_add]

/-- The bits of the bytes of a stream of whole bytes are the stream. -/
theorem flatMap_msbFirst_chunks {s : Bits} {k : Nat} (h : s.length = 8 * k) :
    ((List.range k).map fun j => byteOf ((s.drop (8 * j)).take 8)).flatMap msbFirst = s := by
  have chunk : ∀ j ∈ List.range k,
      msbFirst (byteOf ((s.drop (8 * j)).take 8)) = (s.drop (8 * j)).take 8 := by
    intro j hj
    rw [List.mem_range] at hj
    exact msbFirst_byteOf _ (by rw [List.length_take, List.length_drop]; omega)
  rw [List.flatMap_map, List.flatMap_congr chunk, flatMap_chunks, ← h, List.take_length]

theorem payloadOf_length (codes : List Bits) :
    (payloadOf codes).length = (codes.flatten.length + 7) / 8 := by
  rw [payloadOf, List.length_map, List.length_range, padToByte_length, Nat.mul_div_cancel_left _ (by decide)]

theorem flatMap_msbFirst_payloadOf (codes : List Bits) :
    (payloadOf codes).flatMap msbFirst = padToByte codes.flatten := by
  have whole : (padToByte codes.flatten).length = 8 * ((padToByte codes.flatten).length / 8) := by
    rw [padToByte_length]
    omega
  exact flatMap_msbFirst_chunks whole

/-- Settles O25, from the padded stream: its length in bytes and its bits read back from them. -/
theorem payloadIsTheCodesPaddedToBytes : Obligations.PayloadIsTheCodesPaddedToBytes := fun codes =>
  ⟨payloadOf_length codes, flatMap_msbFirst_payloadOf codes⟩

end Sys2Proof.Machine
end

section
/-! SUPPORT. NOP, CLR and LDE (40_control_table.md rules R100 to R102): the state CLR leaves, the word of
an LDE, what one more entry does to the table, and the statements settled with them. -/

namespace Sys2Proof

/-- The word that spells an LDE is the one its operand fields encode to (R73, R74). -/
theorem encode_lde_fields {w : Word} (h : w &&& 0xF800000000000000 = 0x2000000000000000) :
    encode (.lde (symField w) (lenField w) (codeField w)) = w := by
  obtain ⟨op, rsv, sym, len, code, rfl⟩ := join_of_word w
  have hfields : joinFields op rsv sym len code &&& joinFields 0xF 1 0 0 0 = joinFields 2 0 0 0 0 := h
  rw [joinFields_and, joinFields_inj] at hfields
  obtain ⟨hop, hrsv, -⟩ := hfields
  have hop : op = 2 := BitVec.and_allOnes.symm.trans hop
  have hrsv : rsv = 0 := BitVec.and_allOnes.symm.trans hrsv
  rw [encode, assembleFields_eq, symField_join, lenField_join, codeField_join, hop, hrsv]

end Sys2Proof

namespace Sys2Proof.Machine

/-! ### NOP and CLR (R101, R102) -/

theorem exec_nop (s : State) : exec .nop s = .next s := ite_self _

theorem exec_clr (s : State) : exec .clr s = .next (clearState s) := rfl

theorem clearState_eq_reset (s : State) : clearState s = { State.reset with
    nEntries := s.nEntries, input := s.input, pout := s.pout, uout := s.uout } := rfl

@[simp] theorem clearState_clearState (s : State) : clearState (clearState s) = clearState s := rfl

/-! ### One more entry in the table (R24, R25) -/

/-- The entry is loaded at index `TCOUNT`. -/
theorem slotAt_tcount_loadEntry (e : Entry) (s : State) : slotAt (loadEntry e s) (tcount s) = (true, e) := by
  simp [slotAt, tcount]

@[simp] theorem tmaxlen_loadEntry (e : Entry) (s : State) :
    tmaxlen (loadEntry e s) = max (tmaxlen s) e.len.toNat := maxLen_append _ _

/-! ### LDE past its checks (R100) -/

section
variable {s : State} {sym : Sym} {len : CodeLen} {code : CodeWord} (herr : s.err = .noError)
  (hsym : SymLegal sym) (hcode : CodeLegal len code)
include herr hsym hcode

/-- With legal operands the open streams are tested first. -/
theorem execLde_legal : execLde sym len code s =
    if s.pactive = true ∨ s.uactive = true then .next (recorded .eLock (encode (.lde sym len code)) s)
    else if ∃ e ∈ s.table, e.sym = sym ∨ (e.len = len ∧ e.code = code) then
      .next (recorded .eDup (encode (.lde sym len code)) s)
    else if tcount s = s.nEntries then .next (recorded .eFull (encode (.lde sym len code)) s)
    else .next (loadEntry ⟨sym, len, code⟩ s) := by
  rw [execLde_running herr, if_neg (not_not.mpr hsym), if_neg (not_not.mpr hcode)]

variable (hpack : s.pactive = false) (hunpack : s.uactive = false)
include hpack hunpack

/-- With no stream open the table decides. -/
theorem execLde_idle : execLde sym len code s =
    if ∃ e ∈ s.table, e.sym = sym ∨ (e.len = len ∧ e.code = code) then
      .next (recorded .eDup (encode (.lde sym len code)) s)
    else if tcount s = s.nEntries then .next (recorded .eFull (encode (.lde sym len code)) s)
    else .next (loadEntry ⟨sym, len, code⟩ s) := by
  rw [execLde_legal herr hsym hcode, if_neg (by simp [hpack, hunpack])]

/-- With a symbol and a code that are new to the table its capacity decides. -/
theorem execLde_fresh (hfresh : ∀ e ∈ s.table, e.sym ≠ sym ∧ ¬ (e.len = len ∧ e.code = code)) :
    execLde sym len code s =
      if tcount s = s.nEntries then .next (recorded .eFull (encode (.lde sym len code)) s)
      else .next (loadEntry ⟨sym, len, code⟩ s) := by
  have hnot : ¬ ∃ e ∈ s.table, e.sym = sym ∨ (e.len = len ∧ e.code = code) :=
    fun ⟨e, he, hdup⟩ => not_or.mpr (hfresh e he) hdup
  rw [execLde_idle herr hsym hcode hpack hunpack, if_neg hnot]

end

/-! ### The statements -/

/-- Settles O14: the all-zero word is NOP's row, and NOP answers its state, faulted or not. -/
theorem nopChangesNothing : Obligations.NopChangesNothing := fun w s hw => by
  obtain ⟨nop, -⟩ := wordSpellsCommandByMatchAndMask.1 w
  exact ⟨nop.mpr hw, exec_nop s⟩

/-- Settles O13, from the state CLR leaves and from clearing it again. -/
theorem clrClearsAllButTheOutputs : Obligations.ClrClearsAllButTheOutputs := fun w s hw => by
  obtain ⟨-, clr, -⟩ := wordSpellsCommandByMatchAndMask.1 w
  refine ⟨clr.mpr hw, ?_, ?_⟩
  · rw [exec_clr, clearState_eq_reset]
  · simp only [runCommands, exec_clr, clearState_clearState]

/-- Settles O15: each clause reads the answer of LDE past the checks that came before it. -/
theorem ldeLoadsOneEntry : Obligations.LdeLoadsOneEntry := by
  intro w s hw sym len code lde
  obtain ⟨-, -, spells, -⟩ := wordSpellsCommandByMatchAndMask.1 w
  have hword : encode (.lde sym len code) = w := encode_lde_fields hw
  have hexec : exec lde s = execLde sym len code s := rfl
  rw [hexec]
  refine ⟨spells.mpr hw, ?symbol, ?length, ?lock, ?duplicate, ?full, ?loads⟩
  case symbol =>
    intro herr hsym
    rw [execLde_running herr, if_pos hsym, hword]
  case length =>
    intro herr hsym hcode
    rw [execLde_running herr, if_neg (not_not.mpr hsym), if_pos hcode, hword]
  case lock =>
    intro herr hsym hcode hopen
    rw [execLde_legal herr hsym hcode, if_pos hopen, hword]
  case duplicate =>
    intro herr hsym hcode hpack hunpack hdup
    rw [execLde_idle herr hsym hcode hpack hunpack, if_pos hdup, hword]
  case full =>
    intro herr hsym hcode hpack hunpack hfresh hfull
    rw [execLde_fresh herr hsym hcode hpack hunpack hfresh, if_pos hfull, hword]
  case loads =>
    intro herr hsym hcode hpack hunpack hfresh hroom
    rw [execLde_fresh herr hsym hcode hpack hunpack hfresh, if_neg hroom]
    exact ⟨_, rfl, rfl, slotAt_tcount_loadEntry _ s, tcount_loadEntry _ s, tmaxlen_loadEntry _ s⟩

end Sys2Proof.Machine
end

section
/-! SUPPORT. The packer's PKC and PKS (41_packer.md rules R110 to R112) and a whole pack stream (rule R115):
the words of the two commands, what packing answers, bytes told by their bits, the run of a stream closed by
PKF, and the statements settled with them. -/

namespace Sys2Proof

/-- A word whose `op` and `rsv` a mask keeps is its operation number with its operand fields, and each
operand field shows under the mask (R71, R74). -/
theorem word_of_masked {w : Word} {op : BitVec 4} {msym : Sym} {mlen : CodeLen} {mcode : CodeWord}
    (h : w &&& joinFields 0xF 1 msym mlen mcode = joinFields op 0 0 0 0) :
    w = assembleFields op (symField w) (lenField w) (codeField w) ∧
      symField w &&& msym = 0 ∧ lenField w &&& mlen = 0 ∧ codeField w &&& mcode = 0 := by
  obtain ⟨op', rsv, sym, len, code, rfl⟩ := join_of_word w
  rw [joinFields_and, joinFields_inj] at h
  obtain ⟨hop, hrsv, hfields⟩ := h
  have hop : op' = op := BitVec.and_allOnes.symm.trans hop
  have hrsv : rsv = 0 := BitVec.and_allOnes.symm.trans hrsv
  rw [symField_join, lenField_join, codeField_join, assembleFields_eq, hop, hrsv]
  exact ⟨rfl, hfields⟩

/-- The word that spells a PKC is the one its operand fields encode to (R73, R74). -/
theorem encode_pkc_fields {w : Word} (h : w &&& 0xFFFFFFC000000000 = 0x3000000000000000) :
    encode (.pkc (lenField w) (codeField w)) = w := by
  obtain ⟨hw, hsym, -⟩ := word_of_masked (op := 3) (msym := 0x1FFFFF) (mlen := 0) (mcode := 0) h
  have hsym : symField w = 0 := BitVec.and_allOnes.symm.trans hsym
  rw [hsym] at hw
  exact hw.symm

/-- The word that spells a PKS is the one its operand field encodes to (R73, R74). -/
theorem encode_pks_fields {w : Word} (h : w &&& 0xF800003FFFFFFFFF = 0x4000000000000000) :
    encode (.pks (symField w)) = w := by
  obtain ⟨hw, -, hlen, hcode⟩ :=
    word_of_masked (op := 4) (msym := 0) (mlen := 0x3F) (mcode := 0xFFFFFFFF) h
  have hlen : lenField w = 0 := BitVec.and_allOnes.symm.trans hlen
  have hcode : codeField w = 0 := BitVec.and_allOnes.symm.trans hcode
  rw [hlen, hcode] at hw
  exact hw.symm

end Sys2Proof

namespace Sys2Proof.Machine

/-! ### One packing command (R110 to R112) -/

theorem execPkc_legal {s : State} {len : CodeLen} {code : CodeWord} (herr : s.err = .noError)
    (hcode : CodeLegal len code) :
    execPkc len code s = packBits (encode (.pkc len code)) (codeString len code) s := by
  rw [execPkc_running herr, if_neg (not_not.mpr hcode)]

/-- PKC of a legal code and PKS of a loaded symbol pack their code (R110, R111). -/
theorem exec_of_packs {s : State} {i : Instr} {bits : Bits} (h : Packs s.table i bits)
    (hdistinct : s.table.Pairwise fun a b => a.sym ≠ b.sym) (herr : s.err = .noError) :
    exec i s = packBits (encode i) bits s := by
  cases h with
  | pkc len code hcode => exact execPkc_legal herr hcode
  | pks e he hsym =>
    rw [exec, execPks_running herr, if_neg (not_not.mpr hsym), lookup_of_mem hdistinct he]

/-- The command word shows only in a fault (R112). -/
theorem packBits_word_irrelevant {s : State} {bits : Bits} (w w' : Word)
    (h : packBase s + bits.length ≤ 2 ^ 32 - 1) : packBits w bits s = packBits w' bits s :=
  (if_neg (Nat.not_lt.mpr h)).trans (if_neg (Nat.not_lt.mpr h)).symm

/-- How many whole bytes leave and how many bits stay pending. -/
theorem lengths_of_bytes_append {bytes : List Byte} {pending bits : Bits}
    (h : bytes.flatMap msbFirst ++ pending = bits) (hpending : pending.length < 8) :
    bytes.length = bits.length / 8 ∧ pending.length = bits.length % 8 := by
  have hlen : 8 * bytes.length + pending.length = bits.length := by
    rw [← h, List.length_append, flatMap_msbFirst_length]
  omega

/-- Settles O22: the code is checked, then packed; the bits that leave and stay fix their numbers. -/
theorem pkcPacksTheCode : Obligations.PkcPacksTheCode := by
  intro w s hw len code pkc
  obtain ⟨-, -, -, spells, -⟩ := wordSpellsCommandByMatchAndMask.1 w
  have hword : encode pkc = w := encode_pkc_fields hw
  have hlen : (codeString len code).length = len.toNat := codeString_length len code
  have hexec : exec pkc s = execPkc len code s := rfl
  rw [hexec]
  refine ⟨spells.mpr hw, ?length, ?overflow, ?packs⟩
  case length =>
    intro herr hcode
    rw [execPkc_running herr, if_pos hcode, hword]
  case overflow =>
    intro herr hcode hbits
    rw [execPkc_legal herr hcode, packBits_overflow (by rwa [hlen]), hword]
  case packs =>
    intro herr hcode hbits
    rw [execPkc_legal herr hcode]
    rw [← hlen] at hbits ⊢
    obtain ⟨bytes, pending, hpack, hstream, hpending⟩ := packBits_packs (w := encode pkc) hbits
    obtain ⟨hbytes, hrest⟩ := lengths_of_bytes_append hstream hpending
    rw [List.length_append] at hbytes hrest
    exact ⟨bytes, pending, hpack, hbytes, hrest, hstream⟩

/-- Settles O23: past the symbol's check and its lookup PKS packs the entry's code, as PKC does. -/
theorem pksPacksTheSymbolsCode : Obligations.PksPacksTheSymbolsCode := by
  intro w s hw sym pks
  obtain ⟨-, -, -, -, spells, -⟩ := wordSpellsCommandByMatchAndMask.1 w
  have hword : encode pks = w := encode_pks_fields hw
  have packs {e : Entry} (he : e ∈ s.table) (hsym : e.sym = sym) (hlegal : SymLegal sym) :
      Packs s.table (.pks sym) e.string := hsym ▸ Packs.pks e he (hsym ▸ hlegal)
  refine ⟨spells.mpr hw, ?symbol, ?missing, ?overflow, ?packs⟩
  case symbol =>
    intro herr hsym
    rw [exec, execPks_running herr, if_pos hsym, hword]
  case missing =>
    intro herr hsym hmiss
    rw [exec, execPks_running herr, if_neg (not_not.mpr hsym), lookup_none_iff.mpr hmiss, hword]
  case overflow =>
    intro e he hdistinct hsym hlegal _ herr hbits
    rw [exec_of_packs (packs he hsym hlegal) hdistinct herr,
      packBits_overflow (by rwa [codeString_length]), hword]
  case packs =>
    intro e he hdistinct hsym hlegal hcode herr hbits
    rw [← codeString_length e.len e.code] at hbits
    obtain ⟨bytes, pending, hpack, hstream, hpending⟩ := packBits_packs (w := encode pks) hbits
    rw [codeString_length] at hpack
    rw [exec_of_packs (packs he hsym hlegal) hdistinct herr,
      exec_of_packs (.pkc e.len e.code hcode) hdistinct herr]
    exact ⟨packBits_word_irrelevant _ _ hbits, bytes, pending, hpack, hpending, hstream⟩

/-! ### Bytes are told by their bits (R16) -/

theorem byteOf_msbFirst (b : Byte) : byteOf (msbFirst b) = b := by
  rw [← bitsOfByte_eq, bitsOfByte, byteOf, valOf_bitsOf, Nat.mod_eq_of_lt b.isLt, BitVec.ofNat_toNat,
    BitVec.setWidth_eq]

theorem flatMap_msbFirst_inj {a b : List Byte} (h : a.flatMap msbFirst = b.flatMap msbFirst) : a = b := by
  induction a generalizing b with
  | nil =>
    have := congrArg List.length h
    rw [flatMap_msbFirst_length, flatMap_msbFirst_length, List.length_nil] at this
    exact (List.length_eq_zero_iff.mp (by omega)).symm
  | cons x a ih =>
    cases b with
    | nil => simpa using congrArg List.length h
    | cons y b =>
      rw [List.flatMap_cons, List.flatMap_cons] at h
      obtain ⟨hhead, htail⟩ := List.append_inj h (by simp)
      have hbyte : x = y := by rw [← byteOf_msbFirst x, hhead, byteOf_msbFirst]
      rw [hbyte, ih htail]

/-! ### The packed payload of a stream in parts (R81, R112) -/

/-- The payload is the one list of bytes with the padded stream's bits. -/
theorem eq_payloadOf_of_bits {bytes : List Byte} {codes : List Bits}
    (h : bytes.flatMap msbFirst = padToByte codes.flatten) : bytes = payloadOf codes :=
  flatMap_msbFirst_inj (h.trans (flatMap_msbFirst_payloadOf codes).symm)

/-- Whole bytes in front of a stream do not change its padding. -/
theorem padToByte_bytes_append (bytes : List Byte) (s : Bits) :
    padToByte (bytes.flatMap msbFirst ++ s) = bytes.flatMap msbFirst ++ padToByte s := by
  have hmod : (bytes.flatMap msbFirst ++ s).length % 8 = s.length % 8 := by
    rw [List.length_append, flatMap_msbFirst_length, Nat.mul_add_mod]
  rw [padToByte, padToByte, hmod, List.append_assoc]

/-- The bytes that filled, then the payload of what is pending and what comes, are the payload of all. -/
theorem append_payloadOf_pending {bytes : List Byte} {pending pacc code : Bits} (codes : List Bits)
    (h : bytes.flatMap msbFirst ++ pending = pacc ++ code) :
    bytes ++ payloadOf (pending :: codes) = payloadOf (pacc :: code :: codes) := by
  apply eq_payloadOf_of_bits
  rw [List.flatMap_append, flatMap_msbFirst_payloadOf, ← padToByte_bytes_append]
  simp only [List.flatten_cons, ← List.append_assoc, h]

/-- What PKF emits is the payload of the pending bits (R114). -/
theorem lastByte_eq_payloadOf {pacc : Bits} (h : pacc.length < 8) : lastByte pacc = payloadOf [pacc] := by
  apply eq_payloadOf_of_bits
  rw [List.flatten_singleton]
  by_cases hnil : pacc = []
  · subst hnil
    rfl
  · have hpos : 0 < pacc.length := List.length_pos_iff.mpr hnil
    have hpad : (8 - pacc.length % 8) % 8 = 8 - pacc.length := by omega
    rw [lastByte_of_pending hnil, List.flatMap_singleton, msbFirst_pendingByte h.le, padToByte, hpad]

/-! ### A pack stream (R115) -/

theorem runCommands_cons {i : Instr} {s t : State} (h : exec i s = .next t) (rest : List Instr) :
    runCommands (i :: rest) s = runCommands rest t := by
  rw [runCommands, h]

/-- The next command of the stream counts on from where packing left it (R112). -/
theorem packBase_packed (s : State) {n : Nat} (h : n ≤ 2 ^ 32 - 1) {pacc : Bits} {pout : List Byte} :
    packBase { s with pbits := BitVec.ofNat 32 n, pactive := true, pacc := pacc, pout := pout } = n :=
  Nat.mod_eq_of_lt (by omega)

/-- Packing commands closed by PKF emit the payload of the bits that were pending and of their codes, from
an open stream, or from an idle packer if there is a command that opens one. -/
theorem runCommands_packs_pkf {table : List Entry} (inv : TableInv table) {commands : List Instr}
    {codes : List Bits} (h : List.Forall₂ (Packs table) commands codes) {s : State} (htable : s.table = table)
    (herr : s.err = .noError) (hopen : s.pactive = true ∨ commands ≠ []) (hpending : s.pacc.length < 8)
    (hbits : packBase s + codes.flatten.length ≤ 2 ^ 32 - 1) :
    runCommands (commands ++ [.pkf]) s = .next { s with
      pacc := [], pactive := false, pbits := BitVec.ofNat 32 (packBase s + codes.flatten.length),
      pout := s.pout ++ payloadOf (s.pacc :: codes) } := by
  induction h generalizing s with
  | nil =>
    have hactive : s.pactive = true := hopen.resolve_right fun hne => hne rfl
    have hexec : exec .pkf s = .next _ := execPkf_running herr
    rw [List.nil_append, runCommands_cons hexec, runCommands, if_pos hactive,
      lastByte_eq_payloadOf hpending]
    simp [packBase, hactive]
  | @cons i code rest codes hpacks _ ih =>
    rw [List.flatten_cons, List.length_append] at hbits
    subst htable
    obtain ⟨bytes, pending, hpack, hstream, hlen⟩ :=
      packBits_packs (s := s) (w := encode i) (bits := code) (by omega)
    rw [List.cons_append, runCommands_cons ((exec_of_packs hpacks inv.symsDistinct herr).trans hpack)]
    have hcounted : packBase s + code.length ≤ 2 ^ 32 - 1 := by omega
    refine Eq.trans (ih rfl herr (.inl rfl) hlen ?room) ?emitted
    case room =>
      rw [packBase_packed s hcounted]
      omega
    case emitted =>
      rw [packBase_packed s hcounted, List.append_assoc, append_payloadOf_pending codes hstream,
        List.flatten_cons, List.length_append, Nat.add_assoc]

/-- Settles O26: the run of the stream from an idle packer, nothing counted and nothing pending. -/
theorem packStreamEmitsThePayload : Obligations.PackStreamEmitsThePayload := by
  intro commands codes s h hne inv herr hidle hpacc hbits
  have hbase : packBase s = 0 := if_neg (by simp [hidle])
  have hrun := runCommands_packs_pkf inv h rfl herr (.inr hne) (by simp [hpacc]) (by rwa [hbase, Nat.zero_add])
  refine ⟨?_, payloadOf_length codes, ?_⟩
  · have hpayload : payloadOf (s.pacc :: codes) = payloadOf codes := by
      rw [hpacc]
      rfl
    rw [hrun, hbase, Nat.zero_add, hpayload, ← hidle, ← hpacc]
  · rw [payloadOf_length]
    omega

end Sys2Proof.Machine
end

section
/-! SUPPORT. A whole unpack stream (42_unpacker.md rules R121 to R128): decoding a stream of bits in parts,
`DecodeAll` as the decoding that decides every position, the run of a stream closed by UPE, and the
statement settled with them. -/

namespace Sys2Proof.Machine

/-! ### A decided position stays as it is when more bits arrive (R123) -/

section
variable {table : List Entry} {window : Bits} (hdecided : maxLen table ≤ window.length) (more : Bits)
include hdecided

theorem string_prefix_append_iff {e : Entry} (he : e ∈ table) :
    e.string <+: window ++ more ↔ e.string <+: window := by
  refine ⟨fun h => ?_, fun h => h.trans (List.prefix_append window more)⟩
  refine List.prefix_of_prefix_length_le h (List.prefix_append window more) ?_
  rw [codeString_length]
  exact (le_maxLen he).trans hdecided

theorem LongestMatch.append {e : Entry} (h : LongestMatch table window e) :
    LongestMatch table (window ++ more) e := by
  obtain ⟨hmem, hpre, hmax⟩ := h
  refine ⟨hmem, (string_prefix_append_iff hdecided more hmem).mpr hpre, fun e' he' hpre' => ?_⟩
  exact hmax e' he' ((string_prefix_append_iff hdecided more he').mp hpre')

end

/-! ### Decoding in parts (R123, R128) -/

section
variable {table : List Entry} {need need' : Nat} {window left : Bits} {out : List Sym} {stopped : Bool}

/-- A symbol decoded from decided bits is decoded from a longer stream too. -/
theorem DecodesTo.take_append (hneed : maxLen table ≤ need) (hle : need' ≤ need) {e : Entry}
    {rest more : Bits} (hne : window ≠ []) (hlen : need ≤ window.length) (hmatch : LongestMatch table window e)
    (hsplit : window = e.string ++ rest) (h : DecodesTo table need' (rest ++ more) out left stopped) :
    DecodesTo table need' (window ++ more) (e.sym :: out) left stopped := by
  refine .take e _ (rest ++ more) left out stopped (by simp [hne]) ?_
    (hmatch.append (hneed.trans hlen) more) (by rw [hsplit, List.append_assoc]) h
  rw [List.length_append]
  omega

/-- Where a decoding held its bits back, it goes on with them and what arrives behind them. -/
theorem DecodesTo.resume {out' : List Sym} {left' more : Bits} {stopped' : Bool}
    (h : DecodesTo table need window out left false) (hneed : maxLen table ≤ need) (hle : need' ≤ need)
    (hrest : DecodesTo table need' (left ++ more) out' left' stopped') :
    DecodesTo table need' (window ++ more) (out ++ out') left' stopped' := by
  generalize hs : false = stopped at h
  induction h with
  | held window _ => exact hrest
  | stop => cases hs
  | take e window rest left out stopped hne hlen hmatch hsplit _ ih =>
    exact (ih hrest hs).take_append hneed hle hne hlen hmatch hsplit

/-- Where a decoding stopped it stays stopped, and what arrives joins the bits that no code matches. -/
theorem DecodesTo.stay_stopped {more : Bits} (h : DecodesTo table need window out left true)
    (hneed : maxLen table ≤ need) (hle : need' ≤ need) :
    DecodesTo table need' (window ++ more) out (left ++ more) true := by
  generalize hs : true = stopped at h
  induction h with
  | held => cases hs
  | stop window hne hlen hnone =>
    refine .stop _ (by simp [hne]) (by rw [List.length_append]; omega) fun e he => ?_
    exact (string_prefix_append_iff (hneed.trans hlen) more he).not.mpr (hnone e he)
  | take e window rest left out stopped hne hlen hmatch hsplit _ ih =>
    exact (ih hs).take_append hneed hle hne hlen hmatch hsplit

/-- A decoding that decides every position leaves bits exactly when it stopped. -/
theorem DecodesTo.stopped_eq (h : DecodesTo table 0 window out left stopped) : stopped = !left.isEmpty := by
  generalize hn : 0 = need at h
  induction h with
  | held window h =>
    subst hn
    simp [h.resolve_right (Nat.not_lt_zero _)]
  | stop window hne => simp [hne]
  | take _ _ _ _ _ _ _ _ _ _ _ ih => exact ih

/-! ### `DecodeAll` (R128) -/

theorem matchLongest_nil (inv : TableInv table) : matchLongest table [] = none := by
  refine matchLongest_none_iff.mpr fun e he hpre => ?_
  obtain ⟨hpos, -⟩ := inv.codes e he
  have := hpre.length_le
  rw [codeString_length, List.length_nil] at this
  omega

theorem decodeAllLoop_of_none {buf : Bits} (h : matchLongest table buf = none) (fuel : Nat) :
    decodeAllLoop table fuel buf = ([], buf) := by
  cases fuel with
  | zero => rfl
  | succ fuel => rw [decodeAllLoop, h]

theorem DecodesTo.decodeAllLoop_eq (inv : TableInv table) (h : DecodesTo table 0 window out left stopped)
    {fuel : Nat} (hfuel : window.length ≤ fuel) : decodeAllLoop table fuel window = (out, left) := by
  generalize hn : 0 = need at h
  induction h generalizing fuel with
  | held window h =>
    subst hn
    obtain rfl := h.resolve_right (Nat.not_lt_zero _)
    exact decodeAllLoop_of_none (matchLongest_nil inv) fuel
  | stop window _ _ hnone => exact decodeAllLoop_of_none (matchLongest_none_iff.mpr hnone) fuel
  | take e window rest left out stopped _ _ hmatch hsplit _ ih =>
    obtain ⟨hpos, -⟩ := inv.codes e hmatch.1
    have hlen : window.length = e.len.toNat + rest.length := by
      rw [hsplit, List.length_append, codeString_length]
    have hrest : window.drop e.len.toNat = rest := by
      rw [hsplit, List.drop_left' (codeString_length _ _)]
    obtain ⟨fuel, rfl⟩ : ∃ k, fuel = k + 1 := ⟨fuel - 1, by omega⟩
    rw [decodeAllLoop, (matchLongest_some_iff inv).mpr hmatch]
    have hmore := ih (fuel := fuel) (by omega)
    simp only [hrest, hmore]

/-- `DecodeAll` is the decoding that decides every position. -/
theorem DecodesTo.decodeAll_eq (inv : TableInv table) (h : DecodesTo table 0 window out left stopped) :
    decodeAll table window = (out, left) :=
  h.decodeAllLoop_eq inv le_rfl

end

/-! ### The bits a stream accepts (R121) -/

/-- Of the next bits of a payload, those that are accepted behind `n` accepted ones. -/
def acceptedOf (s : State) (n : Nat) (bits : Bits) : Bits :=
  if s.limen then bits.take (s.ulim.toNat - n) else bits

theorem acceptedOf_append (s : State) (n : Nat) (a b : Bits) :
    acceptedOf s n (a ++ b) = acceptedOf s n a ++ acceptedOf s (n + (acceptedOf s n a).length) b := by
  unfold acceptedOf
  split
  · rw [List.take_append, List.length_take]
    congr 2
    omega
  · rfl

theorem acceptedOf_length_le (s : State) (n : Nat) (bits : Bits) :
    (acceptedOf s n bits).length ≤ bits.length := by
  unfold acceptedOf
  split
  · exact List.length_take_le' _ _
  · exact le_rfl

/-- UPB accepts of its byte what the limit lets in behind the bits of the stream. -/
theorem take_unpackTake_eq (s : State) (byte : Byte) :
    (msbFirst byte).take (unpackTake s) = acceptedOf s (unpackBase s) (msbFirst byte) := by
  unfold acceptedOf
  split
  · rw [List.take_eq_take_iff, msbFirst_length]
    omega
  · exact List.take_of_length_le (msbFirst_length byte).le

theorem unpackTake_eq_length (s : State) (byte : Byte) :
    unpackTake s = (acceptedOf s (unpackBase s) (msbFirst byte)).length := by
  rw [← take_unpackTake_eq, List.length_take, msbFirst_length]
  unfold unpackTake
  split <;> omega

/-- UPB of an unfaulted block whose counter has room for the accepted bits. -/
theorem exec_upb_of_room {s : State} (herr : s.err = .noError) {byte : Byte} {n : Nat} {bits : Bits}
    (hbase : unpackBase s = n) (hbits : bits = acceptedOf s n (msbFirst byte))
    (hroom : n + bits.length ≤ 2 ^ 32 - 1) :
    exec (.upb byte) s = .next (acceptBits bits { s with
      uactive := true, uused := if s.uactive then s.uused else 0,
      ustop := if s.uactive then s.ustop else false, uin := BitVec.ofNat 32 (n + bits.length) }) := by
  subst hbase
  rw [exec, execUpb_running herr, take_unpackTake_eq, unpackTake_eq_length s byte, ← hbits,
    if_neg (Nat.not_lt.mpr hroom)]

/-! ### The state of an open stream (R121 to R124) -/

/-- The block `s` with a stream open that has accepted the bits `accepted`, whose decoding so far emitted
`out` and left `left`: in the window, or nowhere when it stopped. -/
def midStream (s : State) (accepted : Bits) (out : List Sym) (left : Bits) (stopped : Bool) : State :=
  { s with
    ubuf := if stopped then [] else left, uactive := true, ustop := stopped,
    uin := BitVec.ofNat 32 accepted.length, uused := BitVec.ofNat 32 (accepted.length - left.length),
    uout := s.uout ++ out }

/-- The same stream with the bits `bits` accepted and not yet decoded, or discarded after a stop (R124). -/
def withAccepted (s : State) (accepted : Bits) (out : List Sym) (left : Bits) (stopped : Bool) (bits : Bits) :
    State :=
  { midStream s accepted out left stopped with
    ubuf := if stopped then [] else left ++ bits, uin := BitVec.ofNat 32 (accepted ++ bits).length }

theorem acceptBits_eq_drain (bits : Bits) (s : State) :
    acceptBits bits s = drain false { s with ubuf := if s.ustop then s.ubuf else s.ubuf ++ bits } := by
  unfold acceptBits
  split
  · rename_i h
    exact (drain_stopped false h).symm
  · rfl

section
variable {s : State} {accepted left : Bits} {out : List Sym} {stopped : Bool} (inv : TableInv s.table)
  (h : DecodesTo s.table (tmaxlen s) accepted out left stopped)
include inv h

/-- `Drain` goes on with the decoding of the stream: up to what is decided, or to the end. -/
theorem drain_withAccepted (final : Bool) (bits : Bits) :
    ∃ out' left' stopped', DecodesTo s.table (drainNeed final s) (accepted ++ bits) out' left' stopped' ∧
      drain final (withAccepted s accepted out left stopped bits) =
        midStream s (accepted ++ bits) out' left' stopped' := by
  have hle : drainNeed final s ≤ tmaxlen s := by cases final <;> simp [drainNeed]
  have hfirst := h.left_length
  cases stopped with
  | true =>
    refine ⟨out, left ++ bits, true, h.stay_stopped le_rfl hle, (drain_stopped final rfl).trans ?_⟩
    simp only [withAccepted, midStream, List.length_append, Nat.add_sub_add_right, if_true]
  | false =>
    obtain ⟨out', left', stopped', hdec, hdrain⟩ := drain_spec final
      (withAccepted s accepted out left false bits) (fun e he => (inv.codes e he).1) rfl
    refine ⟨out ++ out', left', stopped', h.resume le_rfl hle hdec, hdrain.trans ?_⟩
    have hsecond : left'.length ≤ (left ++ bits).length := hdec.left_length
    have hused : (accepted.length - left.length) + ((left ++ bits).length - left'.length) =
        (accepted ++ bits).length - left'.length := by
      rw [List.length_append] at hsecond ⊢
      rw [List.length_append]
      omega
    simp only [withAccepted, midStream, ← BitVec.ofNat_add, ← hused, List.append_assoc, Bool.false_eq_true,
      if_false]

/-- UPB of an open stream takes in the accepted bits of its byte and decodes what is decided. -/
theorem exec_upb_midStream (herr : s.err = .noError) {byte : Byte} {bits : Bits}
    (hbits : bits = acceptedOf s accepted.length (msbFirst byte))
    (hroom : (accepted ++ bits).length ≤ 2 ^ 32 - 1) :
    ∃ out' left' stopped', DecodesTo s.table (tmaxlen s) (accepted ++ bits) out' left' stopped' ∧
      exec (.upb byte) (midStream s accepted out left stopped) =
        .next (midStream s (accepted ++ bits) out' left' stopped') := by
  obtain ⟨out', left', stopped', hdec, hdrain⟩ := drain_withAccepted inv h false bits
  refine ⟨out', left', stopped', hdec, ?_⟩
  rw [List.length_append] at hroom
  have hbase : unpackBase (midStream s accepted out left stopped) = accepted.length :=
    Nat.mod_eq_of_lt (by omega)
  have hexec := exec_upb_of_room (s := midStream s accepted out left stopped) herr hbase hbits hroom
  rw [hexec, acceptBits_eq_drain, ← hdrain, withAccepted, List.length_append]
  cases stopped <;> rfl

/-- UPE of an open stream decodes its accepted bits to their end. -/
theorem exec_upe_midStream (herr : s.err = .noError) :
    ∃ out' left' stopped', DecodesTo s.table 0 accepted out' left' stopped' ∧
      exec .upe (midStream s accepted out left stopped) =
        .next { midStream s accepted out' left' stopped' with uactive := false } := by
  obtain ⟨out', left', stopped', hdec, hdrain⟩ := drain_withAccepted inv h true []
  have hsame : withAccepted s accepted out left stopped [] = midStream s accepted out left stopped := by
    simp [withAccepted, midStream]
  rw [hsame, List.append_nil] at hdrain
  rw [List.append_nil] at hdec
  refine ⟨out', left', stopped', hdec, ?_⟩
  rw [exec, execUpe_running (s := midStream s accepted out left stopped) herr, hdrain]
  rfl

end

/-- The state in which UPE leaves the block `s` after a stream that accepted the bits `accepted` (R128). -/
def closedStream (s : State) (accepted : Bits) : State :=
  { s with
    ubuf := [], uactive := false, ustop := !(decodeAll s.table accepted).2.isEmpty,
    uin := BitVec.ofNat 32 accepted.length,
    uused := BitVec.ofNat 32 (accepted.length - (decodeAll s.table accepted).2.length),
    uout := s.uout ++ (decodeAll s.table accepted).1 }

theorem midStream_closed {s : State} {accepted left : Bits} {out : List Sym} {stopped : Bool}
    (inv : TableInv s.table) (h : DecodesTo s.table 0 accepted out left stopped) :
    { midStream s accepted out left stopped with uactive := false } = closedStream s accepted := by
  have hwindow : (if !left.isEmpty then [] else left) = [] := by cases left <;> rfl
  simp only [midStream, closedStream, h.decodeAll_eq inv, h.stopped_eq, hwindow]

/-! ### A stream closed by UPE (R128) -/

/-- From an open stream: UPB of any bytes, then UPE, decodes all bits the stream has accepted. -/
theorem runCommands_upbs_upe {s : State} (inv : TableInv s.table) (herr : s.err = .noError)
    (bytes : List Byte) {accepted left : Bits} {out : List Sym} {stopped : Bool}
    (h : DecodesTo s.table (tmaxlen s) accepted out left stopped)
    (hroom : (accepted ++ acceptedOf s accepted.length (bytes.flatMap msbFirst)).length ≤ 2 ^ 32 - 1) :
    runCommands (bytes.map .upb ++ [.upe]) (midStream s accepted out left stopped) =
      .next (closedStream s (accepted ++ acceptedOf s accepted.length (bytes.flatMap msbFirst))) := by
  induction bytes generalizing accepted out left stopped with
  | nil =>
    obtain ⟨out', left', stopped', hdec, hexec⟩ := exec_upe_midStream inv h herr
    have hnone : acceptedOf s accepted.length [] = [] := by simp [acceptedOf]
    rw [List.map_nil, List.nil_append, runCommands_cons hexec, runCommands, midStream_closed inv hdec,
      List.flatMap_nil, hnone, List.append_nil]
  | cons byte bytes ih =>
    rw [List.flatMap_cons, acceptedOf_append, ← List.append_assoc, ← List.length_append] at hroom ⊢
    obtain ⟨out', left', stopped', hdec, hexec⟩ := exec_upb_midStream inv h herr rfl
      ((List.prefix_append _ _).length_le.trans hroom)
    rw [List.map_cons, List.cons_append, runCommands_cons hexec]
    exact ih hdec hroom

/-- The first UPB finds an idle unpacker as if a stream with no bits were open (R121). -/
theorem exec_upb_idle {s : State} (herr : s.err = .noError) (hidle : s.uactive = false)
    (hempty : s.ubuf = []) (byte : Byte) :
    exec (.upb byte) s = exec (.upb byte) (midStream s [] [] [] false) := by
  have hbase : unpackBase s = 0 := if_neg (by simp [hidle])
  have hroom : 0 + (acceptedOf s 0 (msbFirst byte)).length ≤ 2 ^ 32 - 1 := by
    have := acceptedOf_length_le s 0 (msbFirst byte)
    rw [msbFirst_length] at this
    omega
  rw [exec_upb_of_room herr hbase rfl hroom,
    exec_upb_of_room (s := midStream s [] [] [] false) (n := 0) herr rfl rfl hroom]
  simp [midStream, hidle, hempty, acceptedOf]

/-- Settles O32: the first UPB opens the stream, and the run of an open stream decodes what it accepts. -/
theorem unpackStreamDecodesTheWholePayload : Obligations.UnpackStreamDecodesTheWholePayload := by
  intro bytes s hne inv herr hidle hlimit all accepted decoded
  have hroom : accepted.length ≤ 2 ^ 32 - 1 := by
    cases hon : s.limen with
    | true =>
      have : accepted.length ≤ s.ulim.toNat := by simp [accepted, hon]
      omega
    | false =>
      calc
        accepted.length ≤ all.length := acceptedOf_length_le s 0 all
        _ = 8 * bytes.length := flatMap_msbFirst_length bytes
        _ ≤ 2 ^ 32 - 1 := hlimit hon
  have hrun := runCommands_upbs_upe inv.table herr bytes (.held [] (.inl rfl)) hroom
  cases bytes with
  | nil => exact absurd rfl hne
  | cons byte bytes =>
    rw [List.map_cons, List.cons_append, runCommands, exec_upb_idle herr hidle (inv.unpack.idle hidle)]
    exact hrun

end Sys2Proof.Machine
end

section
/-! SUPPORT. Faults (60_exceptions.md rules R162, R166, R167, R173): which words spell no command, the word of
a decoded command, what a faulted block does and what a fault records, and the statements settled with
them. -/

namespace Sys2Proof

/-! ### Masks as ranges of bits -/

/-- The mask of the `n` bits from bit `lo` on. -/
def rangeMask (m lo n : Nat) : BitVec m := (BitVec.allOnes n).zeroExtend m <<< lo

theorem getLsbD_rangeMask {m lo n : Nat} (h : lo + n ≤ m) (j : Nat) :
    (rangeMask m lo n).getLsbD j = decide (lo ≤ j ∧ j < lo + n) := by
  rw [Bool.eq_iff_iff]
  simp only [rangeMask, BitVec.getLsbD_shiftLeft, BitVec.getLsbD_setWidth, BitVec.getLsbD_allOnes,
    Bool.and_eq_true, Bool.not_eq_true', decide_eq_true_eq, decide_eq_false_iff_not]
  omega

/-- The masked bits are 0 exactly when the field they make is. -/
theorem and_rangeMask_eq_zero_iff {m lo n : Nat} (v : BitVec m) (h : lo + n ≤ m) :
    v &&& rangeMask m lo n = 0 ↔ v.extractLsb' lo n = 0 := by
  constructor
  · intro hmasked
    refine BitVec.eq_of_getLsbD_eq fun i hi => ?_
    have hbit := congrArg (·.getLsbD (lo + i)) hmasked
    simpa [getLsbD_rangeMask h, hi] using hbit
  · intro hfield
    refine BitVec.eq_of_getLsbD_eq fun j hj => ?_
    rw [BitVec.getLsbD_and, getLsbD_rangeMask h]
    by_cases hin : lo ≤ j ∧ j < lo + n
    · have hbit := congrArg (·.getLsbD (j - lo)) hfield
      simpa [hin, show j - lo < n by omega] using hbit
    · simp [hin]

/-- A mask of two disjoint parts, the second of which must show 0, tests them one by one. -/
theorem and_or_eq_iff {w a b pattern : Word} (ha : pattern &&& a = pattern) (hab : a &&& b = 0) :
    w &&& (a ||| b) = pattern ↔ w &&& a = pattern ∧ w &&& b = 0 := by
  have keepsA : (a ||| b) &&& a = a := by ext i; simp +contextual
  have keepsB : (a ||| b) &&& b = b := by ext i; simp +contextual
  constructor
  · intro h
    have hwa : w &&& a = pattern := by rw [← keepsA, ← BitVec.and_assoc, h, ha]
    have hwb : w &&& b = pattern &&& b := by rw [← h, BitVec.and_assoc, keepsB]
    refine ⟨hwa, ?_⟩
    rw [hwb, ← ha, BitVec.and_assoc, hab]
    exact BitVec.and_zero
  · rintro ⟨h, hb⟩
    rw [BitVec.and_or_distrib_left, h, hb]
    exact BitVec.or_zero

/-! ### The words that spell no command (R73 to R75, R162) -/

/-- What R73 asks of the words of one command: its operation number, and its must-be-zero bits, `n` of them
from bit `lo` on. -/
structure WordFormat where
  op : BitVec 4
  lo : Nat
  n : Nat

/-- The nine commands' formats, in the order of R72. -/
def formats : List WordFormat :=
  [⟨0, 0, 59⟩, ⟨1, 0, 59⟩, ⟨2, 0, 0⟩, ⟨3, 38, 21⟩, ⟨4, 0, 38⟩, ⟨5, 0, 59⟩, ⟨6, 8, 51⟩, ⟨7, 0, 59⟩,
    ⟨8, 33, 26⟩]

def WordFormat.Fits (f : WordFormat) (w : Word) : Prop :=
  opField w = f.op ∧ rsvField w = false ∧ w.extractLsb' f.lo f.n = 0

/-- The bits of `op` and `rsv`, which every format fixes. -/
def headMask : Word := joinFields 0xF 1 0 0 0

def WordFormat.pattern (f : WordFormat) : Word := joinFields f.op 0 0 0 0

def WordFormat.mask (f : WordFormat) : Word := headMask ||| rangeMask 64 f.lo f.n

theorem decodeRows_eq_formats :
    decodeRows.map (fun r => (r.pattern, r.mask)) = formats.map fun f => (f.pattern, f.mask) := rfl

theorem and_headMask_iff (w : Word) (f : WordFormat) :
    w &&& headMask = f.pattern ↔ opField w = f.op ∧ rsvField w = false := by
  obtain ⟨op, rsv, sym, len, code, rfl⟩ := join_of_word w
  have hop : op &&& 0xF = op := BitVec.and_allOnes
  have hrsv : rsv &&& 1 = rsv := BitVec.and_allOnes
  have hbit : rsv = 0 ↔ (rsv == 1) = false := by revert rsv; decide
  rw [headMask, WordFormat.pattern, joinFields_and, joinFields_inj, opField_join, rsvField_join, hop,
    hrsv, hbit]
  simp

theorem WordFormat.fits_iff {f : WordFormat} (h : f.lo + f.n ≤ 59) (w : Word) :
    w &&& f.mask = f.pattern ↔ f.Fits w := by
  have hpattern : f.pattern &&& headMask = f.pattern := by
    rw [and_headMask_iff, WordFormat.pattern, opField_join, rsvField_join]
    exact ⟨rfl, rfl⟩
  have hdisjoint : headMask &&& rangeMask 64 f.lo f.n = 0 := by
    rw [show headMask = rangeMask 64 59 5 from rfl]
    refine BitVec.eq_of_getLsbD_eq fun j hj => ?_
    have hnot : ¬ ((59 ≤ j ∧ j < 59 + 5) ∧ f.lo ≤ j ∧ j < f.lo + f.n) := by omega
    rw [BitVec.getLsbD_and, getLsbD_rangeMask (by decide), getLsbD_rangeMask (by omega), ← Bool.decide_and,
      decide_eq_false hnot]
    exact BitVec.getLsbD_zero.symm
  rw [WordFormat.mask, and_or_eq_iff hpattern hdisjoint, and_headMask_iff,
    and_rangeMask_eq_zero_iff w (by omega), and_assoc, WordFormat.Fits]

/-- A word spells a command exactly when it has one of the formats. -/
theorem exists_command_iff_format (w : Word) : (∃ i, decode w = .command i) ↔ ∃ f ∈ formats, f.Fits w := by
  have hbelow : ∀ f ∈ formats, f.lo + f.n ≤ 59 := by decide
  calc
    (∃ i, decode w = .command i) ↔ ∃ r ∈ decodeRows, w &&& r.mask = r.pattern := by
      constructor
      · rintro ⟨i, hi⟩
        obtain ⟨r, hr, hspells, -⟩ := exists_row_of_decode hi
        exact ⟨r, hr, (r.spells_iff w).mp hspells⟩
      · rintro ⟨r, hr, hmatch⟩
        exact ⟨r.read w, (decode_eq_read_iff hr w).mpr hmatch⟩
    _ ↔ ∃ m ∈ decodeRows.map fun r => (r.pattern, r.mask), w &&& m.2 = m.1 := by simp
    _ ↔ ∃ f ∈ formats, w &&& f.mask = f.pattern := by simp [decodeRows_eq_formats]
    _ ↔ ∃ f ∈ formats, f.Fits w :=
      exists_congr fun f => and_congr_right fun hf => WordFormat.fits_iff (hbelow f hf) w

/-- The words of R162: a reserved `op`, `rsv` set, or a must-be-zero bit of the format set. -/
def SpellsNoCommand (w : Word) : Prop :=
  let op := (w.extractLsb' 60 4).toNat
  9 ≤ op ∨ w.getLsbD 59 = true ∨
    ((op = 0 ∨ op = 1 ∨ op = 5 ∨ op = 7) ∧ w.extractLsb' 0 59 ≠ 0) ∨
    (op = 3 ∧ w.extractLsb' 38 21 ≠ 0) ∨ (op = 4 ∧ w.extractLsb' 0 38 ≠ 0) ∨
    (op = 6 ∧ w.extractLsb' 8 51 ≠ 0) ∨ (op = 8 ∧ w.extractLsb' 33 26 ≠ 0)

theorem spellsNoCommand_iff_no_format (w : Word) : SpellsNoCommand w ↔ ¬ ∃ f ∈ formats, f.Fits w := by
  have hop := (w.extractLsb' 60 4).isLt
  have hnone : w.extractLsb' 0 0 = 0 := BitVec.of_length_zero
  simp only [SpellsNoCommand, formats, List.exists_mem_cons_iff, WordFormat.Fits, opField, rsvField,
    ← BitVec.toNat_inj (x := w.extractLsb' 60 4)]
  generalize (w.extractLsb' 60 4).toNat = op at hop
  cases w.getLsbD 59 with
  | false => interval_cases op <;> simp [hnone]
  | true => simp

theorem spellsNoCommand_iff (w : Word) : SpellsNoCommand w ↔ ∀ i, decode w ≠ .command i := by
  rw [spellsNoCommand_iff_no_format, ← exists_command_iff_format, not_exists]

/-! ### The word of a decoded command (R73, R74) -/

theorem byte_of_high_zero {code : CodeWord} (h : code &&& 0xFFFFFF00 = 0) :
    (code.extractLsb' 0 8).zeroExtend 32 = code := by
  have hhigh : code.extractLsb' 8 24 = 0 := (and_rangeMask_eq_zero_iff code (by decide)).mp h
  calc
    (code.extractLsb' 0 8).zeroExtend 32 = 0#24 ++ code.extractLsb' 0 8 :=
      BitVec.setWidth_eq_append (by decide)
    _ = code.extractLsb' 8 24 ++ code.extractLsb' 0 8 := by rw [hhigh]; rfl
    _ = code.extractLsb' 0 32 := BitVec.extractLsb'_append_extractLsb'_eq_extractLsb' rfl
    _ = code := BitVec.extractLsb'_eq_self

theorem flag_of_high_zero : ∀ {len : CodeLen}, len &&& 0x3E = 0 →
    (BitVec.ofBool (len.getLsbD 0)).zeroExtend 6 = len := by decide

/-- Decoding drops no bit: the word is the encoding of the command it spells. -/
theorem encode_of_decode {w : Word} {i : Instr} (h : decode w = .command i) : encode i = w := by
  obtain ⟨op, rsv, sym, len, code, rfl⟩ := join_of_word w
  rw [decode_joinFields] at h
  split_ifs at h with hrsv hnop hclr hlde hpkc hpks hpkf hupb hupe hulm <;> subst hrsv <;> cases h
  · obtain ⟨rfl, rfl, rfl, rfl⟩ := hnop; rfl
  · obtain ⟨rfl, rfl, rfl, rfl⟩ := hclr; rfl
  · obtain rfl := hlde; rfl
  · obtain ⟨rfl, rfl⟩ := hpkc; rfl
  · obtain ⟨rfl, rfl, rfl⟩ := hpks; rfl
  · obtain ⟨rfl, rfl, rfl, rfl⟩ := hpkf; rfl
  · obtain ⟨rfl, rfl, rfl, hcode⟩ := hupb
    rw [encode, byte_of_high_zero hcode, assembleFields_eq]
  · obtain ⟨rfl, rfl, rfl, rfl⟩ := hupe; rfl
  · obtain ⟨rfl, rfl, hlen⟩ := hulm
    rw [encode, flag_of_high_zero hlen, assembleFields_eq]

end Sys2Proof

namespace Sys2Proof.Machine

/-! ### A step with a command word (R103) -/

theorem step_command {s : State} {w : Word} {rest : List HostEvent} {i : Instr}
    (hin : s.input = .command w :: rest) (hi : decode w = .command i) :
    step s = exec i { s with input := rest } := by
  rw [step_word hin, hi]

theorem step_illegal {s : State} {w : Word} {rest : List HostEvent}
    (hin : s.input = .command w :: rest) (hw : ∀ i, decode w ≠ .command i) :
    step s = runIllegal w { s with input := rest } := by
  cases hd : decode w with
  | command i => exact absurd hd (hw i)
  | illegal why => rw [step_word hin, hd]

/-- In the FAULTED state a word that is not CLR's only leaves the host's list (R167). -/
theorem step_faulted_ignores {s : State} {w : Word} {rest : List HostEvent} (herr : s.err ≠ .noError)
    (hin : s.input = .command w :: rest) (hw : decode w ≠ .command .clr) :
    step s = .next { s with input := rest } := by
  by_cases hcmd : ∃ i, decode w = .command i
  · obtain ⟨i, hi⟩ := hcmd
    have hclr : i ≠ .clr := fun h => hw (h ▸ hi)
    rw [step_command hin hi]
    exact exec_faulted (s := { s with input := rest }) herr i hclr
  · rw [step_illegal hin (not_exists.mp hcmd)]
    exact runIllegal_faulted w herr

/-! ### What a fault records (R166) -/

theorem drain_err (final : Bool) (s : State) : (drain final s).err = s.err := by
  obtain ⟨_, h⟩ := drain_frame final s
  rw [h]

theorem acceptBits_err (bits : Bits) (s : State) : (acceptBits bits s).err = s.err := by
  obtain ⟨_, h⟩ := acceptBits_frame bits s
  rw [h]

/-- A command of an unfaulted block raises no fault, or it records its own word with a fault that is not
`E_CMD` and changes nothing else. -/
theorem Effect.fault_cases {i : Instr} {s t : State} (h : Effect s i t) (herr : s.err = .noError) :
    t.err = .noError ∨ ∃ e, e ≠ .eCmd ∧ t = recorded e (encode i) s := by
  cases h with
  | ignored _ hfaulted => exact absurd herr hfaulted
  | faulted _ e _ _ hcmd => exact .inr ⟨e, hcmd, rfl⟩
  | cleared => exact .inl rfl
  | accepted => exact .inl ((acceptBits_err _ _).trans herr)
  | ended => exact .inl ((drain_err true s).trans herr)
  | nothing | loaded | packed | flushed | limited => exact .inl herr

/-! ### The statements -/

/-- Settles O5: the words of R162 are those with no format, and no command's effect records `E_CMD`. -/
theorem illegalWordRaisesECmd : Obligations.IllegalWordRaisesECmd := by
  intro s w rest herr hin op illegal
  have hillegal : illegal ↔ ∀ i, decode w ≠ .command i := spellsNoCommand_iff w
  rw [hillegal]
  constructor
  · intro hw
    rw [step_illegal hin hw]
    exact runIllegal_running w herr
  · intro hw
    obtain ⟨i, hi⟩ := not_forall_not.mp hw
    obtain ⟨t, hexec, heffect⟩ := exec_effect i { s with input := rest }
    refine ⟨t, by rw [step_command hin hi, hexec], ?_⟩
    obtain hnone | ⟨e, he, rfl⟩ := heffect.fault_cases herr
    · rw [hnone]
      decide
    · exact he

/-- Settles O9: `step_faulted_ignores` for the ignored words, and CLR clears the fault. -/
theorem faultedBlockIgnoresEveryWordButClr : Obligations.FaultedBlockIgnoresEveryWordButClr :=
  fun _ _ _ herr hin => ⟨step_faulted_ignores herr hin, fun hclr => ⟨_, step_command hin hclr, rfl⟩⟩

/-- Settles O10, by the host's next event: none, `rst`, the word of CLR, or an ignored word. -/
theorem faultedLeftOnlyByClrOrReset : Obligations.FaultedLeftOnlyByClrOrReset := by
  intro s t herr hstep
  match hin : s.input with
  | [] =>
    obtain rfl : s = t := by simpa [step_idle hin] using hstep
    exact .inl ⟨rfl, rfl⟩
  | .reset :: rest =>
    obtain rfl : State.resetWith s.nEntries rest = t := by simpa [step_rst hin] using hstep
    simp
  | .command w :: rest =>
    by_cases hclr : decode w = .command .clr
    · have hword : 0x1000000000000000 = w := encode_of_decode hclr
      obtain rfl : clearState { s with input := rest } = t := by
        simpa [step_command hin hclr, exec_clr] using hstep
      simp [← hword]
    · obtain rfl : { s with input := rest } = t := by
        simpa [step_faulted_ignores herr hin hclr] using hstep
      exact .inl ⟨rfl, rfl⟩

/-- Settles O39: with no event or `rst` no fault is raised; a command records its encoding, which is the
word; and a word that spells no command records itself. -/
theorem faultEntryIsPrecise : Obligations.FaultEntryIsPrecise := by
  intro s t herr hstep hfault
  obtain ⟨-, rfl⟩ | ⟨rest, -, rfl⟩ | ⟨w, rest, hin, hword⟩ := step_cases hstep
  · exact absurd herr hfault
  · exact absurd rfl hfault
  refine ⟨w, rest, hin, ?_⟩
  obtain ⟨i, hi, heffect⟩ | ⟨-, ⟨hfaulted, -⟩ | ⟨-, rfl⟩⟩ := hword
  · obtain hnone | ⟨e, -, rfl⟩ := heffect.fault_cases herr
    · exact absurd hnone hfault
    · rw [encode_of_decode hi]
  · exact absurd herr hfaulted
  · rfl

end Sys2Proof.Machine
end

section
/-! SUPPORT. Reset and CLR compared (70_reset_and_hazards.md rule R185), and the statement settled with it. -/

namespace Sys2Proof.Machine

/-- The reset state of another block: only the model's own two fields differ (R47). -/
theorem resetWith_eq_reset (n : Nat) (input : List HostEvent) :
    State.resetWith n input = { State.reset with nEntries := n, input := input } := rfl

/-- Emptying both outputs of a cleared block gives the state `rst` leaves (R101, R185). -/
theorem clearState_emptied (s : State) :
    { clearState s with pout := [], uout := [] } = State.resetWith s.nEntries s.input := rfl

/-- Settles O12: `rst` is the reset state at the block's capacity, which is the cleared state with its
outputs emptied. -/
theorem rstDiffersFromClrOnlyInTheOutputs : Obligations.RstDiffersFromClrOnlyInTheOutputs := by
  intro s rest hin
  have hrst : step s = .next (State.resetWith s.nEntries rest) := step_rst hin
  refine ⟨?_, clearState { s with input := rest }, exec_clr _, ?_⟩
  · rw [hrst, resetWith_eq_reset]
  · rw [hrst, clearState_emptied]

end Sys2Proof.Machine
end

section
/-! SUPPORT. Decoder and encoder as inverses (30_encoding.md rules R71 to R74): decoding the word of a command,
and the statements settled with it. -/

namespace Sys2Proof

/-! ### The two fields a format narrows (R78, R79) -/

theorem byte_zeroExtend_high (byte : Byte) : byte.zeroExtend 32 &&& 0xFFFFFF00 = 0 := by
  have hhigh : (byte.zeroExtend 32).extractLsb' 8 24 = 0 := by
    refine BitVec.eq_of_getLsbD_eq fun i _ => ?_
    simp [BitVec.getLsbD_of_ge]
  exact (and_rangeMask_eq_zero_iff (lo := 8) (n := 24) _ (by decide)).mpr hhigh

theorem byte_zeroExtend_low (byte : Byte) : (byte.zeroExtend 32).extractLsb' 0 8 = byte := by
  refine BitVec.eq_of_getLsbD_eq fun i hi => ?_
  simp [hi, show i < 32 by omega]

theorem flag_zeroExtend_high : ∀ en : Bool, (BitVec.ofBool en).zeroExtend 6 &&& (0x3E : CodeLen) = 0 := by
  decide

theorem flag_zeroExtend_low : ∀ en : Bool, ((BitVec.ofBool en).zeroExtend 6 : CodeLen).getLsbD 0 = en := by
  decide

/-! ### Decoding the word of a command -/

/-- Every command's fields match its own row and no row above it. -/
theorem decode_encode (i : Instr) : decode (encode i) = .command i := by
  cases i with
  | nop | clr | pkf | upe => rfl
  | lde | pkc | pks => simp [encode, assembleFields_eq, decode_joinFields]
  | upb byte =>
    have hfields : (byte.zeroExtend 32 &&& 0xFFFFFF00 = 0) ∧ (byte.zeroExtend 32).extractLsb' 0 8 = byte :=
      ⟨byte_zeroExtend_high byte, byte_zeroExtend_low byte⟩
    simp only [encode, assembleFields_eq, decode_joinFields, hfields]
    rfl
  | ulm en limit =>
    simp only [encode, assembleFields_eq, decode_joinFields, flag_zeroExtend_high, flag_zeroExtend_low]
    rfl

/-! ### The statements -/

/-- Settles O1, from the fields of each command's word. -/
theorem decodeOfEncodeIsTheCommand : Obligations.DecodeOfEncodeIsTheCommand := decode_encode

/-- Settles O2: the fields of a decoded word are those the encoder puts together. -/
theorem encodeOfDecodedIsTheWord : Obligations.EncodeOfDecodedIsTheWord := fun _ _ => encode_of_decode

/-- Settles O4: fourteen words of the spec, decoded. -/
theorem wordsOfTheSpecDecodeAsListed : Obligations.WordsOfTheSpecDecodeAsListed := by
  unfold Obligations.WordsOfTheSpecDecodeAsListed
  decide

end Sys2Proof
end

section
/-! SUPPORT. What a step leaves alone (40_control_table.md rule R103, 10_state.md rules R25 and R31): the
elements `Drain` does not write, the table and the outputs after any command, and the statements settled with
them. -/

namespace Sys2Proof.Machine

/-! ### What `Drain` does not write (R122) -/

/-- An observation that does not see the window, `USTOP`, `UUSED` and `uout` is the same after `Drain`. -/
theorem drain_keeps {α : Type} (observe : State → α) (final : Bool) (s : State)
    (hblind : ∀ ubuf ustop uused uout,
      observe { s with ubuf := ubuf, ustop := ustop, uused := uused, uout := uout } = observe s) :
    observe (drain final s) = observe s := by
  obtain ⟨_, h⟩ := drain_frame final s
  rw [h, hblind]

section
variable (final : Bool) (s : State)

@[simp] theorem drain_table : (drain final s).table = s.table := drain_keeps State.table final s fun _ _ _ _ => rfl
@[simp] theorem drain_pacc : (drain final s).pacc = s.pacc := drain_keeps State.pacc final s fun _ _ _ _ => rfl
@[simp] theorem drain_pactive : (drain final s).pactive = s.pactive :=
  drain_keeps State.pactive final s fun _ _ _ _ => rfl
@[simp] theorem drain_pbits : (drain final s).pbits = s.pbits := drain_keeps State.pbits final s fun _ _ _ _ => rfl
@[simp] theorem drain_uactive : (drain final s).uactive = s.uactive :=
  drain_keeps State.uactive final s fun _ _ _ _ => rfl
@[simp] theorem drain_limen : (drain final s).limen = s.limen := drain_keeps State.limen final s fun _ _ _ _ => rfl
@[simp] theorem drain_ulim : (drain final s).ulim = s.ulim := drain_keeps State.ulim final s fun _ _ _ _ => rfl
@[simp] theorem drain_uin : (drain final s).uin = s.uin := drain_keeps State.uin final s fun _ _ _ _ => rfl
@[simp] theorem drain_errcmd : (drain final s).errcmd = s.errcmd :=
  drain_keeps State.errcmd final s fun _ _ _ _ => rfl
@[simp] theorem drain_pout : (drain final s).pout = s.pout := drain_keeps State.pout final s fun _ _ _ _ => rfl
@[simp] theorem drain_nEntries : (drain final s).nEntries = s.nEntries :=
  drain_keeps State.nEntries final s fun _ _ _ _ => rfl
@[simp] theorem drain_input : (drain final s).input = s.input := drain_keeps State.input final s fun _ _ _ _ => rfl

end

theorem drain_uout_prefix (final : Bool) {s : State} {out : List Sym} (hout : s.uout = out) :
    out <+: (drain final s).uout := by
  obtain ⟨syms, h⟩ := drain_frame final s
  rw [h, hout]
  exact List.prefix_append _ _

/-! ### What a command does to the host's fields, the table and the outputs -/

section
variable {i : Instr} {s t : State} (h : Effect s i t)
include h

theorem Effect.keeps_host : t.nEntries = s.nEntries ∧ t.input = s.input := by
  cases h with
  | accepted => simp [acceptBits_eq_drain]
  | ended => simp
  | ignored | nothing | cleared | faulted | loaded | packed | flushed | limited => exact ⟨rfl, rfl⟩

theorem Effect.table_cases : t.table = s.table ∨ (t.table = [] ∧ i = .clr) ∨
    ∃ sym len code, i = .lde sym len code ∧ t.table = s.table ++ [⟨sym, len, code⟩] := by
  cases h with
  | cleared => exact .inr (.inl ⟨rfl, rfl⟩)
  | loaded sym len code => exact .inr (.inr ⟨sym, len, code, rfl, rfl⟩)
  | accepted => simp [acceptBits_eq_drain]
  | ended => simp
  | ignored | nothing | faulted | packed | flushed | limited => exact .inl rfl

theorem Effect.outputs_grow : s.pout <+: t.pout ∧ s.uout <+: t.uout := by
  cases h with
  | packed | flushed => exact ⟨List.prefix_append _ _, List.prefix_rfl⟩
  | accepted =>
    rw [acceptBits_eq_drain]
    exact ⟨by simp, drain_uout_prefix false rfl⟩
  | ended => exact ⟨by simp, drain_uout_prefix true rfl⟩
  | ignored | nothing | cleared | faulted | loaded | limited => exact ⟨List.prefix_rfl, List.prefix_rfl⟩

end

/-! ### One step -/

theorem decode_clr : decode 0x1000000000000000 = .command .clr := decode_encode .clr

theorem decode_eq_clr_iff {w : Word} : decode w = .command .clr ↔ w = 0x1000000000000000 :=
  ⟨fun h => (encode_of_decode h).symm, fun h => h ▸ decode_clr⟩

/-- Every step answers a next state (R202). -/
theorem step_next (s : State) : ∃ t, step s = .next t := by
  match hin : s.input with
  | [] => exact ⟨s, step_idle hin⟩
  | .reset :: rest => exact ⟨_, step_rst hin⟩
  | .command w :: rest =>
    by_cases hcmd : ∃ i, decode w = .command i
    · obtain ⟨i, hi⟩ := hcmd
      obtain ⟨t, hexec, -⟩ := exec_effect i { s with input := rest }
      exact ⟨t, by rw [step_command hin hi, hexec]⟩
    · rw [step_illegal hin (not_exists.mp hcmd)]
      by_cases herr : s.err = .noError
      · exact ⟨_, runIllegal_running (s := { s with input := rest }) w herr⟩
      · exact ⟨_, runIllegal_faulted (s := { s with input := rest }) w herr⟩

/-- What every step keeps: a property that does not depend on the host's remaining events, holds after reset, and
is kept by every command and by the recording of an illegal word. -/
theorem step_preserves {P : State → Prop} {s t : State} (hstep : step s = .next t) (hs : P s)
    (hinput : ∀ rest, P { s with input := rest }) (hreset : ∀ rest, P (State.resetWith s.nEntries rest))
    (hexec : ∀ i u v, P u → exec i u = .next v → P v)
    (hillegal : ∀ u w, P u → u.err = .noError → (∀ i, decode w ≠ .command i) → P (recorded .eCmd w u)) :
    P t := by
  match hin : s.input with
  | [] =>
    cases hstep.symm.trans (step_idle hin)
    exact hs
  | .reset :: rest =>
    cases hstep.symm.trans (step_rst hin)
    exact hreset rest
  | .command w :: rest =>
    by_cases hcmd : ∃ i, decode w = .command i
    · obtain ⟨i, hi⟩ := hcmd
      exact hexec i _ t (hinput rest) ((step_command hin hi).symm.trans hstep)
    · have hw := not_exists.mp hcmd
      have hill := (step_illegal hin hw).symm.trans hstep
      by_cases herr : s.err = .noError
      · cases hill.symm.trans (runIllegal_running (s := { s with input := rest }) w herr)
        exact hillegal _ w (hinput rest) herr hw
      · cases hill.symm.trans (runIllegal_faulted (s := { s with input := rest }) w herr)
        exact hinput rest

/-! ### The statements -/

/-- Settles O6: the equation of `step` for a word that spells a command. -/
theorem stepRunsTheDecodedCommand : Obligations.StepRunsTheDecodedCommand :=
  fun _ _ _ _ => step_command

/-- Settles O7: the word of CLR is the only one a faulted block runs; an unfaulted block asks the decoder. -/
theorem stepTestsFaultedThenIllegalThenRuns : Obligations.StepTestsFaultedThenIllegalThenRuns := by
  intro s w rest hin
  refine ⟨?clr, ?ignored, ?illegal, fun _ i => step_command hin⟩
  case clr => exact fun _ hw => step_command hin (decode_eq_clr_iff.mpr hw)
  case ignored => exact fun herr hw => step_faulted_ignores herr hin (decode_eq_clr_iff.not.mpr hw)
  case illegal =>
    intro herr hw
    rw [step_illegal hin hw]
    exact runIllegal_running w herr

/-- Settles O8: every event has an answer, and no answer changes what belongs to the host. -/
theorem everyStepCompletes : Obligations.EveryStepCompletes := by
  refine fun s => ⟨?_, step_idle⟩
  obtain ⟨t, hstep⟩ := step_next s
  refine ⟨t, hstep, ?_⟩
  obtain ⟨hin, rfl⟩ | ⟨rest, hin, rfl⟩ | ⟨w, rest, hin, hword⟩ := step_cases hstep <;> rw [hin]
  · exact ⟨rfl, rfl⟩
  · exact ⟨rfl, rfl⟩
  obtain ⟨i, -, heffect⟩ | ⟨-, ⟨-, rfl⟩ | ⟨-, rfl⟩⟩ := hword
  · exact heffect.keeps_host
  · exact ⟨rfl, rfl⟩
  · exact ⟨rfl, rfl⟩

/-- Settles O17, by the host's event and what a command does to the table. -/
theorem tableOnlyGrowsByOneEntryOrEmpties : Obligations.TableOnlyGrowsByOneEntryOrEmpties := by
  intro s t hstep
  obtain ⟨hin, rfl⟩ | ⟨rest, hin, rfl⟩ | ⟨w, rest, hin, hword⟩ := step_cases hstep <;> rw [hin]
  · exact .inl rfl
  · exact .inr (.inl ⟨rfl, .inr rfl⟩)
  obtain ⟨i, hi, heffect⟩ | ⟨-, ⟨-, rfl⟩ | ⟨-, rfl⟩⟩ := hword
  · obtain hsame | ⟨hempty, rfl⟩ | ⟨sym, len, code, rfl, hload⟩ := heffect.table_cases
    · exact .inl hsame
    · exact .inr (.inl ⟨hempty, .inl (by rw [decode_eq_clr_iff.mp hi]; rfl)⟩)
    · exact .inr (.inr ⟨w, rest, sym, len, code, rfl, hi, hload⟩)
  · exact .inl rfl
  · exact .inl rfl

/-- Settles O45: a reset empties the outputs, and a command appends to them. -/
theorem outputsOnlyGrow : Obligations.OutputsOnlyGrow := by
  intro s t hstep
  have same {u : State} (hp : u.pout = s.pout) (hu : u.uout = s.uout) :
      s.pout <+: u.pout ∧ s.uout <+: u.uout := by
    rw [hp, hu]
    exact ⟨List.prefix_rfl, List.prefix_rfl⟩
  obtain ⟨hin, rfl⟩ | ⟨rest, hin, rfl⟩ | ⟨w, rest, hin, hword⟩ := step_cases hstep
  · exact ⟨fun _ => same rfl rfl, by simp [hin]⟩
  · exact ⟨by simp [hin], fun _ => ⟨rfl, rfl⟩⟩
  refine ⟨fun _ => ?_, by simp [hin]⟩
  obtain ⟨i, -, heffect⟩ | ⟨-, ⟨-, rfl⟩ | ⟨-, rfl⟩⟩ := hword
  · exact heffect.outputs_grow
  · exact same rfl rfl
  · exact same rfl rfl

end Sys2Proof.Machine
end

section
/-! SUPPORT. Which fault a command reports (60_exceptions.md rules R161 to R172): the applicable fault with the
lowest code; what that says of the recorded word; and the statements settled with it. -/

namespace Sys2Proof.Machine

/-- `e` is the fault that R170 has the command report: it applies, and none with a lower code does. -/
def Reports (s : State) (i : Instr) (e : ErrCode) : Prop :=
  FaultApplies s i e ∧ ∀ e', FaultApplies s i e' → errNumber e ≤ errNumber e'

theorem Reports.not_applies {s : State} {i : Instr} {e e' : ErrCode} (h : Reports s i e)
    (hlower : errNumber e' < errNumber e) : ¬ FaultApplies s i e' :=
  fun happlies => Nat.not_lt.mpr (h.2 e' happlies) hlower

/-- A command reports neither "no fault" nor the fault of the words that spell none (R161, R162). -/
theorem Reports.code_ge {s : State} {i : Instr} {e : ErrCode} (h : Reports s i e) : 2 ≤ errNumber e := by
  obtain ⟨happlies, -⟩ := h
  cases e with
  | noError | eCmd => cases i <;> exact happlies.elim
  | _ => decide

theorem Reports.ne_noError {s : State} {i : Instr} {e : ErrCode} (h : Reports s i e) : e ≠ .noError := by
  rintro rfl
  exact absurd h.code_ge (by decide)

/-- `PackBits` overflows, or raises no fault (R112). -/
theorem packBits_overflows_or_not (w : Word) (bits : Bits) (s : State) :
    (2 ^ 32 - 1 < packBase s + bits.length ∧ packBits w bits s = .next (recorded .eOvf w s)) ∨
      (packBase s + bits.length ≤ 2 ^ 32 - 1 ∧ ∃ t, packBits w bits s = .next t ∧ t.err = s.err) := by
  by_cases h : packBase s + bits.length ≤ 2 ^ 32 - 1
  · obtain ⟨_, _, hpack, -⟩ := packBits_packs (w := w) h
    exact .inr ⟨h, _, hpack, rfl⟩
  · exact .inl ⟨by omega, packBits_overflow (by omega)⟩

/-- A fault is reported when it applies and those with lower codes do not; the checks that a command has
passed say that of each. -/
theorem reports_of {s : State} {i : Instr} {e : ErrCode} (happlies : FaultApplies s i e)
    (hlower : ∀ e', errNumber e' < errNumber e → ¬ FaultApplies s i e' := by
      rintro ⟨⟩ hlower happlies <;> contradiction) : Reports s i e :=
  ⟨happlies, fun e' h => Nat.not_lt.mp fun hlt => hlower e' hlt h⟩

/-- An unfaulted block reports the applicable fault with the lowest code, or ends without a fault. Then none
applied, but an overflow by another entry of the symbol in a table that no run reaches. -/
theorem exec_reports {s : State} (herr : s.err = .noError) (i : Instr) :
    (∃ e, Reports s i e ∧ exec i s = .next (recorded e (encode i) s)) ∨
      ∃ t, exec i s = .next t ∧ t.err = .noError ∧
        ∀ e, FaultApplies s i e → e = .eOvf ∧ ¬ s.table.Pairwise fun a b => a.sym ≠ b.sym := by
  cases i with
  | nop => exact .inr ⟨s, exec_nop s, herr, nofun⟩
  | clr => exact .inr ⟨_, exec_clr s, rfl, nofun⟩
  | lde sym len code =>
    rw [exec, execLde_running herr]
    split
    next hsym => exact .inl ⟨.eSym, reports_of hsym, rfl⟩
    split
    next hcode => exact .inl ⟨.eLen, reports_of hcode, rfl⟩
    split
    next hopen => exact .inl ⟨.eLock, reports_of hopen, rfl⟩
    split
    next hdup => exact .inl ⟨.eDup, reports_of hdup, rfl⟩
    split
    next hfull => exact .inl ⟨.eFull, reports_of hfull, rfl⟩
    refine .inr ⟨_, rfl, herr, ?_⟩
    rintro ⟨⟩ happlies <;> contradiction
  | pkc len code =>
    rw [exec, execPkc_running herr]
    split
    next hcode => exact .inl ⟨.eLen, reports_of hcode, rfl⟩
    obtain ⟨hbits, hpack⟩ | ⟨hbits, t, hpack, ht⟩ :=
        packBits_overflows_or_not (encode (.pkc len code)) (codeString len code) s <;>
      rw [codeString_length] at hbits
    · exact .inl ⟨.eOvf, reports_of hbits, hpack⟩
    · refine .inr ⟨t, hpack, ht.trans herr, ?_⟩
      rintro ⟨⟩ happlies
      case eOvf => exact absurd hbits (Nat.not_le.mpr happlies)
      all_goals contradiction
  | pks sym =>
    rw [exec, execPks_running herr]
    split
    next hsym => exact .inl ⟨.eSym, reports_of hsym, rfl⟩
    split
    next hmiss =>
      have hmiss := lookup_none hmiss
      exact .inl ⟨.eMiss, reports_of hmiss, rfl⟩
    next e hfound =>
    obtain ⟨he, rfl⟩ := lookup_some hfound
    obtain ⟨hbits, hpack⟩ | ⟨hbits, t, hpack, ht⟩ :=
        packBits_overflows_or_not (encode (.pks e.sym)) e.string s <;>
      rw [codeString_length] at hbits
    · have hloaded : ¬ ∀ e' ∈ s.table, e'.sym ≠ e.sym := fun h => h e he rfl
      exact .inl ⟨.eOvf, reports_of ⟨e, he, rfl, hbits⟩, hpack⟩
    · refine .inr ⟨t, hpack, ht.trans herr, ?_⟩
      rintro ⟨⟩ happlies
      case eMiss => exact absurd rfl (happlies e he)
      case eOvf =>
        obtain ⟨e', he', hsym, hbits'⟩ := happlies
        refine ⟨rfl, fun hdistinct => ?_⟩
        have hsame := lookup_of_mem hdistinct he'
        rw [hsym, hfound] at hsame
        cases hsame
        exact absurd hbits (Nat.not_le.mpr hbits')
      all_goals contradiction
  | pkf => exact .inr ⟨_, execPkf_running herr, by split <;> exact herr, nofun⟩
  | upb byte =>
    rw [exec, execUpb_running herr]
    split
    next hbits => exact .inl ⟨.eOvf, reports_of hbits, rfl⟩
    refine .inr ⟨_, rfl, (acceptBits_err _ _).trans herr, ?_⟩
    rintro ⟨⟩ happlies <;> contradiction
  | upe => exact .inr ⟨_, execUpe_running herr, by split <;> simp [drain_err, herr], nofun⟩
  | ulm en limit =>
    rw [exec, execUlm_running herr]
    split
    next hopen => exact .inl ⟨.eLock, reports_of hopen, rfl⟩
    refine .inr ⟨_, rfl, herr, ?_⟩
    rintro ⟨⟩ happlies <;> contradiction

/-! ### The word of a recorded fault (R161 to R164) -/

theorem canRaise_eCmd {w : Word} (hw : ∀ i, decode w ≠ .command i) : CanRaise .eCmd w := by
  unfold CanRaise
  cases hd : decode w with
  | command i => exact absurd hd (hw i)
  | illegal => trivial

/-- The operands that passed their checks are legal, so the command's word can raise what it reports. -/
theorem Reports.canRaise {s : State} {i : Instr} {e : ErrCode} (h : Reports s i e) :
    CanRaise e (encode i) := by
  have hsym (hlower : errNumber .eSym < errNumber e) := h.not_applies hlower
  have hcode (hlower : errNumber .eLen < errNumber e) := h.not_applies hlower
  obtain ⟨happlies, -⟩ := h
  unfold CanRaise
  rw [decode_encode]
  cases i with
  | lde sym len code =>
    cases e with
    | eSym => exact happlies
    | eLen => exact ⟨not_not.mp (hsym (by decide)), happlies⟩
    | eLock | eDup | eFull => exact ⟨not_not.mp (hsym (by decide)), not_not.mp (hcode (by decide))⟩
    | _ => exact happlies.elim
  | pkc len code =>
    cases e with
    | eLen => exact happlies
    | eOvf => exact not_not.mp (hcode (by decide))
    | _ => exact happlies.elim
  | pks sym =>
    cases e with
    | eSym => exact happlies
    | eMiss | eOvf => exact not_not.mp (hsym (by decide))
    | _ => exact happlies.elim
  | upb =>
    cases e with
    | eOvf => trivial
    | _ => exact happlies.elim
  | ulm =>
    cases e with
    | eLock => trivial
    | _ => exact happlies.elim
  | nop | clr | pkf | upe => cases e <;> exact happlies.elim

/-- Ill-formed operands are what `E_SYM` and `E_LEN` apply to, in every state. -/
theorem wellFormed_false_iff (s : State) (i : Instr) :
    i.wellFormed = false ↔ FaultApplies s i .eSym ∨ FaultApplies s i .eLen := by
  have hscalar (sym : Sym) : scalarOK sym = false ↔ ¬ SymLegal sym := by
    rw [← scalarOK_iff, Bool.not_eq_true]
  have hcode (len : CodeLen) (code : CodeWord) : codeOK len code = false ↔ ¬ CodeLegal len code := by
    rw [← codeOK_iff, Bool.not_eq_true]
  cases i <;> simp only [Instr.wellFormed, FaultApplies, Bool.and_eq_false_iff, hscalar, hcode] <;> simp

/-- A command leaves a fault record as it is, clears it, or leaves one that its own word explains. -/
theorem exec_keeps_faultExplained {i : Instr} {s t : State} (hs : FaultExplained s) (hexec : exec i s = .next t) :
    FaultExplained t := by
  by_cases herr : s.err = .noError
  · obtain ⟨e, hreports, hfault⟩ | ⟨t', hdone, ht, -⟩ := exec_reports herr i
    · cases hexec.symm.trans hfault
      exact fun _ => hreports.canRaise
    · cases hexec.symm.trans hdone
      exact fun h => absurd ht h
  · by_cases hclr : i = .clr
    · subst hclr
      cases hexec.symm.trans (exec_clr s)
      exact fun h => absurd rfl h
    · cases hexec.symm.trans (exec_faulted herr i hclr)
      exact hs

/-! ### The statements -/

/-- Settles O40: the reported fault is the least that applies, and a table that keeps its invariants leaves no
fault unreported. -/
theorem lowestApplicableFaultIsReported : Obligations.LowestApplicableFaultIsReported := by
  intro i s t inv herr hexec
  obtain ⟨e, hreports, hfault⟩ | ⟨t', hdone, ht, hnone⟩ := exec_reports herr i
  · cases hexec.symm.trans hfault
    exact ⟨⟨fun h => absurd h hreports.ne_noError, fun h => absurd hreports.1 (h e)⟩, fun _ => hreports⟩
  · cases hexec.symm.trans hdone
    refine ⟨⟨fun _ e happlies => ?_, fun _ => ht⟩, fun h => absurd ht h⟩
    exact (hnone e happlies).2 inv.symsDistinct

/-- Settles O41: `E_SYM` and `E_LEN` have the lowest codes of a command's faults, so the ill-formed operands
are reported before anything else. -/
theorem illFormedOperandsFault : Obligations.IllFormedOperandsFault := by
  intro i s t herr hexec
  rw [wellFormed_false_iff s i]
  obtain ⟨e, hreports, hfault⟩ | ⟨t', hdone, ht, hnone⟩ := exec_reports herr i
  · cases hexec.symm.trans hfault
    constructor
    · intro hill
      have hle : errNumber e ≤ 3 := hill.elim (hreports.2 _ · |>.trans (by decide)) (hreports.2 _)
      have hge := hreports.code_ge
      cases e with
      | eSym => exact .inl rfl
      | eLen => exact .inr rfl
      | noError | eCmd => exact absurd hge (by decide)
      | _ => exact absurd hle (by decide)
    · rintro (rfl | rfl)
      · exact .inl hreports.1
      · exact .inr hreports.1
  · cases hexec.symm.trans hdone
    rw [ht]
    constructor
    · rintro (h | h) <;> exact absurd (hnone _ h).1 (by decide)
    · exact fun h => absurd h (by decide)

/-- Settles O42: no step leaves a fault that was not there before but the illegal word's own and the one a
command reports, and each explains its word. -/
theorem faultRecordStaysExplained : Obligations.FaultRecordStaysExplained := by
  refine ⟨fun h => absurd rfl h, fun s t hs hstep => ?_⟩
  exact step_preserves hstep hs (fun _ => hs) (fun _ h => absurd rfl h)
    (fun _ _ _ => exec_keeps_faultExplained) fun _ w _ _ hw _ => canRaise_eCmd hw

end Sys2Proof.Machine
end

section
/-! SUPPORT. PKF, ULM, UPB and UPE (41_packer.md rule R114, 42_unpacker.md rules R120 to R127): their words, what
each answers, and the statements settled with them. -/

namespace Sys2Proof.Machine

/-! ### ULM, and the bits a UPB takes in (R120, R121) -/

/-- The state of UPB when the stream is open and its accepted bits are counted, before they enter the window. -/
def counting (s : State) : State :=
  { s with
    uactive := true, uused := if s.uactive then s.uused else 0, ustop := if s.uactive then s.ustop else false,
    uin := BitVec.ofNat 32 (unpackBase s + unpackTake s) }

theorem unpackTake_le (s : State) : unpackTake s ≤ 8 := by
  unfold unpackTake
  split <;> omega

theorem accepted_length (s : State) (byte : Byte) :
    ((msbFirst byte).take (unpackTake s)).length = unpackTake s := by
  rw [List.length_take, msbFirst_length, Nat.min_eq_left (unpackTake_le s)]

theorem exec_upb_overflow {s : State} (herr : s.err = .noError)
    (hbits : 2 ^ 32 - 1 < unpackBase s + unpackTake s) (byte : Byte) :
    exec (.upb byte) s = .next (recorded .eOvf (encode (.upb byte)) s) := by
  rw [exec, execUpb_running herr, if_pos hbits]

theorem exec_ulm_open {s : State} (herr : s.err = .noError) (hopen : s.uactive = true) (en : Bool) (limit : Count) :
    exec (.ulm en limit) s = .next (recorded .eLock (encode (.ulm en limit)) s) := by
  rw [exec, execUlm_running herr, if_pos hopen]

theorem exec_ulm_idle {s : State} (herr : s.err = .noError) (hidle : s.uactive = false) (en : Bool) (limit : Count) :
    exec (.ulm en limit) s = .next { s with limen := en, ulim := limit } := by
  rw [exec, execUlm_running herr, if_neg (by simp [hidle])]

theorem exec_upb_counting {s : State} (herr : s.err = .noError)
    (hroom : unpackBase s + unpackTake s ≤ 2 ^ 32 - 1) (byte : Byte) :
    exec (.upb byte) s = .next (acceptBits ((msbFirst byte).take (unpackTake s)) (counting s)) := by
  rw [exec, execUpb_running herr, if_neg (Nat.not_lt.mpr hroom)]
  rfl

/-- After a stop the accepted bits are discarded (R124). -/
theorem acceptBits_stopped {s : State} (h : s.ustop = true) (bits : Bits) : acceptBits bits s = s := if_pos h

theorem acceptBits_running {s : State} (h : s.ustop = false) (bits : Bits) :
    acceptBits bits s = drain false { s with ubuf := s.ubuf ++ bits } := if_neg (by simp [h])

/-- Accepted bits are decoded as far as they are decided (R122, R123). -/
theorem acceptBits_spec (bits : Bits) {s : State} (hcodes : ∀ e ∈ s.table, 1 ≤ e.len.toNat)
    (hstop : s.ustop = false) :
    ∃ out left stopped,
      DecodesTo s.table (tmaxlen s) (s.ubuf ++ bits) out left stopped ∧
      acceptBits bits s = { s with
        ubuf := if stopped then [] else left, ustop := stopped,
        uused := s.uused + BitVec.ofNat 32 ((s.ubuf ++ bits).length - left.length), uout := s.uout ++ out } := by
  rw [acceptBits_running hstop]
  exact drain_spec false { s with ubuf := s.ubuf ++ bits } hcodes hstop

/-- The sum of a counter and a number is the counter of the sum. -/
theorem count_add (c : Count) (n : Nat) : c + BitVec.ofNat 32 n = BitVec.ofNat 32 (c.toNat + n) := by
  rw [BitVec.ofNat_add, BitVec.ofNat_toNat, BitVec.setWidth_eq]

/-! ### The statements -/

/-- Settles O24: an idle packer is left alone; an open one emits its last byte, if bits are pending, and closes. -/
theorem pkfEmitsThePaddedLastByte : Obligations.PkfEmitsThePaddedLastByte := by
  intro w s hw herr
  obtain ⟨-, -, -, -, -, spells, -⟩ := wordSpellsCommandByMatchAndMask.1 w
  have hexec : exec .pkf s = _ := execPkf_running herr
  refine ⟨spells.mpr hw, ?idle, ?empty, ?pending⟩ <;> rw [hexec]
  case idle =>
    intro hidle
    rw [hidle]
    rfl
  case empty =>
    intro hopen hempty
    simp [hopen, hempty, lastByte]
  case pending =>
    intro hopen hpending hlen
    rw [if_pos hopen, lastByte_of_pending hpending]
    exact ⟨_, rfl, msbFirst_pendingByte (by omega)⟩

/-- Settles O27: the two branches of ULM. -/
theorem ulmSetsTheBitLimit : Obligations.UlmSetsTheBitLimit := by
  intro w s hw herr en limit
  obtain ⟨-, -, -, -, -, -, -, -, spells⟩ := wordSpellsCommandByMatchAndMask.1 w
  have hspells : decode w = .command (.ulm en limit) := spells.mpr hw
  refine ⟨hspells, fun hopen => ?_, fun hidle => exec_ulm_idle herr hidle en limit⟩
  rw [exec_ulm_open herr hopen, encode_of_decode hspells]

/-- Settles O28: overflow, a stopped stream, or the decoding of what is decided. -/
theorem upbDecodesWhatIsDecided : Obligations.UpbDecodesWhatIsDecided := by
  intro w s hw herr hcodes byte k
  obtain ⟨-, -, -, -, -, -, spells, -⟩ := wordSpellsCommandByMatchAndMask.1 w
  have hspells : decode w = .command (.upb byte) := spells.mpr hw
  refine ⟨hspells, ?overflow, ?stopped, ?decodes⟩
  case overflow =>
    intro hbits
    rw [exec_upb_overflow herr hbits, encode_of_decode hspells]
  case stopped =>
    intro hroom hactive hstop
    have hcounting : counting s = { s with uin := BitVec.ofNat 32 (unpackBase s + k) } := by
      simp [counting, hactive, hstop, k]
    rw [exec_upb_counting herr hroom, acceptBits_stopped (by simp [counting, hactive, hstop]), hcounting]
  case decodes =>
    intro hroom hrun
    have hstop : (counting s).ustop = false := by
      cases hactive : s.uactive <;> simp_all [counting]
    obtain ⟨out, left, stopped, hdec, haccept⟩ :=
      acceptBits_spec ((msbFirst byte).take k) (s := counting s) hcodes hstop
    refine ⟨out, left, stopped, hdec, ?_⟩
    rw [exec_upb_counting herr hroom, haccept, count_add, List.length_append, accepted_length]
    cases hactive : s.uactive <;> simp [counting, hactive, k]

/-- Settles O29: an idle unpacker, a stopped stream, or the decoding of the window to its end. -/
theorem upeDecodesTheRestAndCloses : Obligations.UpeDecodesTheRestAndCloses := by
  intro w s hw herr hcodes
  obtain ⟨-, -, -, -, -, -, -, spells, -⟩ := wordSpellsCommandByMatchAndMask.1 w
  have hexec : exec .upe s = _ := execUpe_running herr
  refine ⟨spells.mpr hw, ?idle, ?stopped, ?decodes⟩ <;> rw [hexec] <;> intro hactive <;> rw [hactive]
  case idle => rfl
  case stopped =>
    intro hstop
    rw [if_pos rfl, drain_stopped true hstop]
  case decodes =>
    intro hstop
    obtain ⟨out, left, stopped, hdec, hdrain⟩ := drain_spec true s hcodes hstop
    have hend : stopped = false → left = [] := by
      rw [hdec.stopped_eq]
      simp
    refine ⟨out, left, stopped, hdec, hend, ?_⟩
    have hempty : (if stopped then [] else left) = [] := by
      cases stopped with
      | true => rfl
      | false => exact hend rfl
    rw [if_pos rfl, hdrain, count_add, hempty]

end Sys2Proof.Machine
end

section
/-! SUPPORT. The invariants of the state (10_state.md rules R24, R27, R29, R30): they hold after reset, every
command keeps them, and the statements settled with that. -/

namespace Sys2Proof.Machine

/-! ### Invariants of one part of the state do not see the other parts -/

theorem PackInv.of_eq {s t : State} (inv : PackInv s) (hpacc : t.pacc = s.pacc) (hactive : t.pactive = s.pactive)
    (hbits : t.pbits = s.pbits) : PackInv t := by
  obtain ⟨hpending, hidle, hcounted⟩ := inv
  rw [← hpacc] at hpending hidle hcounted
  rw [← hactive] at hidle hcounted
  rw [← hbits] at hcounted
  exact ⟨hpending, hidle, hcounted⟩

theorem CapacityInv.of_eq {s t : State} (inv : CapacityInv s) (hcap : t.nEntries = s.nEntries)
    (htable : t.table = s.table) : CapacityInv t := by
  obtain ⟨hcapacity, hcount⟩ := inv
  rw [← hcap] at hcapacity hcount
  rw [← htable] at hcount
  exact ⟨hcapacity, hcount⟩

theorem UnpackInv.with_others {s : State} (inv : UnpackInv s) {pacc : Bits} {pactive : Bool} {pbits : Count}
    {err : ErrCode} {errcmd : Word} {pout : List Byte} {uout : List Sym} {nEntries : Nat}
    {input : List HostEvent} :
    UnpackInv { s with
      pacc := pacc, pactive := pactive, pbits := pbits, err := err, errcmd := errcmd, pout := pout,
      uout := uout, nEntries := nEntries, input := input } := by
  obtain ⟨hused, hwindow, hidle, hstopped, hcounted, hlimited, hearly, hwhole⟩ := inv
  exact ⟨hused, hwindow, hidle, hstopped, hcounted, hlimited, hearly, hwhole⟩

theorem StateInv.with_input {s : State} (inv : StateInv s) (input : List HostEvent) :
    StateInv { s with input := input } :=
  ⟨inv.table, inv.capacity.of_eq rfl rfl, inv.pack.of_eq rfl rfl rfl, inv.unpack.with_others, inv.fault⟩

/-- Recording a fault keeps the invariants: `ERRCMD` may hold a word while the block is faulted (R30). -/
theorem StateInv.recorded {s : State} (inv : StateInv s) {e : ErrCode} (he : e ≠ .noError) (w : Word) :
    StateInv (recorded e w s) :=
  ⟨inv.table, inv.capacity.of_eq rfl rfl, inv.pack.of_eq rfl rfl rfl, inv.unpack.with_others,
    fun h => absurd h he⟩

/-! ### Reset and CLR -/

theorem TableInv.nil : TableInv [] := ⟨nofun, nofun, .nil, .nil⟩

/-- The state after reset, whatever was emitted: what `rst` and CLR leave (R101, R185). -/
theorem StateInv.of_reset {n : Nat} (hn : Config.capacityOK n) (input : List HostEvent) (pout : List Byte)
    (uout : List Sym) : StateInv { State.resetWith n input with pout := pout, uout := uout } where
  table := .nil
  capacity := ⟨hn, Nat.zero_le n⟩
  pack := ⟨Nat.zero_le _, fun _ => rfl, nofun⟩
  unpack := ⟨le_rfl, Nat.zero_le _, fun _ => rfl, nofun, nofun, nofun, nofun, fun _ _ => rfl⟩
  fault := fun _ => rfl

/-! ### LDE (R24, R100) -/

theorem pairwise_concat {α : Type} {R : α → α → Prop} {l : List α} {a : α} (h : l.Pairwise R)
    (ha : ∀ x ∈ l, R x a) : (l ++ [a]).Pairwise R := by
  rw [List.pairwise_append]
  exact ⟨h, List.pairwise_singleton R a, fun x hx y hy => by rw [List.mem_singleton.mp hy]; exact ha x hx⟩

theorem TableInv.concat {table : List Entry} (inv : TableInv table) {e : Entry} (hsym : SymLegal e.sym)
    (hcode : CodeLegal e.len e.code)
    (hfresh : ∀ a ∈ table, a.sym ≠ e.sym ∧ ¬ (a.len = e.len ∧ a.code = e.code)) : TableInv (table ++ [e]) where
  codes := List.forall_mem_append.mpr ⟨inv.codes, List.forall_mem_singleton.mpr hcode⟩
  syms := List.forall_mem_append.mpr ⟨inv.syms, List.forall_mem_singleton.mpr hsym⟩
  symsDistinct := pairwise_concat inv.symsDistinct fun a ha => (hfresh a ha).1
  codesDistinct := pairwise_concat inv.codesDistinct fun a ha => (hfresh a ha).2

theorem StateInv.loaded {s : State} (inv : StateInv s) {e : Entry} (hsym : SymLegal e.sym)
    (hcode : CodeLegal e.len e.code)
    (hfresh : ∀ a ∈ s.table, a.sym ≠ e.sym ∧ ¬ (a.len = e.len ∧ a.code = e.code))
    (hroom : tcount s ≠ s.nEntries) : StateInv (loadEntry e s) := by
  obtain ⟨hused, hwindow, hidle, hstopped, hcounted, hlimited, hearly, hwhole⟩ := inv.unpack
  refine ⟨inv.table.concat hsym hcode hfresh, ⟨inv.capacity.capacity, ?count⟩, inv.pack.of_eq rfl rfl rfl,
    ⟨hused, ?window, hidle, hstopped, hcounted, hlimited, hearly, hwhole⟩, inv.fault⟩
  case count =>
    have hcount := inv.capacity.count
    rw [loadEntry_table, List.length_append]
    exact Nat.lt_of_le_of_ne hcount hroom
  case window =>
    have hgrows : tmaxlen s ≤ tmaxlen (loadEntry e s) := by
      rw [tmaxlen_loadEntry]
      exact Nat.le_max_left _ _
    rw [loadEntry_ubuf]
    omega

/-! ### PKC, PKS and PKF (R27, R112, R114) -/

/-- The pending bits of a stream agree with its count, also where no stream is open yet. -/
theorem PackInv.pending_eq {s : State} (inv : PackInv s) : s.pacc.length = packBase s % 8 := by
  cases hactive : s.pactive with
  | true => simpa [packBase, hactive] using inv.counted hactive
  | false => simp [packBase, hactive, inv.idle hactive]

theorem PackInv.packed {s : State} (inv : PackInv s) {bits pending : Bits} {bytes : List Byte}
    (hstream : bytes.flatMap msbFirst ++ pending = s.pacc ++ bits) (hpending : pending.length < 8) (pout : List Byte) :
    PackInv { s with
      pbits := BitVec.ofNat 32 (packBase s + bits.length), pactive := true, pacc := pending, pout := pout } := by
  refine ⟨Nat.le_of_lt_succ hpending, nofun, fun _ => ?_⟩
  obtain ⟨-, hlen⟩ := lengths_of_bytes_append hstream hpending
  have hpacc := inv.pending_eq
  rw [List.length_append] at hlen
  simp only [BitVec.toNat_ofNat]
  omega

/-! ### UPB and UPE (R29, R121 to R127) -/

theorem DecodesTo.left_ne_nil {table : List Entry} {need : Nat} {window left : Bits} {out : List Sym}
    (h : DecodesTo table need window out left true) : left ≠ [] := by
  generalize hs : true = stopped at h
  induction h with
  | held => cases hs
  | stop window hne => exact hne
  | take _ _ _ _ _ _ _ _ _ _ _ ih => exact ih hs

/-- Bits are held back only while they decide no position. -/
theorem DecodesTo.left_undecided {table : List Entry} {need : Nat} {window left : Bits} {out : List Sym}
    (h : DecodesTo table need window out left false) : left = [] ∨ left.length < need := by
  generalize hs : false = stopped at h
  induction h with
  | held window h => exact h
  | stop => cases hs
  | take _ _ _ _ _ _ _ _ _ _ _ ih => exact ih hs

/-- The bits of an open stream are consumed or in the window: what UPB and UPE meet when they decode. -/
structure WindowCounted (s : State) : Prop where
  running : s.ustop = false
  counted : s.uused.toNat + s.ubuf.length = s.uin.toNat

/-- `Drain` of such a window: what it leaves is what `UIN` counts above `UUSED`. -/
theorem WindowCounted.drain {s : State} (h : WindowCounted s) (inv : TableInv s.table) (final : Bool) :
    ∃ out left stopped, DecodesTo s.table (drainNeed final s) s.ubuf out left stopped ∧
      drain final s = { s with
        ubuf := if stopped then [] else left, ustop := stopped,
        uused := BitVec.ofNat 32 (s.uin.toNat - left.length), uout := s.uout ++ out } := by
  obtain ⟨out, left, stopped, hdec, hdrain⟩ := drain_spec final s (fun e he => (inv.codes e he).1) h.running
  refine ⟨out, left, stopped, hdec, ?_⟩
  have hleft := hdec.left_length
  have hcounted := h.counted
  have hused : s.uused.toNat + (s.ubuf.length - left.length) = s.uin.toNat - left.length := by omega
  rw [hdrain, count_add, hused]

/-- After `Drain` the stream stays open, or it ends and `Drain` was the last. -/
theorem WindowCounted.unpackInv {s : State} (h : WindowCounted s) (inv : TableInv s.table) {final active : Bool}
    (hlimited : active = true → s.limen = true → s.uin.toNat ≤ s.ulim.toNat)
    (hfinal : active = false → final = true) :
    UnpackInv { Machine.drain final s with uactive := active } := by
  obtain ⟨out, left, stopped, hdec, hdrain⟩ := h.drain inv final
  have hle : left.length ≤ s.uin.toNat := by
    have := hdec.left_length
    have := h.counted
    omega
  have huin := s.uin.isLt
  rw [hdrain]
  cases stopped with
  | true =>
    have hpos : 0 < left.length := List.length_pos_iff.mpr hdec.left_ne_nil
    refine ⟨?_, Nat.zero_le _, fun _ => rfl, fun _ => rfl, nofun, hlimited, fun _ => ?_, nofun⟩ <;>
      simp only [BitVec.toNat_ofNat] <;> omega
  | false =>
    have hheld := hdec.left_undecided
    have hempty (hclosed : active = false) : left = [] := by
      rw [hfinal hclosed] at hheld
      exact hheld.resolve_right (Nat.not_lt_zero _)
    refine ⟨?used, ?window, hempty, nofun, fun _ _ => ?counted, hlimited, nofun, fun hclosed _ => ?whole⟩
    case used => simp only [BitVec.toNat_ofNat]; omega
    case window =>
      have hneed : drainNeed final s ≤ tmaxlen s := by cases final <;> simp [drainNeed]
      change left.length ≤ max (tmaxlen s) 1 - 1
      obtain rfl | hlt := hheld
      · exact Nat.zero_le _
      · omega
    case counted =>
      simp only [BitVec.toNat_ofNat, Bool.false_eq_true, if_false]
      omega
    case whole => simp [hempty hclosed]

theorem counting_uin {s : State} (hroom : unpackBase s + unpackTake s ≤ 2 ^ 32 - 1) :
    (counting s).uin.toNat = unpackBase s + unpackTake s :=
  Nat.mod_eq_of_lt (by omega)

section
variable {s : State} (inv : UnpackInv s) (hroom : unpackBase s + unpackTake s ≤ 2 ^ 32 - 1)
include inv

theorem UnpackInv.base_le_limit (hon : s.limen = true) : unpackBase s ≤ s.ulim.toNat := by
  cases hactive : s.uactive with
  | true => simpa [unpackBase, hactive] using inv.limited hactive hon
  | false => simp [unpackBase, hactive]

include hroom

theorem UnpackInv.counting_limited (hon : s.limen = true) : (counting s).uin.toNat ≤ s.ulim.toNat := by
  have hbase := inv.base_le_limit hon
  have htake : unpackTake s = min 8 (s.ulim.toNat - unpackBase s) := if_pos hon
  rw [counting_uin hroom]
  omega

/-- The accepted bits join the window as they are counted (R121). -/
theorem UnpackInv.counting_window (hstop : (counting s).ustop = false) (byte : Byte) :
    WindowCounted { counting s with ubuf := s.ubuf ++ (msbFirst byte).take (unpackTake s) } := by
  refine ⟨hstop, ?_⟩
  change (counting s).uused.toNat + (s.ubuf ++ _).length = (counting s).uin.toNat
  rw [counting_uin hroom, List.length_append, accepted_length]
  cases hactive : s.uactive with
  | true =>
    have hcounted := inv.counted hactive (by simpa [counting, hactive] using hstop)
    simp only [counting, hactive, unpackBase, if_true]
    omega
  | false => simp [counting, hactive, unpackBase, inv.idle hactive]

/-- After a stop the accepted bits are only counted (R124). -/
theorem UnpackInv.counting_stopped (hstop : (counting s).ustop = true) : UnpackInv (counting s) := by
  have hactive : s.uactive = true := by
    by_contra hidle
    simp [counting, hidle] at hstop
  have hstopped : s.ustop = true := by simpa [counting, hactive] using hstop
  have hused : (counting s).uused = s.uused := by simp [counting, hactive]
  have hbase : unpackBase s = s.uin.toNat := by simp [unpackBase, hactive]
  have huin := counting_uin hroom
  have hearly := inv.stoppedEarly hstopped
  refine ⟨?_, inv.window, nofun, fun _ => inv.stopped hstopped, fun _ h => ?_,
    fun _ => inv.counting_limited hroom, fun _ => ?_, nofun⟩
  · rw [hused]; omega
  · exact absurd h (by simp [hstop])
  · rw [hused]; omega

end

theorem with_uactive_self {s : State} {active : Bool} (h : s.uactive = active) : { s with uactive := active } = s := by
  rw [← h]

theorem UnpackInv.accepted {s : State} (inv : UnpackInv s) (htable : TableInv s.table)
    (hroom : unpackBase s + unpackTake s ≤ 2 ^ 32 - 1) (byte : Byte) :
    UnpackInv (acceptBits ((msbFirst byte).take (unpackTake s)) (counting s)) := by
  cases hstop : (counting s).ustop with
  | true =>
    rw [acceptBits_stopped hstop]
    exact inv.counting_stopped hroom hstop
  | false =>
    have hinv := (inv.counting_window hroom hstop byte).unpackInv htable (final := false) (active := true)
      (fun _ => inv.counting_limited hroom) nofun
    rw [acceptBits_running hstop]
    exact (congrArg UnpackInv (with_uactive_self (drain_uactive _ _))).mp hinv

theorem UnpackInv.ended {s : State} (inv : UnpackInv s) (htable : TableInv s.table) (hactive : s.uactive = true) :
    UnpackInv { drain true s with uactive := false } := by
  cases hstop : s.ustop with
  | true =>
    rw [drain_stopped true hstop]
    have hempty := inv.stopped hstop
    exact ⟨inv.used, inv.window, fun _ => hempty, inv.stopped, nofun, nofun, inv.stoppedEarly,
      fun _ h => absurd h (by simp [hstop])⟩
  | false => exact WindowCounted.unpackInv ⟨hstop, inv.counted hactive hstop⟩ htable nofun fun _ => rfl

/-! ### What UPB and UPE leave alone (R28, R32) -/

theorem acceptBits_counting_frame (bits : Bits) (s : State) :
    acceptBits bits (counting s) = { s with
      ubuf := (acceptBits bits (counting s)).ubuf, uactive := (acceptBits bits (counting s)).uactive,
      ustop := (acceptBits bits (counting s)).ustop, uin := (acceptBits bits (counting s)).uin,
      uused := (acceptBits bits (counting s)).uused, uout := (acceptBits bits (counting s)).uout } := by
  obtain ⟨_, hframe⟩ := acceptBits_frame bits (counting s)
  rw [hframe]
  rfl

theorem ended_frame (s : State) :
    { drain true s with uactive := false } = { s with
      ubuf := (drain true s).ubuf, uactive := false, ustop := (drain true s).ustop, uin := (drain true s).uin,
      uused := (drain true s).uused, uout := (drain true s).uout } := by
  obtain ⟨_, hframe⟩ := drain_frame true s
  rw [hframe]

theorem StateInv.of_unpackInv {s t : State} (inv : StateInv s) (hunpack : UnpackInv t)
    (hframe : t = { s with
      ubuf := t.ubuf, uactive := t.uactive, ustop := t.ustop, uin := t.uin, uused := t.uused, uout := t.uout }) :
    StateInv t := by
  refine ⟨?_, ?_, ?_, hunpack, ?_⟩ <;> rw [hframe]
  · exact inv.table
  · exact inv.capacity.of_eq rfl rfl
  · exact inv.pack.of_eq rfl rfl rfl
  · exact inv.fault

/-! ### Every command, every step -/

theorem Effect.keeps_stateInv {i : Instr} {s t : State} (inv : StateInv s) (h : Effect s i t) : StateInv t := by
  cases h with
  | ignored | nothing => exact inv
  | cleared => exact .of_reset inv.capacity.capacity _ _ _
  | faulted _ e _ he => exact inv.recorded he _
  | loaded _ _ _ _ hsym hcode _ _ hfresh hroom => exact inv.loaded hsym hcode hfresh hroom
  | packed _ _ _ _ _ _ _ hstream hpending =>
    exact ⟨inv.table, inv.capacity.of_eq rfl rfl, inv.pack.packed hstream hpending _, inv.unpack.with_others,
      inv.fault⟩
  | flushed =>
    exact ⟨inv.table, inv.capacity.of_eq rfl rfl, ⟨Nat.zero_le _, fun _ => rfl, nofun⟩, inv.unpack.with_others,
      inv.fault⟩
  | accepted byte _ hroom =>
    exact inv.of_unpackInv (inv.unpack.accepted inv.table hroom byte) (acceptBits_counting_frame _ s)
  | ended _ hactive =>
    exact inv.of_unpackInv (inv.unpack.ended inv.table hactive) (ended_frame s)
  | limited en limit herr hidle =>
    obtain ⟨hused, hwindow, hempty, hstopped, hcounted, hlimited, hearly, hwhole⟩ := inv.unpack
    exact ⟨inv.table, inv.capacity.of_eq rfl rfl, inv.pack.of_eq rfl rfl rfl,
      ⟨hused, hwindow, hempty, hstopped, hcounted, fun h => absurd h (by simp [hidle]), hearly, hwhole⟩, inv.fault⟩

theorem exec_keeps_stateInv {i : Instr} {s t : State} (inv : StateInv s) (hexec : exec i s = .next t) :
    StateInv t := (exec_cases hexec).keeps_stateInv inv

/-! ### The statements -/

/-- Settles O43: the reset state of every capacity. -/
theorem invariantHoldsAtReset : Obligations.InvariantHoldsAtReset :=
  fun _ input hn => .of_reset hn input [] []

/-- Settles O44: reset, every command, and the recording of an illegal word keep the invariants. -/
theorem everyStepKeepsTheInvariant : Obligations.EveryStepKeepsTheInvariant := fun _ _ inv hstep =>
  step_preserves hstep inv inv.with_input (fun rest => .of_reset inv.capacity.capacity rest [] [])
    (fun _ _ _ => exec_keeps_stateInv) fun _ w hu _ _ => hu.recorded (by decide) w

end Sys2Proof.Machine
end

section
/-! SUPPORT. Slots, prefix-free tables and whole decodings (10_state.md rule R24, 20_memory.md rules R61 and R62,
42_unpacker.md rules R122 to R128, 70_reset_and_hazards.md rule R194), and the statements settled with them. -/

namespace Sys2Proof.Machine

/-! ### Slots (R23, R24) -/

theorem slotAt_of_getElem? {s : State} {i : Nat} {e : Entry} (h : s.table[i]? = some e) :
    slotAt s i = (true, e) := by
  rw [slotAt, h]

theorem slotAt_of_none {s : State} {i : Nat} (h : s.table[i]? = none) : slotAt s i = (false, ⟨0, 0, 0⟩) := by
  rw [slotAt, h]

/-- Settles O16: a slot reads the table's list, which has an element at the indices below its length. -/
theorem slotValidExactlyBelowTcount : Obligations.SlotValidExactlyBelowTcount := by
  intro s i
  cases h : s.table[i]? with
  | none =>
    have hlen : ¬ i < tcount s := Nat.not_lt.mpr (List.getElem?_eq_none_iff.mp h)
    simp [slotAt_of_none h, hlen]
  | some e =>
    obtain ⟨hlen, -⟩ := List.getElem?_eq_some_iff.mp h
    rw [slotAt_of_getElem? h]
    refine ⟨iff_of_true rfl hlen, ?_⟩
    rintro _ ⟨⟩
    exact List.mem_of_getElem? h

/-! ### Prefix-free tables (R62) -/

/-- Two codes of a prefix-free table that start one window are one entry. -/
theorem PrefixFree.eq_of_prefix {table : List Entry} (hfree : PrefixFree table) {a b : Entry} (ha : a ∈ table)
    (hb : b ∈ table) (h : a.string <+: b.string) : a = b := by
  by_contra hne
  have : Std.Symm fun a b : Entry => ¬ a.string <+: b.string ∧ ¬ b.string <+: a.string :=
    ⟨fun _ _ hab => hab.symm⟩
  exact (hfree.forall ha hb hne).1 h

theorem PrefixFree.eq_of_match {table : List Entry} (hfree : PrefixFree table) {a b : Entry} (ha : a ∈ table)
    (hb : b ∈ table) {buf : Bits} (hpa : a.string <+: buf) (hpb : b.string <+: buf) : a = b := by
  obtain h | h := List.prefix_or_prefix_of_prefix hpa hpb
  · exact hfree.eq_of_prefix ha hb h
  · exact (hfree.eq_of_prefix hb ha h).symm

theorem PrefixFree.longestMatch {table : List Entry} (hfree : PrefixFree table) {buf : Bits} {e : Entry}
    (he : e ∈ table) (hpre : e.string <+: buf) : LongestMatch table buf e :=
  ⟨he, hpre, fun e' he' hpre' => by rw [hfree.eq_of_match he' he hpre' hpre]⟩

/-- Settles O20: `Match` finds some entry, and any entry that matches is this one. -/
theorem prefixFreeTableHasOneMatch : Obligations.PrefixFreeTableHasOneMatch := by
  intro table buf e hfree he hpre
  have hunique : ∀ e' ∈ table, e'.string <+: buf → e' = e :=
    fun e' he' hpre' => hfree.eq_of_match he' he hpre' hpre
  refine ⟨?_, hunique⟩
  cases h : matchLongest table buf with
  | none => exact absurd hpre (matchLongest_none_iff.mp h e he)
  | some e' =>
    obtain ⟨hmem, hpre', -⟩ := matchLongest_some h
    rw [hunique e' hmem hpre']

/-! ### A decided position (R123, R128) -/

/-- `Match` sees of a window only which codes are its prefixes. -/
theorem matchLongest_congr {table : List Entry} {buf buf' : Bits}
    (h : ∀ e ∈ table, e.string <+: buf ↔ e.string <+: buf') :
    matchLongest table buf = matchLongest table buf' := by
  induction table with
  | nil => rfl
  | cons a rest ih =>
    obtain ⟨ha, hrest⟩ := List.forall_mem_cons.mp h
    have hmatches : matchesAt buf a = matchesAt buf' a := by
      rw [Bool.eq_iff_iff, matchesAt_iff, matchesAt_iff, ha]
    rw [matchLongest, matchLongest, hmatches, ih hrest]

/-- Settles O21: no code is longer than the window, so no code sees the bits behind it. -/
theorem matchOfDecidedPositionIsFinal : Obligations.MatchOfDecidedPositionIsFinal :=
  fun _ _ more hdecided => matchLongest_congr fun _ => string_prefix_append_iff hdecided more

/-! ### One outcome (R61, R190) -/

/-- Settles O30, by the decoding's steps: the head of a window is held, or no code matches it, or one longest
code does. -/
theorem decodingIsDetermined : Obligations.DecodingIsDetermined := by
  intro table need window out out' left left' stopped stopped' inv h h'
  induction h generalizing out' left' stopped' with
  | held window hheld =>
    cases h' with
    | held => exact ⟨rfl, rfl, rfl⟩
    | stop _ hne hlen => exact absurd hheld (not_or.mpr ⟨hne, Nat.not_lt.mpr hlen⟩)
    | take _ _ _ _ _ _ hne hlen => exact absurd hheld (not_or.mpr ⟨hne, Nat.not_lt.mpr hlen⟩)
  | stop window hne hlen hnone =>
    cases h' with
    | held _ hheld => exact absurd hheld (not_or.mpr ⟨hne, Nat.not_lt.mpr hlen⟩)
    | stop => exact ⟨rfl, rfl, rfl⟩
    | take e _ _ _ _ _ _ _ hmatch => exact absurd hmatch.2.1 (hnone e hmatch.1)
  | take e window rest left out stopped hne hlen hmatch hsplit _ ih =>
    cases h' with
    | held _ hheld => exact absurd hheld (not_or.mpr ⟨hne, Nat.not_lt.mpr hlen⟩)
    | stop _ _ _ hnone => exact absurd hmatch.2.1 (hnone e hmatch.1)
    | take e' _ rest' _ out' _ _ _ hmatch' hsplit' hdec' =>
      obtain rfl := hmatch.unique inv hmatch'
      obtain rfl := List.append_cancel_left (hsplit.symm.trans hsplit')
      obtain ⟨rfl, hrest⟩ := ih _ _ _ hdec'
      exact ⟨rfl, hrest⟩

/-! ### `DecodeAll` (R128) -/

theorem decodeAllLoop_decodes {table : List Entry} (hcodes : ∀ e ∈ table, 1 ≤ e.len.toNat) (fuel : Nat) (s : Bits)
    (hfuel : s.length ≤ fuel) :
    DecodesTo table 0 s (decodeAllLoop table fuel s).1 (decodeAllLoop table fuel s).2
      (!(decodeAllLoop table fuel s).2.isEmpty) := by
  induction fuel generalizing s with
  | zero =>
    obtain rfl := List.length_eq_zero_iff.mp (Nat.le_zero.mp hfuel)
    exact .held [] (.inl rfl)
  | succ fuel ih =>
    rw [decodeAllLoop]
    split
    next hnone =>
      cases s with
      | nil => exact .held [] (.inl rfl)
      | cons b s => exact .stop _ (by simp) (Nat.zero_le _) (matchLongest_none_iff.mp hnone)
    next e hsome =>
      have hmatch := matchLongest_some hsome
      have hpos := hcodes e hmatch.1
      have hlen := hmatch.2.1.length_le
      rw [codeString_length] at hlen
      have hrest := ih (s.drop e.len.toNat) (by rw [List.length_drop]; omega)
      have hne : s ≠ [] := by
        rintro rfl
        simp at hlen
        omega
      exact .take e s _ _ _ _ hne (Nat.zero_le _) hmatch hmatch.split hrest

/-- Settles O31: a round for every bit is enough, because every code has one. -/
theorem decodeAllRepeatsTheLongestMatch : Obligations.DecodeAllRepeatsTheLongestMatch :=
  fun _ s hcodes => decodeAllLoop_decodes hcodes s.length s le_rfl

/-! ### Padding zeros (R194) -/

theorem zeros_append (m n : Nat) : zeros (m + n) = zeros m ++ zeros n := List.replicate_add m n false

theorem valOf_zeros (n : Nat) : valOf (zeros n) = 0 := by
  induction n with
  | zero => rfl
  | succ n ih =>
    change false.toNat * 2 ^ (zeros n).length + valOf (zeros n) = 0
    simp [ih]

theorem codeString_zero (len : CodeLen) : codeString len 0 = zeros len.toNat := by
  simp [codeString, zeros, List.ofFn_const]

/-- A code that starts a run of zeros is the all-zeros code of its length. -/
theorem code_eq_zero_of_prefix_zeros {len : CodeLen} {code : CodeWord} (hlegal : CodeLegal len code) {p : Nat}
    (h : codeString len code <+: zeros p) : code = 0 := by
  have hzeros : codeString len code = zeros len.toNat := by
    obtain ⟨-, heq⟩ := List.prefix_replicate_iff.mp h
    rwa [codeString_length] at heq
  have hval := valOf_codeString hlegal
  rw [hzeros, valOf_zeros] at hval
  exact BitVec.eq_of_toNat_eq hval.symm

/-- Codes at the head of a stream are decoded one by one, whatever follows them. -/
theorem PrefixFree.decodes_codes {table : List Entry} (hfree : PrefixFree table) (inv : TableInv table)
    {es : List Entry} (hes : ∀ e ∈ es, e ∈ table) {rest left : Bits} {out : List Sym} {stopped : Bool}
    (h : DecodesTo table 0 rest out left stopped) :
    DecodesTo table 0 (es.flatMap Entry.string ++ rest) (es.map Entry.sym ++ out) left stopped := by
  induction es with
  | nil => exact h
  | cons e es ih =>
    obtain ⟨he, hes⟩ := List.forall_mem_cons.mp hes
    obtain ⟨hpos, -⟩ := inv.codes e he
    rw [List.flatMap_cons, List.append_assoc]
    refine .take e _ _ _ _ _ ?_ (Nat.zero_le _) (hfree.longestMatch he (List.prefix_append _ _)) rfl (ih hes)
    rw [← List.length_pos_iff, List.length_append, codeString_length]
    omega

/-- Zeros that start no code are the residual. -/
theorem decodes_zeros_residual {table : List Entry} {p : Nat} (h : ∀ e ∈ table, ¬ e.string <+: zeros p) :
    ∃ stopped, DecodesTo table 0 (zeros p) [] (zeros p) stopped := by
  cases p with
  | zero => exact ⟨false, .held _ (.inl rfl)⟩
  | succ p => exact ⟨true, .stop _ (by simp [zeros, List.replicate_succ]) (Nat.zero_le _) h⟩

theorem PrefixFree.no_code_in_short_zeros {table : List Entry} (hfree : PrefixFree table)
    {z : Entry} (hz : z ∈ table) (hcode : z.code = 0) {p : Nat} (hp : p < z.len.toNat) :
    ∀ e ∈ table, ¬ e.string <+: zeros p := by
  intro e he hpre
  have hzeros : z.string = zeros p ++ zeros (z.len.toNat - p) := by
    rw [Entry.string, hcode, codeString_zero, ← zeros_append, Nat.add_sub_cancel' hp.le]
  have hsame : e = z := hfree.eq_of_prefix he hz (by rw [hzeros]; exact hpre.trans (List.prefix_append _ _))
  have hlen := hpre.length_le
  rw [hsame, codeString_length, zeros_length] at hlen
  omega

theorem flatMap_zero_code {z : Entry} (hcode : z.code = 0) (n : Nat) :
    (List.replicate n z).flatMap Entry.string = zeros (n * z.len.toNat) := by
  induction n with
  | zero => simp [zeros]
  | succ n ih =>
    rw [List.replicate_succ, List.flatMap_cons, ih, Entry.string, hcode, codeString_zero, ← zeros_append]
    congr 1
    ring

/-- Settles O34: the padding is copies of the all-zeros code and fewer zeros than it has, or the residual. -/
theorem paddingZerosDecodeAsTheAllZerosCode : Obligations.PaddingZerosDecodeAsTheAllZerosCode := by
  intro table es p inv hfree hes stream
  refine ⟨fun z hz hcode => ?_, fun hnone => ?_⟩
  · obtain ⟨hpos, -⟩ := inv.codes z hz
    have hmod : p % z.len.toNat < z.len.toNat := Nat.mod_lt _ hpos
    obtain ⟨stopped, hrest⟩ := decodes_zeros_residual (hfree.no_code_in_short_zeros hz hcode hmod)
    have hsplit : stream =
        (es ++ List.replicate (p / z.len.toNat) z).flatMap Entry.string ++ zeros (p % z.len.toNat) := by
      rw [List.flatMap_append, flatMap_zero_code hcode, List.append_assoc, ← zeros_append,
        Nat.mul_comm, Nat.div_add_mod]
    have hall : ∀ e ∈ es ++ List.replicate (p / z.len.toNat) z, e ∈ table :=
      List.forall_mem_append.mpr ⟨hes, fun e he => List.eq_of_mem_replicate he ▸ hz⟩
    have hdec := hfree.decodes_codes inv hall hrest
    rw [← hsplit, List.append_nil, List.map_append, List.map_replicate] at hdec
    exact hdec.decodeAll_eq inv
  · have hzeros : ∀ e ∈ table, ¬ e.string <+: zeros p := fun e he hpre =>
      hnone e he (code_eq_zero_of_prefix_zeros (inv.codes e he) hpre)
    obtain ⟨stopped, hrest⟩ := decodes_zeros_residual hzeros
    have hdec := hfree.decodes_codes inv hes hrest
    rw [List.append_nil] at hdec
    exact hdec.decodeAll_eq inv

end Sys2Proof.Machine
end

section
/-! SUPPORT. The remaining registers (10_state.md rules R36 to R45) and the text's round trip through the block
(42_unpacker.md rules R127 and R131, 43_host_sequences.md rule R150), and the statements settled with them. -/

namespace Sys2Proof.Machine

/-! ### Registers (R33 to R45) -/

theorem regRead_err (s : State) : regRead s 1 = BitVec.ofNat 32 (errNumber s.err) := rfl

theorem regRead_tmaxlen (s : State) : regRead s 5 = BitVec.ofNat 32 (tmaxlen s) := rfl

theorem regRead_ucnt (s : State) : regRead s 11 = 0#26 ++ BitVec.ofNat 6 s.ubuf.length := rfl

theorem errNumber_le (e : ErrCode) : errNumber e ≤ 8 := by cases e <;> decide

theorem regRead_err_eq_zero_iff (s : State) : regRead s 1 = 0 ↔ s.err = .noError := by
  rw [regRead_err]
  cases s.err <;> decide

theorem TableInv.maxLen_le_lMax {table : List Entry} (inv : TableInv table) : maxLen table ≤ 32 :=
  maxLen_le fun e he => (inv.codes e he).2.1

theorem StateInv.window_le {s : State} (inv : StateInv s) : s.ubuf.length ≤ 31 := by
  have hwindow := inv.unpack.window
  have hmax : tmaxlen s ≤ 32 := inv.table.maxLen_le_lMax
  omega

theorem regRead_unassigned (s : State) {r : BitVec 4} (h : 12 ≤ r.toNat) : regRead s r = 0 := by
  unfold regRead
  split
  case h_13 => rfl
  all_goals omega

/-- Settles O37, register by register. -/
theorem registersShowTheState : Obligations.RegistersShowTheState := by
  intro s inv
  have hmax : (regRead s 5).toNat = maxLen s.table := by
    have : tmaxlen s ≤ 32 := inv.table.maxLen_le_lMax
    exact Nat.mod_eq_of_lt (by omega)
  have hcode {e : ErrCode} (h : s.err = e) : regRead s 1 = BitVec.ofNat 32 (errNumber e) := h ▸ rfl
  have hcount : tcount s ≤ s.nEntries := inv.capacity.count
  obtain ⟨-, hcap⟩ := inv.capacity.capacity
  refine ⟨(regRead_err_eq_zero_iff s).symm, ?err, hcode, hcode, hcode, hcode, hcode, hcode, hcode, hcode, ?errcmd,
    ?tcount, ⟨?longest, ?attained, ?empty⟩, rfl, rfl, rfl, rfl, ?ucnt, inv.window_le,
    fun _ => regRead_unassigned s⟩
  case err =>
    have := errNumber_le s.err
    exact (Nat.mod_le _ _).trans this
  case errcmd =>
    exact (BitVec.extractLsb'_append_extractLsb'_eq_extractLsb' rfl).trans BitVec.extractLsb'_eq_self
  case tcount => exact Nat.mod_eq_of_lt (by omega)
  case longest => exact fun e he => hmax ▸ le_maxLen he
  case attained => exact fun hne => hmax ▸ maxLen_mem hne
  case empty =>
    intro hnil
    rw [regRead_tmaxlen, tmaxlen, hnil]
    rfl
  case ucnt =>
    have := inv.window_le
    rw [regRead_ucnt, BitVec.toNat_append, BitVec.toNat_ofNat, BitVec.toNat_ofNat, Nat.zero_mod, Nat.zero_shiftLeft,
      Nat.zero_or]
    exact Nat.mod_eq_of_lt (by omega)

/-! ### `USTOP` after UPE (R127) -/

/-- Settles O33: the invariants of the state after UPE say it of the counters. -/
theorem ustopTellsTheResidual : Obligations.UstopTellsTheResidual := by
  intro s t inv herr hactive hexec
  have hend : t = { drain true s with uactive := false } := by
    have hupe : exec .upe s = _ := execUpe_running herr
    rw [hupe, if_pos hactive] at hexec
    exact (Host.Outcome.next.inj hexec).symm
  have hunpack : UnpackInv t := hend ▸ inv.unpack.ended inv.table hactive
  have hidle : t.uactive = false := by rw [hend]
  refine ⟨hunpack.idle hidle, by simp [hend], by simp [hend], by simp [hend], ?_⟩
  change t.ustop = true ↔ 0 < t.uin.toNat - t.uused.toNat
  cases hstop : t.ustop with
  | true =>
    have := hunpack.stoppedEarly hstop
    simp only [true_iff]
    omega
  | false =>
    have := hunpack.closedWhole hidle hstop
    simp [this]

/-! ### Runs of commands (R63) -/

theorem runCommands_keeps_stateInv {commands : List Instr} {s t : State} (inv : StateInv s)
    (h : runCommands commands s = .next t) : StateInv t := by
  induction commands generalizing s with
  | nil =>
    cases h
    exact inv
  | cons i rest ih =>
    obtain ⟨s', hexec, -⟩ := exec_effect i s
    rw [runCommands_cons hexec] at h
    exact ih (exec_keeps_stateInv inv hexec) h

/-! ### A text and its codes (R131, R150) -/

theorem exists_entries_of_text {table : List Entry} {text : List Sym}
    (h : ∀ sym ∈ text, ∃ e ∈ table, e.sym = sym) :
    ∃ es : List Entry, (∀ e ∈ es, e ∈ table) ∧ es.map Entry.sym = text := by
  induction text with
  | nil => exact ⟨[], nofun, rfl⟩
  | cons sym text ih =>
    obtain ⟨⟨e, he, hsym⟩, hrest⟩ := List.forall_mem_cons.mp h
    obtain ⟨es, hes, rfl⟩ := ih hrest
    exact ⟨e :: es, List.forall_mem_cons.mpr ⟨he, hes⟩, by rw [List.map_cons, hsym]⟩

section
variable {table es : List Entry} (inv : TableInv table) (hes : ∀ e ∈ es, e ∈ table)
include inv hes

theorem packs_of_entries : List.Forall₂ (Packs table) (packText (es.map Entry.sym)) (es.map Entry.string) := by
  rw [packText, List.map_map, List.forall₂_map_left_iff, List.forall₂_map_right_iff, List.forall₂_same]
  exact fun e he => .pks e (hes e he) (inv.syms e (hes e he))

theorem codes_length_le : (es.map Entry.string).flatten.length ≤ 32 * es.length := by
  induction es with
  | nil => exact le_rfl
  | cons e es ih =>
    obtain ⟨he, hes⟩ := List.forall_mem_cons.mp hes
    obtain ⟨-, hlen, -⟩ := inv.codes e he
    have hrest := ih hes
    rw [List.map_cons, List.flatten_cons, List.length_append, codeString_length, List.length_cons]
    omega

theorem codes_length_pos (hne : es ≠ []) : 0 < (es.map Entry.string).flatten.length := by
  cases es with
  | nil => exact absurd rfl hne
  | cons e es =>
    obtain ⟨hpos, -⟩ := inv.codes e (hes e List.mem_cons_self)
    rw [List.map_cons, List.flatten_cons, List.length_append, codeString_length]
    omega

/-- The codes of entries of a prefix-free table decode to the entries' symbols, with nothing left. -/
theorem PrefixFree.decodeAll_codes (hfree : PrefixFree table) :
    decodeAll table (es.map Entry.string).flatten = (es.map Entry.sym, []) := by
  have hdec := hfree.decodes_codes inv hes (.held [] (.inl rfl))
  rw [List.append_nil, List.append_nil, List.flatMap_def] at hdec
  exact hdec.decodeAll_eq inv

end

/-- The bit limit cuts the padding off (R151). -/
theorem take_payload_bits (codes : List Bits) :
    ((payloadOf codes).flatMap msbFirst).take codes.flatten.length = codes.flatten := by
  rw [flatMap_msbFirst_payloadOf, padToByte, List.take_left]

/-- Unpacking a payload under its exact bit count gives its symbols, all bits used. -/
theorem runCommands_unpacks {s : State} (inv : StateInv s) (hfree : PrefixFree s.table) (herr : s.err = .noError)
    (hidle : s.uactive = false) {es : List Entry} (hne : es ≠ []) (hes : ∀ e ∈ es, e ∈ s.table) {limit : Count}
    (hlimit : limit.toNat = (es.map Entry.string).flatten.length) :
    runCommands (.ulm true limit :: unpackBytes (payloadOf (es.map Entry.string)) ++ [.upe]) s = .next { s with
      limen := true, ulim := limit, ubuf := [], uactive := false, ustop := false, uin := limit, uused := limit,
      uout := s.uout ++ es.map Entry.sym } := by
  have hbytes : payloadOf (es.map Entry.string) ≠ [] := by
    have := codes_length_pos inv.table hes hne
    rw [← List.length_pos_iff, payloadOf_length]
    omega
  have hulm := exec_ulm_idle herr hidle true limit
  have hrun := unpackStreamDecodesTheWholePayload _ _ hbytes (exec_keeps_stateInv inv hulm) herr hidle nofun
  simp only [if_true, hlimit, take_payload_bits, hfree.decodeAll_codes inv.table hes] at hrun
  rw [List.cons_append, runCommands_cons hulm]
  refine hrun.trans ?_
  simp [← hlimit]

/-- Settles O35: the packed payload is the codes', and under the limit `PBITS` it decodes to the text. -/
theorem unpackingInvertsPacking : Obligations.UnpackingInvertsPacking := by
  intro text s hne inv hfree herr hpack hunpack htext hsize
  obtain ⟨es, hes, rfl⟩ := exists_entries_of_text htext
  have hne : es ≠ [] := fun h => hne (by rw [h]; rfl)
  have hbits : (es.map Entry.string).flatten.length ≤ 2 ^ 32 - 1 := by
    have := codes_length_le inv.table hes
    rw [List.length_map] at hsize
    omega
  have hcount : (BitVec.ofNat 32 (es.map Entry.string).flatten.length).toNat =
      (es.map Entry.string).flatten.length := Nat.mod_eq_of_lt (by omega)
  have hcommands : packText (es.map Entry.sym) ≠ [] := by simpa [packText] using hne
  obtain ⟨hrun, hlen, -⟩ := packStreamEmitsThePayload _ _ s (packs_of_entries inv.table hes) hcommands inv.table
    herr hpack (inv.pack.idle hpack) hbits
  have hback := runCommands_unpacks (runCommands_keeps_stateInv inv hrun) hfree herr hunpack hne hes hcount
  exact ⟨_, _, _, hrun, rfl, herr, by rw [hlen, hcount], hback, rfl, rfl, rfl, herr⟩

end Sys2Proof.Machine
end

section
/-! SUPPORT. Frames, flags, bounds and counters (10_state.md rules R26 to R32, 20_memory.md rules R67 and R68,
60_exceptions.md rules R172 and R178): what a packing, an unpacking or any command can change and by how much,
and the statements settled with that. -/

namespace Sys2Proof.Machine

/-! ### Frames (R26, R28, R63) -/

/-- `t` differs from `s` in the packer's elements, `pout` and the fault registers at most. -/
def PackFrame (s t : State) : Prop :=
  t = { s with
    pacc := t.pacc, pactive := t.pactive, pbits := t.pbits, pout := t.pout, err := t.err, errcmd := t.errcmd }

/-- `t` differs from `s` in the unpacker's elements, `uout` and the fault registers at most. -/
def UnpackFrame (s t : State) : Prop :=
  t = { s with
    ubuf := t.ubuf, uactive := t.uactive, ustop := t.ustop, limen := t.limen, ulim := t.ulim, uin := t.uin,
    uused := t.uused, uout := t.uout, err := t.err, errcmd := t.errcmd }

theorem acceptBits_unpackFrame (bits : Bits) (s : State) : UnpackFrame s (acceptBits bits (counting s)) := by
  unfold UnpackFrame
  obtain ⟨_, hframe⟩ := acceptBits_frame bits (counting s)
  rw [hframe]
  rfl

theorem drain_unpackFrame (final active : Bool) (s : State) :
    UnpackFrame s { drain final s with uactive := active } := by
  unfold UnpackFrame
  obtain ⟨_, hframe⟩ := drain_frame final s
  rw [hframe]

section
variable {i : Instr} {s t : State}

theorem Effect.packFrame (h : Effect s i t) (hi : isPackCommand i = true) : PackFrame s t := by
  cases h with
  | nothing | ignored | faulted | packed | flushed => rfl
  | _ => nomatch hi

theorem Effect.unpackFrame (h : Effect s i t) (hi : isUnpackCommand i = true) : UnpackFrame s t := by
  cases h with
  | nothing | ignored | faulted | limited => rfl
  | accepted => exact acceptBits_unpackFrame _ s
  | ended => exact drain_unpackFrame true false s
  | packed _ _ _ _ _ hcode => obtain ⟨_, _, rfl, -⟩ | ⟨_, rfl, -⟩ := hcode <;> nomatch hi
  | _ => nomatch hi

/-- Only ULM and CLR write the bit limit (R32). -/
theorem Effect.limit_kept (h : Effect s i t) (hclr : i ≠ .clr) (hulm : ∀ en limit, i ≠ .ulm en limit) :
    t.limen = s.limen ∧ t.ulim = s.ulim := by
  cases h with
  | cleared => exact absurd rfl hclr
  | limited en limit => exact absurd rfl (hulm en limit)
  | accepted => simp [acceptBits_eq_drain]
  | ended => simp
  | ignored | nothing | faulted | loaded | packed | flushed => exact ⟨rfl, rfl⟩

/-- PKF raises no fault and keeps the count (R114). -/
theorem exec_pkf_keeps (hexec : exec .pkf s = .next t) :
    t.pbits = s.pbits ∧ t.err = s.err ∧ t.errcmd = s.errcmd := by
  by_cases herr : s.err = .noError
  · have hpkf : exec .pkf s = _ := execPkf_running herr
    cases hexec.symm.trans hpkf
    split <;> exact ⟨rfl, rfl, rfl⟩
  · cases hexec.symm.trans (exec_faulted herr .pkf nofun)
    exact ⟨rfl, rfl, rfl⟩

/-- UPE raises no fault and keeps the count of accepted bits (R127). -/
theorem exec_upe_keeps (hexec : exec .upe s = .next t) :
    t.uin = s.uin ∧ t.err = s.err ∧ t.errcmd = s.errcmd := by
  by_cases herr : s.err = .noError
  · have hupe : exec .upe s = _ := execUpe_running herr
    cases hexec.symm.trans hupe
    split <;> simp [drain_err]
  · cases hexec.symm.trans (exec_faulted herr .upe nofun)
    exact ⟨rfl, rfl, rfl⟩

/-- ULM writes the limit or records a fault. -/
theorem Effect.ulm_frame {en : Bool} {limit : Count} (h : Effect s (.ulm en limit) t) :
    t = { s with limen := t.limen, ulim := t.ulim, err := t.err, errcmd := t.errcmd } := by
  cases h with
  | ignored | faulted | limited => rfl
  | nothing _ _ hnone => simp at hnone
  | packed _ _ _ _ _ hcode => simp at hcode

end

/-- Settles O47, from the effects a packing command can have. -/
theorem packingLeavesTheRestAlone : Obligations.PackingLeavesTheRestAlone := fun _ _ _ hi hexec =>
  ⟨(exec_cases hexec).packFrame hi, fun hpkf => exec_pkf_keeps (hpkf ▸ hexec)⟩

/-- Settles O48, from the effects an unpacking command can have. -/
theorem unpackingLeavesTheRestAlone : Obligations.UnpackingLeavesTheRestAlone := by
  intro i s t hi hexec
  have heffect := exec_cases hexec
  refine ⟨heffect.unpackFrame hi, heffect.limit_kept (by rintro rfl; nomatch hi), ?_, fun hupe => ?_⟩
  · rintro ⟨en, limit, rfl⟩
    exact heffect.ulm_frame
  · exact exec_upe_keeps (hupe ▸ hexec)

/-! ### Flags (R32) -/

section
variable {i : Instr} {s t : State} (h : Effect s i t)
include h

theorem Effect.pactive_changes (hne : t.pactive ≠ s.pactive) :
    (t.pactive = true ∧ ((∃ len code, i = .pkc len code) ∨ ∃ sym, i = .pks sym)) ∨
      (t.pactive = false ∧ (i = .pkf ∨ i = .clr)) := by
  cases h with
  | packed _ _ _ _ _ hcode =>
    obtain ⟨len, code, rfl, -⟩ | ⟨e, rfl, -⟩ := hcode
    · exact .inl ⟨rfl, .inl ⟨len, code, rfl⟩⟩
    · exact .inl ⟨rfl, .inr ⟨e.sym, rfl⟩⟩
  | flushed => exact .inr ⟨rfl, .inl rfl⟩
  | cleared => exact .inr ⟨rfl, .inr rfl⟩
  | accepted => exact absurd (by simp [acceptBits_eq_drain]) hne
  | ended => exact absurd (by simp) hne
  | ignored | nothing | faulted | loaded | limited => exact absurd rfl hne

theorem Effect.uactive_changes (hne : t.uactive ≠ s.uactive) :
    (t.uactive = true ∧ ∃ b, i = .upb b) ∨ (t.uactive = false ∧ (i = .upe ∨ i = .clr)) := by
  cases h with
  | accepted byte => exact .inl ⟨by simp [acceptBits_eq_drain], byte, rfl⟩
  | ended => exact .inr ⟨rfl, .inl rfl⟩
  | cleared => exact .inr ⟨rfl, .inr rfl⟩
  | ignored | nothing | faulted | loaded | packed | flushed | limited => exact absurd rfl hne

/-- A stopped decoder stays stopped to the end of its stream (R124, R127). -/
theorem Effect.ustop_changes (hne : t.ustop ≠ s.ustop) :
    (t.ustop = true ∧ ((∃ b, i = .upb b) ∨ i = .upe)) ∨
      (t.ustop = false ∧ ((s.uactive = false ∧ ∃ b, i = .upb b) ∨ i = .clr)) := by
  cases h with
  | accepted byte =>
    cases hstop : (acceptBits ((msbFirst byte).take (unpackTake s)) (counting s)).ustop with
    | true => exact .inl ⟨hstop, .inl ⟨byte, rfl⟩⟩
    | false =>
      refine .inr ⟨hstop, .inl ⟨?_, byte, rfl⟩⟩
      by_contra hactive
      have hrunning : s.ustop ≠ false := fun h => hne (hstop.trans h.symm)
      have hcounting : (counting s).ustop = true := by simp_all [counting]
      rw [acceptBits_stopped hcounting, hcounting] at hstop
      cases hstop
  | ended =>
    cases hstop : (drain true s).ustop with
    | true => exact .inl ⟨rfl, .inr rfl⟩
    | false =>
      have hrunning : s.ustop = true := by
        rw [← Bool.not_eq_false]
        exact fun h => hne (hstop.trans h.symm)
      rw [drain_stopped true hrunning, hrunning] at hstop
      cases hstop
  | cleared => exact .inr ⟨rfl, .inr rfl⟩
  | ignored | nothing | faulted | loaded | packed | flushed | limited => exact absurd rfl hne

theorem Effect.limen_changes (hne : t.limen ≠ s.limen) :
    (∃ limit, i = .ulm t.limen limit) ∨ (t.limen = false ∧ i = .clr) := by
  cases h with
  | limited en limit => exact .inl ⟨limit, rfl⟩
  | cleared => exact .inr ⟨rfl, rfl⟩
  | accepted => exact absurd (by simp [acceptBits_eq_drain]) hne
  | ended => exact absurd (by simp) hne
  | ignored | nothing | faulted | loaded | packed | flushed => exact absurd rfl hne

end

theorem exec_err_changes {i : Instr} {s t : State} (hexec : exec i s = .next t) (hne : t.err ≠ s.err) :
    (s.err = .noError ∧ i ≠ .clr) ∨ (t.err = .noError ∧ i = .clr) := by
  by_cases hclr : i = .clr
  · subst hclr
    cases hexec.symm.trans (exec_clr s)
    exact .inr ⟨rfl, rfl⟩
  · refine .inl ⟨?_, hclr⟩
    by_contra herr
    cases hexec.symm.trans (exec_faulted herr i hclr)
    exact hne rfl

/-- Settles O49, flag by flag. -/
theorem flagsChangeOnlyByTheirCommands : Obligations.FlagsChangeOnlyByTheirCommands := by
  intro i s t hexec
  have heffect := exec_cases hexec
  exact ⟨heffect.pactive_changes, heffect.uactive_changes, heffect.ustop_changes, heffect.limen_changes,
    exec_err_changes hexec⟩

/-! ### How much one command emits (R67, R68) -/

/-- Every symbol takes at least one bit. -/
theorem DecodesTo.out_length {table : List Entry} (inv : TableInv table) {need : Nat} {window left : Bits}
    {out : List Sym} {stopped : Bool} (h : DecodesTo table need window out left stopped) :
    out.length ≤ window.length := by
  induction h with
  | held | stop => exact Nat.zero_le _
  | take e window rest left out stopped _ _ hmatch hsplit _ ih =>
    obtain ⟨hpos, -⟩ := inv.codes e hmatch.1
    rw [hsplit, List.length_append, codeString_length, List.length_cons]
    omega

theorem drain_emits (final : Bool) {s : State} (inv : TableInv s.table) :
    ∃ syms, (drain final s).uout = s.uout ++ syms ∧ syms.length ≤ s.ubuf.length := by
  cases hstop : s.ustop with
  | true => exact ⟨[], by rw [drain_stopped final hstop, List.append_nil], Nat.zero_le _⟩
  | false =>
    obtain ⟨out, left, stopped, hdec, hdrain⟩ := drain_spec final s (fun e he => (inv.codes e he).1) hstop
    exact ⟨out, by rw [hdrain], hdec.out_length inv⟩

theorem acceptBits_emits (bits : Bits) {s : State} (inv : TableInv s.table) :
    ∃ syms, (acceptBits bits s).uout = s.uout ++ syms ∧ syms.length ≤ s.ubuf.length + bits.length := by
  cases hstop : s.ustop with
  | true => exact ⟨[], by rw [acceptBits_stopped hstop, List.append_nil], Nat.zero_le _⟩
  | false =>
    obtain ⟨syms, hout, hlen⟩ := drain_emits false (s := { s with ubuf := s.ubuf ++ bits }) inv
    rw [List.length_append] at hlen
    exact ⟨syms, by rw [acceptBits_running hstop, hout], hlen⟩

theorem lastByte_length (pacc : Bits) : (lastByte pacc).length ≤ 1 := by
  unfold lastByte
  split <;> simp

section
variable {i : Instr} {s t : State} (inv : StateInv s) (h : Effect s i t)
include inv h

theorem Effect.bytes_bounded : ∃ bytes, t.pout = s.pout ++ bytes ∧ bytes.length ≤ 4 ∧
    (i = .pkf → bytes.length ≤ 1) ∧ (isPackCommand i = false → bytes = []) := by
  have none (hpout : t.pout = s.pout) : ∃ bytes, t.pout = s.pout ++ bytes ∧ bytes.length ≤ 4 ∧
      (i = .pkf → bytes.length ≤ 1) ∧ (isPackCommand i = false → bytes = []) :=
    ⟨[], by rw [hpout, List.append_nil], Nat.zero_le _, fun _ => Nat.zero_le _, fun _ => rfl⟩
  cases h with
  | packed _ bits bytes pending _ hcode _ hstream hpending =>
    have hbits : bits.length ≤ 32 ∧ i ≠ .pkf ∧ isPackCommand i = true := by
      obtain ⟨len, code, rfl, ⟨-, hlen, -⟩, rfl⟩ | ⟨e, rfl, -, he, rfl⟩ := hcode
      · exact ⟨by rwa [codeString_length], nofun, rfl⟩
      · exact ⟨by rw [codeString_length]; exact (inv.table.codes e he).2.1, nofun, rfl⟩
    obtain ⟨hle, hpkf, hpack⟩ := hbits
    obtain ⟨hbytes, -⟩ := lengths_of_bytes_append hstream hpending
    have hpacc := inv.pack.pending
    rw [List.length_append] at hbytes
    exact ⟨bytes, rfl, by omega, fun h => absurd h hpkf, fun h => absurd hpack (by simp [h])⟩
  | flushed =>
    have hlast := lastByte_length s.pacc
    exact ⟨lastByte s.pacc, rfl, by omega, fun _ => hlast, nofun⟩
  | accepted => exact none (by simp [acceptBits_eq_drain])
  | ended => exact none (by simp)
  | ignored | nothing | cleared | faulted | loaded | limited => exact none rfl

theorem Effect.symbols_bounded : ∃ syms, t.uout = s.uout ++ syms ∧ syms.length ≤ 39 ∧
    (i = .upe → syms.length ≤ 31) ∧ ((∀ b, i ≠ .upb b) → i ≠ .upe → syms = []) := by
  have none (huout : t.uout = s.uout) : ∃ syms, t.uout = s.uout ++ syms ∧ syms.length ≤ 39 ∧
      (i = .upe → syms.length ≤ 31) ∧ ((∀ b, i ≠ .upb b) → i ≠ .upe → syms = []) :=
    ⟨[], by rw [huout, List.append_nil], Nat.zero_le _, fun _ => Nat.zero_le _, fun _ _ => rfl⟩
  have hwindow := inv.window_le
  cases h with
  | accepted byte =>
    obtain ⟨syms, hout, hlen⟩ :=
      acceptBits_emits ((msbFirst byte).take (unpackTake s)) (s := counting s) inv.table
    have htake := unpackTake_le s
    have hbuf : (counting s).ubuf = s.ubuf := rfl
    rw [accepted_length, hbuf] at hlen
    exact ⟨syms, hout, by omega, nofun, fun h => absurd rfl (h byte)⟩
  | ended =>
    obtain ⟨syms, hout, hlen⟩ := drain_emits true inv.table
    exact ⟨syms, hout, by omega, fun _ => by omega, fun _ h => absurd rfl h⟩
  | ignored | nothing | cleared | faulted | loaded | packed | flushed | limited => exact none rfl

end

/-- Settles O46, from the bytes and the symbols a command appends. -/
theorem emissionsAreBounded : Obligations.EmissionsAreBounded := by
  intro i s t inv hexec
  have heffect := exec_cases hexec
  obtain ⟨bytes, hpout, hbytes, hpkf, hpack⟩ := heffect.bytes_bounded inv
  obtain ⟨syms, huout, hsyms, hupe, hunpack⟩ := heffect.symbols_bounded inv
  rw [hpout, huout, List.length_append, List.length_append]
  refine ⟨by omega, by omega, fun hi => ?_, fun hi => ?_, fun hi => ?_, fun hupb hne => ?_⟩
  · have := hpkf hi; omega
  · have := hupe hi; omega
  · rw [hpack hi, List.append_nil]
  · rw [hunpack hupb hne, List.append_nil]

/-! ### Counters (R172, R178) -/

/-- `Drain` only consumes more. -/
theorem WindowCounted.used_le {s : State} (h : WindowCounted s) (inv : TableInv s.table) (final : Bool) :
    s.uused.toNat ≤ (Machine.drain final s).uused.toNat := by
  obtain ⟨out, left, stopped, hdec, hdrain⟩ := h.drain inv final
  have hleft := hdec.left_length
  have hcounted := h.counted
  have huin := s.uin.isLt
  rw [hdrain]
  simp only [BitVec.toNat_ofNat]
  omega

section
variable {i : Instr} {s t : State} (h : Effect s i t) (hclr : i ≠ .clr)
include h hclr

theorem Effect.pbits_le (hactive : s.pactive = true) : s.pbits.toNat ≤ t.pbits.toNat := by
  cases h with
  | packed _ bits _ _ _ _ hroom =>
    have hbase : packBase s = s.pbits.toNat := if_pos hactive
    rw [hbase] at hroom
    simp only [hbase, BitVec.toNat_ofNat]
    omega
  | cleared => exact absurd rfl hclr
  | accepted => simp [acceptBits_eq_drain]
  | ended => simp
  | ignored | nothing | faulted | loaded | flushed | limited => exact le_rfl

theorem Effect.unpacked_le (inv : StateInv s) (hactive : s.uactive = true) :
    s.uin.toNat ≤ t.uin.toNat ∧ s.uused.toNat ≤ t.uused.toNat := by
  cases h with
  | accepted byte _ hroom =>
    change s.uin.toNat ≤ (acceptBits _ (counting s)).uin.toNat ∧
      s.uused.toNat ≤ (acceptBits _ (counting s)).uused.toNat
    have hbase : unpackBase s = s.uin.toNat := if_pos hactive
    have hused : s.uused = (counting s).uused := by simp [counting, hactive]
    have huin := counting_uin hroom
    cases hstop : (counting s).ustop with
    | true =>
      rw [acceptBits_stopped hstop, ← hused]
      omega
    | false =>
      rw [acceptBits_running hstop, drain_uin, hused]
      refine ⟨?_, (inv.unpack.counting_window hroom hstop byte).used_le inv.table false⟩
      change s.uin.toNat ≤ (counting s).uin.toNat
      omega
  | ended =>
    refine ⟨by simp, ?_⟩
    cases hstop : s.ustop with
    | true => rw [drain_stopped true hstop]
    | false => exact WindowCounted.used_le ⟨hstop, inv.unpack.counted hactive hstop⟩ inv.table true
  | cleared => exact absurd rfl hclr
  | ignored | nothing | faulted | loaded | packed | flushed | limited => exact ⟨le_rfl, le_rfl⟩

end

/-- Settles O54: counting and decoding only add, and a recorded overflow changes no counter. -/
theorem countersNeverWrap : Obligations.CountersNeverWrap := by
  intro i s t inv hclr hexec
  have heffect := exec_cases hexec
  refine ⟨heffect.pbits_le hclr, heffect.unpacked_le hclr inv, fun hovf herr => ?_⟩
  obtain hnone | ⟨e, -, rfl⟩ := heffect.fault_cases herr
  · rw [hnone] at hovf
    cases hovf
  · exact ⟨rfl, rfl, rfl⟩

end Sys2Proof.Machine
end

section
/-! SUPPORT. Independence (20_memory.md rule R64, 41_packer.md rule R116, 70_reset_and_hazards.md rule R190): the
packer's commands see the table, the packer and the fault code, the unpacker's see the table, the unpacker and the
fault code, and `N_ENTRIES` shows in `E_FULL` alone; the statements settled with that. -/

namespace Sys2Proof.Machine

/-! ### The recorded word -/

/-- A command records its own word exactly when it changes the fault code. -/
theorem exec_errcmd {i : Instr} {s t : State} (hexec : exec i s = .next t) (hclr : i ≠ .clr) :
    t.errcmd = if t.err = s.err then s.errcmd else encode i := by
  cases exec_cases hexec with
  | cleared => exact absurd rfl hclr
  | faulted _ e herr he => exact (if_neg fun h => he (h.trans herr)).symm
  | accepted => rw [if_pos (acceptBits_err _ _), acceptBits_eq_drain, drain_errcmd]
  | ended => exact (drain_errcmd true s).trans (if_pos (drain_err true s)).symm
  | ignored | nothing | loaded | packed | flushed | limited => exact (if_pos rfl).symm

theorem exec_errcmd_congr {i : Instr} {s s' t t' : State} (hexec : exec i s = .next t)
    (hexec' : exec i s' = .next t') (hclr : i ≠ .clr) (herr : s.err = s'.err) (hcmd : s.errcmd = s'.errcmd)
    (ht : t.err = t'.err) : t.errcmd = t'.errcmd := by
  rw [exec_errcmd hexec hclr, exec_errcmd hexec' hclr, herr, hcmd, ht]

/-! ### The packer (R64, R116) -/

/-- What a packing command sees is the same in both states. -/
structure SamePacker (s s' : State) : Prop where
  table : s.table = s'.table
  pacc : s.pacc = s'.pacc
  pactive : s.pactive = s'.pactive
  pbits : s.pbits = s'.pbits
  err : s.err = s'.err

/-- From `s` to `t` and from `s'` to `t'` the packer came to the same elements and emitted the same bytes. -/
structure SamePacking (s s' t t' : State) : Prop where
  pacc : t.pacc = t'.pacc
  pactive : t.pactive = t'.pactive
  pbits : t.pbits = t'.pbits
  err : t.err = t'.err
  emitted : ∃ bytes, t.pout = s.pout ++ bytes ∧ t'.pout = s'.pout ++ bytes

theorem packBits_eq (w : Word) (bits : Bits) (s : State) :
    packBits w bits s =
      if 2 ^ 32 - 1 < packBase s + bits.length then .next (recorded .eOvf w s)
      else .next { s with
        pbits := BitVec.ofNat 32 (packBase s + bits.length), pactive := true,
        pacc := (fillBytes (s.pacc ++ bits).length (s.pacc ++ bits)).2,
        pout := s.pout ++ (fillBytes (s.pacc ++ bits).length (s.pacc ++ bits)).1 } := rfl

section
variable {s s' : State} (h : SamePacker s s')
include h

theorem SamePacker.unchanged : SamePacking s s' s s' :=
  ⟨h.pacc, h.pactive, h.pbits, h.err, [], by simp⟩

theorem SamePacker.recorded (e : ErrCode) (w : Word) : SamePacking s s' (recorded e w s) (recorded e w s') :=
  ⟨h.pacc, h.pactive, h.pbits, rfl, [], by simp⟩

theorem SamePacker.packBits (w : Word) (bits : Bits) {t t' : State} (ht : packBits w bits s = .next t)
    (ht' : packBits w bits s' = .next t') : SamePacking s s' t t' := by
  have hbase : packBase s' = packBase s := by simp only [packBase, h.pactive, h.pbits]
  rw [packBits_eq] at ht ht'
  rw [hbase, ← h.pacc] at ht'
  split at ht
  next hbits =>
    rw [if_pos hbits] at ht'
    cases ht
    cases ht'
    exact h.recorded _ _
  next hbits =>
    rw [if_neg hbits] at ht'
    cases ht
    cases ht'
    exact ⟨rfl, rfl, rfl, h.err, _, rfl, rfl⟩

theorem SamePacker.exec {i : Instr} (hi : isPackCommand i = true) {t t' : State} (ht : exec i s = .next t)
    (ht' : Machine.exec i s' = .next t') : SamePacking s s' t t' := by
  by_cases herr : s.err = .noError
  swap
  · have hclr : i ≠ .clr := by rintro rfl; nomatch hi
    cases ht.symm.trans (exec_faulted herr i hclr)
    cases ht'.symm.trans (exec_faulted (h.err ▸ herr) i hclr)
    exact h.unchanged
  have herr' : s'.err = .noError := h.err ▸ herr
  cases i with
  | pkc len code =>
    rw [Machine.exec, execPkc_running herr] at ht
    rw [Machine.exec, execPkc_running herr'] at ht'
    split at ht
    next hcode =>
      rw [if_pos hcode] at ht'
      cases ht
      cases ht'
      exact h.recorded _ _
    next hcode =>
      rw [if_neg hcode] at ht'
      exact h.packBits _ _ ht ht'
  | pks sym =>
    rw [Machine.exec, execPks_running herr] at ht
    rw [Machine.exec, execPks_running herr', ← h.table] at ht'
    split at ht
    next hsym =>
      rw [if_pos hsym] at ht'
      cases ht
      cases ht'
      exact h.recorded _ _
    next hsym =>
      rw [if_neg hsym] at ht'
      cases hfound : lookup s.table sym with
      | none =>
        rw [hfound] at ht ht'
        cases ht
        cases ht'
        exact h.recorded _ _
      | some e =>
        rw [hfound] at ht ht'
        exact h.packBits _ _ ht ht'
  | pkf =>
    rw [Machine.exec, execPkf_running herr] at ht
    rw [Machine.exec, execPkf_running herr', ← h.pactive, ← h.pacc] at ht'
    cases ht
    cases ht'
    split
    · exact ⟨rfl, rfl, h.pbits, h.err, _, rfl, rfl⟩
    · exact h.unchanged
  | _ => nomatch hi

end

/-- Settles O50: each packing command reads nothing but what the two states share. -/
theorem packerDoesNotSeeTheUnpacker : Obligations.PackerDoesNotSeeTheUnpacker := by
  intro i s s' t t' hi htable hpacc hactive hbits herr ht ht'
  obtain ⟨hpacc, hactive, hbits, herr, hout⟩ := SamePacker.exec ⟨htable, hpacc, hactive, hbits, herr⟩ hi ht ht'
  exact ⟨hpacc, hactive, hbits, herr, hout⟩

/-! ### The unpacker (R64) -/

theorem decodeStep_of_none {s : State} (h : matchLongest s.table s.ubuf = none) :
    decodeStep s = { s with ustop := true, ubuf := [] } := by
  rw [decodeStep, h]

theorem decodeStep_of_some {s : State} {e : Entry} (h : matchLongest s.table s.ubuf = some e) :
    decodeStep s = emitSymbol e.sym
      { s with ubuf := s.ubuf.drop e.len.toNat, uused := s.uused + BitVec.ofNat 32 e.len.toNat } := by
  rw [decodeStep, h]

/-- What an unpacking command sees is the same in both states. -/
structure SameUnpacker (s s' : State) : Prop where
  table : s.table = s'.table
  ubuf : s.ubuf = s'.ubuf
  uactive : s.uactive = s'.uactive
  ustop : s.ustop = s'.ustop
  limen : s.limen = s'.limen
  ulim : s.ulim = s'.ulim
  uin : s.uin = s'.uin
  uused : s.uused = s'.uused
  err : s.err = s'.err

/-- From `s` to `t` and from `s'` to `t'` the unpacker came to the same elements and emitted the same symbols. -/
structure SameUnpacking (s s' t t' : State) : Prop where
  same : SameUnpacker t t'
  emitted : ∃ syms, t.uout = s.uout ++ syms ∧ t'.uout = s'.uout ++ syms

theorem SameUnpacking.trans {s s' t t' u u' : State} (h : SameUnpacking s s' t t') (h' : SameUnpacking t t' u u') :
    SameUnpacking s s' u u' := by
  obtain ⟨-, syms, hout, hout'⟩ := h
  obtain ⟨hsame, more, hmore, hmore'⟩ := h'
  exact ⟨hsame, syms ++ more, by rw [hmore, hout, List.append_assoc], by rw [hmore', hout', List.append_assoc]⟩

/-- A change of the unpacker alone, the same on both sides, that emits nothing. -/
theorem SameUnpacking.of_silent {s s' t t' : State} (hsame : SameUnpacker t t') (hout : t.uout = s.uout)
    (hout' : t'.uout = s'.uout) : SameUnpacking s s' t t' :=
  ⟨hsame, [], by rw [hout, List.append_nil], by rw [hout', List.append_nil]⟩

section
variable {s s' : State} (h : SameUnpacker s s')
include h

theorem SameUnpacker.unchanged : SameUnpacking s s' s s' := .of_silent h rfl rfl

theorem SameUnpacker.recorded (e : ErrCode) (w : Word) : SameUnpacking s s' (recorded e w s) (recorded e w s') := by
  obtain ⟨htable, hubuf, hactive, hstop, hlimen, hulim, huin, huused, -⟩ := h
  exact .of_silent ⟨htable, hubuf, hactive, hstop, hlimen, hulim, huin, huused, rfl⟩ rfl rfl

theorem SameUnpacker.decodeStep : SameUnpacking s s' (decodeStep s) (decodeStep s') := by
  obtain ⟨htable, hubuf, hactive, hstop, hlimen, hulim, huin, huused, herr⟩ := h
  have hmatch : matchLongest s'.table s'.ubuf = matchLongest s.table s.ubuf := by rw [htable, hubuf]
  cases hm : matchLongest s.table s.ubuf with
  | none =>
    rw [decodeStep_of_none hm, decodeStep_of_none (hmatch.trans hm)]
    exact .of_silent ⟨htable, rfl, hactive, rfl, hlimen, hulim, huin, huused, herr⟩ rfl rfl
  | some e =>
    rw [decodeStep_of_some hm, decodeStep_of_some (hmatch.trans hm)]
    exact ⟨⟨htable, congrArg (List.drop _) hubuf, hactive, hstop, hlimen, hulim, huin, congrArg (· + _) huused, herr⟩,
      [e.sym], rfl, rfl⟩

theorem SameUnpacker.decides (final : Bool) : decides final s = Machine.decides final s' := by
  rw [Machine.decides, Machine.decides, tmaxlen, tmaxlen, h.ustop, h.ubuf, h.table]

theorem SameUnpacker.drainLoop (fuel : Nat) (final : Bool) :
    SameUnpacking s s' (drainLoop fuel final s) (drainLoop fuel final s') := by
  induction fuel generalizing s s' with
  | zero => exact h.unchanged
  | succ fuel ih =>
    rw [Machine.drainLoop, Machine.drainLoop, ← h.decides final]
    split
    · exact h.decodeStep.trans (ih h.decodeStep.same)
    · exact h.unchanged

theorem SameUnpacker.drain (final : Bool) : SameUnpacking s s' (drain final s) (drain final s') := by
  unfold Machine.drain
  rw [← h.ubuf]
  exact h.drainLoop _ final

theorem SameUnpacker.acceptBits (bits : Bits) : SameUnpacking s s' (acceptBits bits s) (acceptBits bits s') := by
  cases hstop : s.ustop with
  | true =>
    rw [acceptBits_stopped hstop, acceptBits_stopped (h.ustop ▸ hstop)]
    exact h.unchanged
  | false =>
    rw [acceptBits_running hstop, acceptBits_running (h.ustop ▸ hstop)]
    obtain ⟨htable, hubuf, hactive, hstop, hlimen, hulim, huin, huused, herr⟩ := h
    have hwindow : SameUnpacker { s with ubuf := s.ubuf ++ bits } { s' with ubuf := s'.ubuf ++ bits } :=
      ⟨htable, congrArg (· ++ bits) hubuf, hactive, hstop, hlimen, hulim, huin, huused, herr⟩
    obtain ⟨hsame, hout⟩ := hwindow.drain false
    exact ⟨hsame, hout⟩

theorem SameUnpacker.base_eq : unpackBase s = unpackBase s' := by
  simp only [unpackBase, h.uactive, h.uin]

theorem SameUnpacker.take_eq : unpackTake s = unpackTake s' := by
  simp only [unpackTake, h.base_eq, h.limen, h.ulim]

theorem SameUnpacker.counting : SameUnpacking s s' (counting s) (counting s') := by
  have hbase := h.base_eq
  have htake := h.take_eq
  obtain ⟨htable, hubuf, hactive, hstop, hlimen, hulim, -, huused, herr⟩ := h
  refine .of_silent ⟨htable, hubuf, rfl, ?_, hlimen, hulim, ?_, ?_, herr⟩ rfl rfl
  · simp only [Machine.counting, hactive, hstop]
  · simp only [Machine.counting, hbase, htake]
  · simp only [Machine.counting, hactive, huused]

theorem SameUnpacker.exec {i : Instr} (hi : isUnpackCommand i = true) {t t' : State} (ht : exec i s = .next t)
    (ht' : Machine.exec i s' = .next t') : SameUnpacking s s' t t' := by
  by_cases herr : s.err = .noError
  swap
  · have hclr : i ≠ .clr := by rintro rfl; nomatch hi
    cases ht.symm.trans (exec_faulted herr i hclr)
    cases ht'.symm.trans (exec_faulted (h.err ▸ herr) i hclr)
    exact h.unchanged
  have herr' : s'.err = .noError := h.err ▸ herr
  cases i with
  | upb byte =>
    by_cases hroom : unpackBase s + unpackTake s ≤ 2 ^ 32 - 1
    · cases ht.symm.trans (exec_upb_counting herr hroom byte)
      have hroom' := hroom
      rw [h.base_eq, h.take_eq] at hroom'
      cases ht'.symm.trans (exec_upb_counting herr' hroom' byte)
      rw [← h.take_eq]
      exact h.counting.trans (h.counting.same.acceptBits _)
    · have hbits := Nat.not_le.mp hroom
      cases ht.symm.trans (exec_upb_overflow herr hbits byte)
      rw [h.base_eq, h.take_eq] at hbits
      cases ht'.symm.trans (exec_upb_overflow herr' hbits byte)
      exact h.recorded _ _
  | upe =>
    rw [Machine.exec, execUpe_running herr] at ht
    rw [Machine.exec, execUpe_running herr', ← h.uactive] at ht'
    cases ht
    cases ht'
    split
    · obtain ⟨⟨htable, hubuf, hactive, hstop, hlimen, hulim, huin, huused, herr⟩, hout⟩ := h.drain true
      exact ⟨⟨htable, hubuf, rfl, hstop, hlimen, hulim, huin, huused, herr⟩, hout⟩
    · exact h.unchanged
  | ulm en limit =>
    cases hopen : s.uactive with
    | true =>
      cases ht.symm.trans (exec_ulm_open herr hopen en limit)
      cases ht'.symm.trans (exec_ulm_open herr' (h.uactive ▸ hopen) en limit)
      exact h.recorded _ _
    | false =>
      cases ht.symm.trans (exec_ulm_idle herr hopen en limit)
      cases ht'.symm.trans (exec_ulm_idle herr' (h.uactive ▸ hopen) en limit)
      obtain ⟨htable, hubuf, hactive, hstop, -, -, huin, huused, herr⟩ := h
      exact .of_silent ⟨htable, hubuf, hactive, hstop, rfl, rfl, huin, huused, herr⟩ rfl rfl
  | _ => nomatch hi

end

/-- Settles O51: each unpacking command reads nothing but what the two states share. -/
theorem unpackerDoesNotSeeThePacker : Obligations.UnpackerDoesNotSeeThePacker := by
  intro i s s' t t' hi htable hubuf hactive hstop hlimen hulim huin huused herr ht ht'
  obtain ⟨⟨-, hubuf, hactive, hstop, hlimen, hulim, huin, huused, herr⟩, hout⟩ :=
    SameUnpacker.exec ⟨htable, hubuf, hactive, hstop, hlimen, hulim, huin, huused, herr⟩ hi ht ht'
  exact ⟨hubuf, hactive, hstop, hlimen, hulim, huin, huused, herr, hout⟩

/-! ### Commuting (R63, R64) -/

/-- `s` with the packer's elements and `pout` of `p`. -/
def withPacker (p s : State) : State :=
  { s with pacc := p.pacc, pactive := p.pactive, pbits := p.pbits, pout := p.pout }

/-- `s` with the unpacker's elements and `uout` of `u`. -/
def withUnpacker (u s : State) : State :=
  { s with
    ubuf := u.ubuf, uactive := u.uactive, ustop := u.ustop, limen := u.limen, ulim := u.ulim, uin := u.uin,
    uused := u.uused, uout := u.uout }

theorem withPacker_withUnpacker (p u s : State) :
    withPacker p (withUnpacker u s) = withUnpacker u (withPacker p s) := rfl

/-- A command that ended without a fault was run, and kept the fault registers. -/
theorem exec_unfaulted {i : Instr} {s t : State} (hexec : exec i s = .next t) (hclr : i ≠ .clr)
    (ht : t.err = .noError) : s.err = .noError ∧ t.errcmd = s.errcmd := by
  have herr : s.err = .noError := by
    by_contra herr
    cases hexec.symm.trans (exec_faulted herr i hclr)
    exact herr ht
  exact ⟨herr, by rw [exec_errcmd hexec hclr, if_pos (ht.trans herr.symm)]⟩

theorem PackFrame.eq_withPacker {s t : State} (h : PackFrame s t) (herr : t.err = s.err)
    (hcmd : t.errcmd = s.errcmd) : t = withPacker t s := by
  unfold PackFrame at h
  rwa [herr, hcmd] at h

theorem UnpackFrame.eq_withUnpacker {s t : State} (h : UnpackFrame s t) (herr : t.err = s.err)
    (hcmd : t.errcmd = s.errcmd) : t = withUnpacker t s := by
  unfold UnpackFrame at h
  rwa [herr, hcmd] at h

section
variable {i : Instr} {s t : State} (hexec : exec i s = .next t) (ht : t.err = .noError)
include hexec ht

theorem eq_withPacker_of_exec (hi : isPackCommand i = true) : t = withPacker t s := by
  obtain ⟨herr, hcmd⟩ := exec_unfaulted hexec (by rintro rfl; nomatch hi) ht
  exact ((exec_cases hexec).packFrame hi).eq_withPacker (ht.trans herr.symm) hcmd

theorem eq_withUnpacker_of_exec (hi : isUnpackCommand i = true) : t = withUnpacker t s := by
  obtain ⟨herr, hcmd⟩ := exec_unfaulted hexec (by rintro rfl; nomatch hi) ht
  exact ((exec_cases hexec).unpackFrame hi).eq_withUnpacker (ht.trans herr.symm) hcmd

/-- A packing command does the same whatever the unpacker holds. -/
theorem exec_withUnpacker (hi : isPackCommand i = true) (u : State) :
    exec i (withUnpacker u s) = .next (withUnpacker u t) := by
  obtain ⟨t', hexec', -⟩ := exec_effect i (withUnpacker u s)
  have hsees : SamePacker s (withUnpacker u s) := ⟨rfl, rfl, rfl, rfl, rfl⟩
  obtain ⟨hpacc, hactive, hbits, herr, bytes, hout, hout'⟩ := hsees.exec hi hexec hexec'
  have hpout : t'.pout = t.pout := hout'.trans hout.symm
  have hsame : withPacker t' (withUnpacker u s) = withPacker t (withUnpacker u s) := by
    simp only [withPacker, hpacc, hactive, hbits, hpout]
  rw [hexec', eq_withPacker_of_exec hexec' (herr ▸ ht) hi, hsame, withPacker_withUnpacker,
    ← eq_withPacker_of_exec hexec ht hi]

/-- An unpacking command does the same whatever the packer holds. -/
theorem exec_withPacker (hi : isUnpackCommand i = true) (p : State) :
    exec i (withPacker p s) = .next (withPacker p t) := by
  obtain ⟨t', hexec', -⟩ := exec_effect i (withPacker p s)
  have hsees : SameUnpacker s (withPacker p s) := ⟨rfl, rfl, rfl, rfl, rfl, rfl, rfl, rfl, rfl⟩
  obtain ⟨⟨-, hubuf, hactive, hstop, hlimen, hulim, huin, huused, herr⟩, syms, hout, hout'⟩ :=
    hsees.exec hi hexec hexec'
  have huout : t'.uout = t.uout := hout'.trans hout.symm
  have hsame : withUnpacker t' (withPacker p s) = withUnpacker t (withPacker p s) := by
    simp only [withUnpacker, hubuf, hactive, hstop, hlimen, hulim, huin, huused, huout]
  rw [hexec', eq_withUnpacker_of_exec hexec' (herr ▸ ht) hi, hsame, ← withPacker_withUnpacker,
    ← eq_withUnpacker_of_exec hexec ht hi]

end

/-- Settles O52: each command writes its own half of the state and does not see the other. -/
theorem packAndUnpackCommandsCommute : Obligations.PackAndUnpackCommandsCommute := by
  intro i j s a b hi hj ha hb haerr hberr
  have hpacked : a = withPacker a s := eq_withPacker_of_exec ha haerr hi
  have hunpacked : b = withUnpacker b s := eq_withUnpacker_of_exec hb hberr hj
  have hmeet : withPacker a b = withUnpacker b a := by
    calc
      withPacker a b = withPacker a (withUnpacker b s) := congrArg (withPacker a) hunpacked
      _ = withUnpacker b (withPacker a s) := withPacker_withUnpacker a b s
      _ = withUnpacker b a := congrArg (withUnpacker b) hpacked.symm
  calc
    exec j a = exec j (withPacker a s) := congrArg (exec j) hpacked
    _ = .next (withPacker a b) := exec_withPacker hb hberr hj a
    _ = .next (withUnpacker b a) := by rw [hmeet]
    _ = exec i (withUnpacker b s) := (exec_withUnpacker ha haerr hi b).symm
    _ = exec i b := congrArg (exec i) hunpacked.symm

/-! ### The capacity (R190) -/

section
variable {i : Instr} {s t : State} (n : Nat)

theorem exec_pack_withCapacity (hi : isPackCommand i = true) (hexec : exec i s = .next t) :
    exec i { s with nEntries := n } = .next { t with nEntries := n } := by
  have hclr : i ≠ .clr := by rintro rfl; nomatch hi
  obtain ⟨t', hexec', heffect⟩ := exec_effect i { s with nEntries := n }
  have hsees : SamePacker s { s with nEntries := n } := ⟨rfl, rfl, rfl, rfl, rfl⟩
  obtain ⟨hpacc, hactive, hbits, herr, bytes, hout, hout'⟩ := hsees.exec hi hexec hexec'
  have hcmd : t.errcmd = t'.errcmd := exec_errcmd_congr hexec hexec' hclr rfl rfl herr
  have hpout : t'.pout = t.pout := hout'.trans hout.symm
  have hframe : t' = _ := heffect.packFrame hi
  have hframe' : t = _ := (exec_cases hexec).packFrame hi
  rw [← hpacc, ← hactive, ← hbits, ← herr, ← hcmd, hpout] at hframe
  rw [hexec', hframe]
  exact congrArg (fun u : State => (.next { u with nEntries := n } : Answer)) hframe'.symm

theorem exec_unpack_withCapacity (hi : isUnpackCommand i = true) (hexec : exec i s = .next t) :
    exec i { s with nEntries := n } = .next { t with nEntries := n } := by
  have hclr : i ≠ .clr := by rintro rfl; nomatch hi
  obtain ⟨t', hexec', heffect⟩ := exec_effect i { s with nEntries := n }
  have hsees : SameUnpacker s { s with nEntries := n } := ⟨rfl, rfl, rfl, rfl, rfl, rfl, rfl, rfl, rfl⟩
  obtain ⟨⟨-, hubuf, hactive, hstop, hlimen, hulim, huin, huused, herr⟩, syms, hout, hout'⟩ :=
    hsees.exec hi hexec hexec'
  have hcmd : t.errcmd = t'.errcmd := exec_errcmd_congr hexec hexec' hclr rfl rfl herr
  have huout : t'.uout = t.uout := hout'.trans hout.symm
  have hframe : t' = _ := heffect.unpackFrame hi
  have hframe' : t = _ := (exec_cases hexec).unpackFrame hi
  rw [← hubuf, ← hactive, ← hstop, ← hlimen, ← hulim, ← huin, ← huused, ← herr, ← hcmd, huout] at hframe
  rw [hexec', hframe]
  exact congrArg (fun u : State => (.next { u with nEntries := n } : Answer)) hframe'.symm

/-- LDE compares the capacity with the number of entries, and it equals neither capacity. -/
theorem exec_lde_withCapacity {sym : Sym} {len : CodeLen} {code : CodeWord} (hs : tcount s ≠ s.nEntries)
    (hn : tcount s ≠ n) (hexec : exec (.lde sym len code) s = .next t) :
    exec (.lde sym len code) { s with nEntries := n } = .next { t with nEntries := n } := by
  by_cases herr : s.err = .noError
  · have hbefore := execLde_running herr sym len code
    have hafter := execLde_running (s := { s with nEntries := n }) herr sym len code
    rw [if_neg hs] at hbefore
    rw [if_neg (c := tcount { s with nEntries := n } = n) hn] at hafter
    rw [exec, hbefore] at hexec
    rw [exec, hafter]
    split_ifs at hexec ⊢ <;> cases hexec <;> rfl
  · cases hexec.symm.trans (exec_faulted herr _ nofun)
    exact exec_faulted (s := { s with nEntries := n }) herr _ nofun

end

/-- Settles O53, by the command's family; CLR answers the cleared state at either capacity. -/
theorem capacityMattersOnlyWhenFull : Obligations.CapacityMattersOnlyWhenFull := by
  intro i s t n hs hn hexec
  cases i with
  | nop =>
    cases hexec.symm.trans (exec_nop s)
    exact exec_nop _
  | clr =>
    cases hexec.symm.trans (exec_clr s)
    exact exec_clr _
  | lde => exact exec_lde_withCapacity n hs hn hexec
  | pkc | pks | pkf => exact exec_pack_withCapacity n rfl hexec
  | upb | upe | ulm => exact exec_unpack_withCapacity n rfl hexec

end Sys2Proof.Machine
end

section
/-! SUPPORT. The host's bit-strings, artifact and header (30_encoding.md rules R76, R83 to R88, 43_host_sequences.md
rules R141 to R143): the assembled pair of a bit-string, the first sentinel, a header read back line by line, and
the statements settled with them. -/

namespace Sys2Proof.Machine

/-! ### Bit-string operands (R76, R83) -/

theorem assembleBits_of_length {bits : Bits} (h : 1 ≤ bits.length ∧ bits.length ≤ 32) :
    assembleBits bits = some (BitVec.ofNat 6 bits.length, BitVec.ofNat 32 (valOf bits)) := if_pos h

theorem assembleBits_none_iff {bits : Bits} :
    assembleBits bits = none ↔ ¬ (1 ≤ bits.length ∧ bits.length ≤ 32) := by
  have hmax : Config.lMax = 32 := rfl
  rw [assembleBits, hmax]
  split <;> simp_all

/-- The assembled pair is legal and denotes the string. -/
theorem assembleBits_denotes {bits : Bits} {len : CodeLen} {code : CodeWord}
    (h : assembleBits bits = some (len, code)) : CodeLegal len code ∧ codeString len code = bits := by
  have hlen : 1 ≤ bits.length ∧ bits.length ≤ 32 := by
    by_contra hnot
    rw [assembleBits_none_iff.mpr hnot] at h
    cases h
  rw [assembleBits_of_length hlen] at h
  cases h
  obtain ⟨hpos, hmax⟩ := hlen
  have hval := valOf_lt bits
  have hvalMax : 2 ^ bits.length ≤ 2 ^ 32 := Nat.pow_le_pow_right (by decide) hmax
  have hlenNat : (BitVec.ofNat 6 bits.length).toNat = bits.length := Nat.mod_eq_of_lt (by omega)
  have hcodeNat : (BitVec.ofNat 32 (valOf bits)).toNat = valOf bits := Nat.mod_eq_of_lt (by omega)
  refine ⟨by rw [CodeLegal, hlenNat, hcodeNat]; exact ⟨hpos, hmax, hval⟩, ?_⟩
  rw [← codeBits_eq, codeBits, hlenNat, hcodeNat, bitsOf_valOf]

/-- Settles O55, from what the assembled pair denotes and when there is none. -/
theorem assembledCodeStandsForItsString : Obligations.AssembledCodeStandsForItsString := by
  refine fun bits => ⟨fun _ _ => assembleBits_denotes, ?_⟩
  rw [assembleBits_none_iff, ← List.length_eq_zero_iff]
  omega

/-! ### The bytes of a header (R85, R86) -/

theorem decimalDigits_lt_ten (fuel n : Nat) : ∀ d ∈ decimalDigits fuel n, d < 10 := by
  induction fuel generalizing n with
  | zero => nofun
  | succ fuel ih =>
    rw [decimalDigits]
    split
    next hlt => simpa using hlt
    next =>
      refine List.forall_mem_append.mpr ⟨ih (n / 10), ?_⟩
      simpa using Nat.mod_lt n (by decide)

/-- The byte of a decimal digit. -/
def digitByte (d : Nat) : Byte := BitVec.ofNat 8 (0x30 + d)

theorem decimalText_eq (sym : Sym) : decimalText sym = (decimalDigits 7 sym.toNat).map digitByte := rfl

theorem digitByte_toNat {d : Nat} (h : d < 10) : (digitByte d).toNat = 0x30 + d := Nat.mod_eq_of_lt (by omega)

/-- The bytes of a line are digits and the colon, those of a header also the newline. -/
theorem headerLine_bytes (entry : Sym × Bits) : ∀ b ∈ headerLine entry, 0x30 ≤ b.toNat ∧ b.toNat ≤ 0x3A := by
  refine List.forall_mem_append.mpr ⟨?_, List.forall_mem_cons.mpr ⟨by decide, ?_⟩⟩
  · rw [decimalText_eq]
    refine List.forall_mem_map.mpr fun d hd => ?_
    have hlt := decimalDigits_lt_ten _ _ d hd
    rw [digitByte_toNat hlt]
    omega
  · refine List.forall_mem_map.mpr fun b _ => ?_
    cases b <;> decide

theorem headerText_bytes (table : CodeTable) : ∀ b ∈ headerText table, b.toNat ≤ 0x3A := by
  induction table with
  | nil => nofun
  | cons e rest ih =>
    have hline : ∀ b ∈ headerLine e, b.toNat ≤ 0x3A := fun b hb => (headerLine_bytes e b hb).2
    cases rest with
    | nil => exact hline
    | cons e' rest =>
      exact List.forall_mem_append.mpr ⟨hline, List.forall_mem_cons.mpr ⟨by decide, ih⟩⟩

/-! ### The first sentinel (R87, R142) -/

theorem splitArtifact_sentinel (payload : List Byte) :
    splitArtifact (sentinel ++ payload) = some ([], payload) := by
  have hfirst : sentinel.isPrefixOf (sentinel ++ payload) = true :=
    List.isPrefixOf_iff_prefix.mpr (List.prefix_append _ _)
  exact if_pos hfirst

theorem splitArtifact_append {header : List Byte} (hbytes : ∀ b ∈ header, b.toNat ≤ 0x3A) (payload : List Byte) :
    splitArtifact (header ++ (sentinel ++ payload)) = some (header, payload) := by
  induction header with
  | nil => exact splitArtifact_sentinel payload
  | cons b header ih =>
    obtain ⟨hb, hrest⟩ := List.forall_mem_cons.mp hbytes
    have hfirst : sentinel.isPrefixOf (b :: (header ++ (sentinel ++ payload))) = false := by
      rw [Bool.eq_false_iff, Ne, List.isPrefixOf_iff_prefix, sentinel, List.cons_prefix_cons]
      rintro ⟨rfl, -⟩
      exact absurd hb (by decide)
    rw [List.cons_append, splitArtifact, hfirst, ih hrest]
    rfl

/-- Settles O56: no byte of a header is the sentinel's first. -/
theorem artifactSplitsAtItsSentinel : Obligations.ArtifactSplitsAtItsSentinel := by
  intro table payload
  rw [artifact, List.append_assoc]
  exact splitArtifact_append (headerText_bytes table) payload

/-! ### Reading a line back (R86, R142, R143) -/

theorem digitOfByte_digitByte {d : Nat} (h : d < 10) : digitOfByte (digitByte d) = some d := by
  rw [digitOfByte, digitByte_toNat h, if_pos (by omega), Nat.add_sub_cancel_left]

theorem parseDigits_append {as bs : List Byte} {acc n : Nat} (h : parseDigits acc as = some n) :
    parseDigits acc (as ++ bs) = parseDigits n bs := by
  induction as generalizing acc with
  | nil =>
    cases h
    rfl
  | cons a as ih =>
    rw [parseDigits] at h
    rw [List.cons_append, parseDigits]
    cases hd : digitOfByte a with
    | none =>
      rw [hd] at h
      cases h
    | some d =>
      rw [hd] at h
      exact ih h

theorem parseDigits_decimalDigits {fuel n : Nat} (h : n < 10 ^ fuel) :
    parseDigits 0 ((decimalDigits fuel n).map digitByte) = some n := by
  induction fuel generalizing n with
  | zero =>
    obtain rfl : n = 0 := by simpa using h
    rfl
  | succ fuel ih =>
    rw [decimalDigits]
    split
    next hlt => simp [parseDigits, digitOfByte_digitByte hlt]
    next =>
      have hhead := ih (n := n / 10) (by rw [Nat.pow_succ] at h; omega)
      have hlast : n % 10 < 10 := Nat.mod_lt n (by decide)
      rw [List.map_append, parseDigits_append hhead]
      simp [parseDigits, digitOfByte_digitByte hlast]
      omega

/-- A number above 0 is written without a leading zero. -/
theorem decimalDigits_head {fuel n : Nat} (hpos : 1 ≤ n) (h : n < 10 ^ fuel) :
    ∃ d rest, decimalDigits fuel n = d :: rest ∧ d ≠ 0 := by
  induction fuel generalizing n with
  | zero => rw [Nat.pow_zero] at h; omega
  | succ fuel ih =>
    rw [decimalDigits]
    split
    next => exact ⟨n, [], rfl, by omega⟩
    next =>
      obtain ⟨d, rest, heq, hd⟩ := ih (n := n / 10) (by omega) (by rw [Nat.pow_succ] at h; omega)
      exact ⟨d, rest ++ [n % 10], by rw [heq, List.cons_append], hd⟩

theorem parseDecimal_of_no_leading_zero {b : Byte} {rest : List Byte} (h : ¬ (b = zeroByte ∧ rest ≠ [])) :
    parseDecimal (b :: rest) = parseDigits 0 (b :: rest) := if_neg h

theorem parseDecimal_decimalText (sym : Sym) : parseDecimal (decimalText sym) = some sym.toNat := by
  have hlt : sym.toNat < 10 ^ 7 := by have := sym.isLt; omega
  have hparse := parseDigits_decimalDigits hlt
  rw [decimalText_eq]
  by_cases hpos : 1 ≤ sym.toNat
  · obtain ⟨d, rest, hdigits, hd⟩ := decimalDigits_head hpos hlt
    have hten : d < 10 := decimalDigits_lt_ten 7 sym.toNat d (by rw [hdigits]; exact List.mem_cons_self)
    have hne : digitByte d ≠ zeroByte := by
      intro h
      have hval := congrArg BitVec.toNat h
      have hzero : zeroByte.toNat = 0x30 := rfl
      rw [digitByte_toNat hten] at hval
      omega
    rw [hdigits] at hparse ⊢
    rw [List.map_cons] at hparse ⊢
    rw [parseDecimal_of_no_leading_zero fun h => hne h.1, hparse]
  · have hzero : sym.toNat = 0 := by omega
    rw [hzero]
    rfl

theorem parseBits_bitsText (bits : Bits) : parseBits (bitsText bits) = some bits := by
  induction bits with
  | nil => rfl
  | cons b bits ih =>
    change parseBits ((if b then oneByte else zeroByte) :: bitsText bits) = _
    cases b <;> simp [parseBits, ih, oneByte, zeroByte]

theorem splitColon_append {cp : List Byte} (hcp : ∀ b ∈ cp, b ≠ colonByte) (bits : List Byte) :
    splitColon (cp ++ colonByte :: bits) = some (cp, bits) := by
  induction cp with
  | nil => exact if_pos rfl
  | cons b cp ih =>
    obtain ⟨hb, hrest⟩ := List.forall_mem_cons.mp hcp
    rw [List.cons_append, splitColon, if_neg hb, ih hrest]
    rfl

theorem assembleSym_toNat (sym : Sym) : assembleSym sym.toNat = some sym := by
  have hle : sym.toNat ≤ 0x1FFFFF := by have := sym.isLt; omega
  rw [assembleSym, if_pos hle, BitVec.ofNat_toNat, BitVec.setWidth_eq]

theorem loadHeaderLine_headerLine (sym : Sym) {bits : Bits} {len : CodeLen} {code : CodeWord}
    (h : assembleBits bits = some (len, code)) :
    loadHeaderLine (headerLine (sym, bits)) = .ok (.lde sym len code) := by
  have hcp : ∀ b ∈ decimalText sym, b ≠ colonByte := by
    rw [decimalText_eq]
    refine List.forall_mem_map.mpr fun d hd heq => ?_
    have hten := decimalDigits_lt_ten _ _ d hd
    have hval := congrArg BitVec.toNat heq
    have hcolon : colonByte.toNat = 0x3A := rfl
    rw [digitByte_toNat hten] at hval
    omega
  rw [loadHeaderLine, headerLine, splitColon_append hcp]
  simp only [parseDecimal_decimalText, parseBits_bitsText, assembleSym_toNat, h]

/-! ### Reading a header back (R86, R143) -/

theorem splitOnByte_of_not_mem {sep : Byte} {line : List Byte} (h : ∀ b ∈ line, b ≠ sep) :
    splitOnByte sep line = [line] := by
  induction line with
  | nil => rfl
  | cons b line ih =>
    obtain ⟨hb, hrest⟩ := List.forall_mem_cons.mp h
    rw [splitOnByte, if_neg hb, ih hrest]

theorem splitOnByte_append {sep : Byte} {line : List Byte} (h : ∀ b ∈ line, b ≠ sep) (rest : List Byte) :
    splitOnByte sep (line ++ sep :: rest) = line :: splitOnByte sep rest := by
  induction line with
  | nil => exact if_pos rfl
  | cons b line ih =>
    obtain ⟨hb, hline⟩ := List.forall_mem_cons.mp h
    rw [List.cons_append, splitOnByte, if_neg hb, ih hline]

theorem headerText_cons_cons (e e' : Sym × Bits) (rest : CodeTable) :
    headerText (e :: e' :: rest) = headerLine e ++ newlineByte :: headerText (e' :: rest) := rfl

theorem splitOnByte_headerText {table : CodeTable} (hne : table ≠ []) :
    splitOnByte newlineByte (headerText table) = table.map headerLine := by
  have hline (e : Sym × Bits) : ∀ b ∈ headerLine e, b ≠ newlineByte := by
    rintro b hb rfl
    exact absurd (headerLine_bytes e _ hb).1 (by decide)
  induction table with
  | nil => exact absurd rfl hne
  | cons e rest ih =>
    cases rest with
    | nil => exact splitOnByte_of_not_mem (hline e)
    | cons e' rest =>
      rw [headerText_cons_cons, splitOnByte_append (hline e), ih (List.cons_ne_nil _ _)]
      rfl

/-- The LDE of an entry that assembles. -/
theorem loadEntries_cons {sym : Sym} {bits : Bits} {rest : CodeTable} {loads : List Instr}
    (h : loadEntries ((sym, bits) :: rest) = some loads) :
    ∃ len code more, assembleBits bits = some (len, code) ∧ loadEntries rest = some more ∧
      loads = .lde sym len code :: more := by
  rw [loadEntries] at h
  split at h
  next len code more hbits hrest =>
    cases h
    exact ⟨len, code, more, hbits, hrest, rfl⟩
  next => cases h

theorem loadLines_headerLines {table : CodeTable} {loads : List Instr} (h : loadEntries table = some loads) :
    loadLines (table.map headerLine) = .ok loads := by
  induction table generalizing loads with
  | nil =>
    cases h
    rfl
  | cons e rest ih =>
    obtain ⟨len, code, more, hbits, hrest, rfl⟩ := loadEntries_cons h
    rw [List.map_cons, loadLines, loadHeaderLine_headerLine e.1 hbits]
    simp only [ih hrest]

theorem loadTable_headerText {table : CodeTable} (hne : table ≠ []) {loads : List Instr}
    (h : loadEntries table = some loads) : loadTable (headerText table) = .ok loads := by
  rw [loadTable, splitOnByte_headerText hne, loadLines_headerLines h]

theorem exists_loadEntries {table : CodeTable}
    (h : ∀ entry ∈ table, 1 ≤ entry.2.length ∧ entry.2.length ≤ 32) : ∃ loads, loadEntries table = some loads := by
  induction table with
  | nil => exact ⟨[], rfl⟩
  | cons e rest ih =>
    obtain ⟨he, hrest⟩ := List.forall_mem_cons.mp h
    obtain ⟨more, hmore⟩ := ih hrest
    refine ⟨.lde e.1 (BitVec.ofNat 6 e.2.length) (BitVec.ofNat 32 (valOf e.2)) :: more, ?_⟩
    simp only [loadEntries, assembleBits_of_length he, hmore]

/-- Settles O57: every entry assembles, and its line reads back as the assembled command. -/
theorem headerReadsBackAsItsEntries : Obligations.HeaderReadsBackAsItsEntries := by
  intro table hne hcodes
  obtain ⟨loads, hloads⟩ := exists_loadEntries hcodes
  exact ⟨loads, hloads, loadTable_headerText hne hloads⟩

end Sys2Proof.Machine
end

section
/-! SUPPORT. The host's frequency table and Huffman codes (43_host_sequences.md rules R136 to R140): exact counts,
a root for every non-empty table, codes that are prefix-free, and the statements settled with them. -/

namespace Sys2Proof.Machine

/-! ### The Frequency Table (R136) -/

/-- The table's symbols are distinct, and its pairs are the symbols of `text` with their counts. -/
structure Counts (table : List (Sym × Nat)) (text : List Sym) : Prop where
  exact : ∀ sym n, (sym, n) ∈ table ↔ sym ∈ text ∧ n = text.count sym
  distinct : (table.map Prod.fst).Nodup

theorem countSymbol_fst (sym : Sym) (table : List (Sym × Nat)) :
    (countSymbol sym table).map Prod.fst =
      if sym ∈ table.map Prod.fst then table.map Prod.fst else table.map Prod.fst ++ [sym] := by
  induction table with
  | nil => rfl
  | cons p rest ih =>
    rw [countSymbol]
    by_cases hs : p.1 = sym
    · simp [hs]
    · rw [if_neg hs, List.map_cons, ih]
      split <;> simp_all [eq_comm]

section
variable {sym : Sym} {table : List (Sym × Nat)} {n : Nat}

theorem mem_countSymbol_of_ne {s : Sym} (h : s ≠ sym) : (s, n) ∈ countSymbol sym table ↔ (s, n) ∈ table := by
  induction table with
  | nil => simp [countSymbol, h]
  | cons p rest ih =>
    rw [countSymbol]
    split
    next hp => simp [hp, h, Prod.ext_iff]
    next => rw [List.mem_cons, List.mem_cons, ih]

theorem mem_countSymbol_of_absent (h : sym ∉ table.map Prod.fst) : (sym, n) ∈ countSymbol sym table ↔ n = 1 := by
  induction table with
  | nil => simp [countSymbol]
  | cons p rest ih =>
    rw [List.map_cons, List.mem_cons, not_or] at h
    obtain ⟨hp, hrest⟩ := h
    rw [countSymbol, if_neg (Ne.symm hp), List.mem_cons, ih hrest]
    simp [Prod.ext_iff, hp]

theorem mem_countSymbol_of_present (hd : (table.map Prod.fst).Nodup) {m : Nat} (h : (sym, m) ∈ table) :
    (sym, n) ∈ countSymbol sym table ↔ n = m + 1 := by
  induction table with
  | nil => cases h
  | cons p rest ih =>
    rw [List.map_cons, List.nodup_cons] at hd
    obtain ⟨hp, hrest⟩ := hd
    have absent (k : Nat) (hs : p.1 = sym) : (sym, k) ∉ rest := fun hk => hp (hs ▸ List.mem_map_of_mem hk)
    rw [countSymbol]
    split
    next hs =>
      have hhead : (sym, m) = p := (List.mem_cons.mp h).resolve_right (absent m hs)
      simp [absent n hs, ← hhead]
    next hs =>
      have hne : ∀ k, (sym, k) ≠ p := fun k hk => hs (congrArg Prod.fst hk).symm
      rw [List.mem_cons, ih hrest ((List.mem_cons.mp h).resolve_left (hne m))]
      simp [hne n]

end

theorem Counts.mem_fst_iff {table : List (Sym × Nat)} {text : List Sym} (h : Counts table text) (sym : Sym) :
    sym ∈ table.map Prod.fst ↔ sym ∈ text := by
  constructor
  · intro hmem
    obtain ⟨⟨s, n⟩, hp, rfl⟩ := List.mem_map.mp hmem
    exact ((h.exact s n).mp hp).1
  · exact fun hmem => List.mem_map_of_mem ((h.exact sym _).mpr ⟨hmem, rfl⟩)

/-- Counting one more symbol. -/
theorem Counts.countSymbol {table : List (Sym × Nat)} {text : List Sym} (h : Counts table text) (sym : Sym) :
    Counts (countSymbol sym table) (text ++ [sym]) where
  exact s n := by
    rw [List.count_append, List.mem_append, List.mem_singleton]
    by_cases hs : s = sym
    · subst hs
      rw [List.count_singleton_self]
      by_cases hmem : s ∈ text
      · rw [mem_countSymbol_of_present h.distinct ((h.exact s _).mpr ⟨hmem, rfl⟩)]
        simp
      · rw [mem_countSymbol_of_absent ((h.mem_fst_iff s).not.mpr hmem), List.count_eq_zero_of_not_mem hmem]
        simp
    · rw [mem_countSymbol_of_ne hs, h.exact, List.count_singleton]
      simp [hs, Ne.symm hs]
  distinct := by
    rw [countSymbol_fst]
    split
    next => exact h.distinct
    next hnot =>
      refine List.nodup_append.mpr ⟨h.distinct, List.nodup_singleton _, ?_⟩
      rintro a ha b hb rfl
      exact hnot (List.mem_singleton.mp hb ▸ ha)

theorem frequencyTable_counts (text : List Sym) : Counts (frequencyTable text) text := by
  induction text using List.reverseRecOn with
  | nil => exact ⟨by simp [frequencyTable], List.nodup_nil⟩
  | append_singleton text sym ih =>
    have hstep : frequencyTable (text ++ [sym]) = countSymbol sym (frequencyTable text) := by
      simp [frequencyTable]
    rw [hstep]
    exact ih.countSymbol sym

/-- Settles O58: counting the text symbol by symbol keeps the counts exact. -/
theorem frequencyTableCountsExactly : Obligations.FrequencyTableCountsExactly := fun text =>
  ⟨(frequencyTable_counts text).exact, (frequencyTable_counts text).distinct⟩

/-! ### Codes of a tree (R139, R140) -/

theorem path_prefix_extractCodes (tree : HuffNode) (path : Bits) :
    ∀ entry ∈ extractCodes tree path, path <+: entry.2 := by
  induction tree generalizing path with
  | leaf sym freq => simp [extractCodes]
  | branch freq l r ihl ihr =>
    refine List.forall_mem_append.mpr ⟨fun e he => ?_, fun e he => ?_⟩
    · exact (List.prefix_append _ _).trans (ihl _ e he)
    · exact (List.prefix_append _ _).trans (ihr _ e he)

/-- Neither code is a prefix of the other. -/
def Incomparable (a b : Sym × Bits) : Prop := ¬ a.2 <+: b.2 ∧ ¬ b.2 <+: a.2

/-- Codes that part at a node are incomparable. -/
theorem incomparable_of_paths {path : Bits} {a b : Sym × Bits} (ha : path ++ [false] <+: a.2)
    (hb : path ++ [true] <+: b.2) : Incomparable a b := by
  have part (c : Bits) (hl : path ++ [false] <+: c) (hr : path ++ [true] <+: c) : False := by
    have heq := (List.prefix_of_prefix_length_le hl hr (by simp)).eq_of_length (by simp)
    simp at heq
  exact ⟨fun h => part b.2 (ha.trans h) hb, fun h => part a.2 ha (hb.trans h)⟩

theorem extractCodes_incomparable (tree : HuffNode) (path : Bits) :
    (extractCodes tree path).Pairwise Incomparable := by
  induction tree generalizing path with
  | leaf sym freq => exact List.pairwise_singleton _ _
  | branch freq l r ihl ihr =>
    refine List.pairwise_append.mpr ⟨ihl _, ihr _, fun a ha b hb => ?_⟩
    exact incomparable_of_paths (path_prefix_extractCodes l _ a ha) (path_prefix_extractCodes r _ b hb)

theorem codeTableOf_incomparable (singleCode : Bool) (tree : HuffNode) :
    (codeTableOf singleCode tree).Pairwise Incomparable := by
  cases tree with
  | leaf => exact List.pairwise_singleton _ _
  | branch => exact extractCodes_incomparable _ []

theorem codeTableOf_ne_nil (singleCode : Bool) (tree : HuffNode) :
    ∀ entry ∈ codeTableOf singleCode tree, entry.2 ≠ [] := by
  have nonempty {bit : Bool} {code : Bits} (h : [] ++ [bit] <+: code) : code ≠ [] := by
    rintro rfl
    simp at h
  cases tree with
  | leaf sym freq => simp [codeTableOf]
  | branch freq l r =>
    exact List.forall_mem_append.mpr ⟨fun e he => nonempty (path_prefix_extractCodes l _ e he),
      fun e he => nonempty (path_prefix_extractCodes r _ e he)⟩

/-- Settles O59: codes part at a node, and every code of a branch has its first step. -/
theorem extractedCodesArePrefixFree : Obligations.ExtractedCodesArePrefixFree := fun singleCode tree =>
  ⟨codeTableOf_incomparable singleCode tree, codeTableOf_ne_nil singleCode tree⟩

/-! ### A root for every non-empty text (R137) -/

theorem removeFirst_length (tie : TieBreak) (n : HuffNode) (rest : List HuffNode) :
    (removeFirst tie n rest).2.length = rest.length := by
  induction rest generalizing n with
  | nil => rfl
  | cons m rest ih =>
    rw [removeFirst]
    split <;> simp [ih]

theorem mergeLoop_isSome (tie : TieBreak) (fuel : Nat) (nodes : List HuffNode) (hne : nodes ≠ [])
    (hfuel : nodes.length ≤ fuel + 1) : ∃ root, mergeLoop tie fuel nodes = some root := by
  induction fuel generalizing nodes with
  | zero =>
    match nodes with
    | [n] => exact ⟨n, rfl⟩
    | _ :: _ :: _ => simp at hfuel
  | succ fuel ih =>
    match nodes with
    | [n] => exact ⟨n, rfl⟩
    | n :: m :: rest =>
      rw [mergeLoop]
      have hfirst := removeFirst_length tie n (m :: rest)
      split
      next => exact ⟨_, rfl⟩
      next k others hothers =>
        have hsecond := removeFirst_length tie k others
        refine ih _ (List.cons_ne_nil _ _) ?_
        rw [hothers] at hfirst
        simp only [List.length_cons] at hfirst hfuel ⊢
        omega

/-- A non-empty text has a code table. -/
theorem exists_tableOfText (tie : TieBreak) (singleCode : Bool) {text : List Sym} (hne : text ≠ []) :
    ∃ tree, tableOfText tie singleCode text = some (codeTableOf singleCode tree) := by
  obtain ⟨sym, hsym⟩ := List.exists_mem_of_ne_nil text hne
  have hmem := ((frequencyTable_counts text).exact sym _).mpr ⟨hsym, rfl⟩
  obtain ⟨root, hroot⟩ := mergeLoop_isSome tie (frequencyTable text).length
    ((frequencyTable text).map fun sf => .leaf sf.1 sf.2)
    (by simpa using List.ne_nil_of_mem hmem) (by simp)
  refine ⟨root, ?_⟩
  rw [tableOfText, buildTree, hroot]
  rfl

end Sys2Proof.Machine
end

section
/-! SUPPORT. The host's jobs (43_host_sequences.md rules R146 to R151): runs that end without a fault, what a run of
LDEs loads and a run of PKSs packs, what ENCODE leaves, and DOC's round trip with its condition (rule R150). -/

namespace Sys2Proof.Machine

/-! ### Runs that end without a fault (R63, R167) -/

theorem runCommands_next (commands : List Instr) (s : State) : ∃ t, runCommands commands s = .next t := by
  induction commands generalizing s with
  | nil => exact ⟨s, rfl⟩
  | cons i rest ih =>
    obtain ⟨m, hexec, -⟩ := exec_effect i s
    rw [runCommands_cons hexec]
    exact ih m

theorem runCommands_append {first : List Instr} {s m : State} (h : runCommands first s = .next m)
    (rest : List Instr) : runCommands (first ++ rest) s = runCommands rest m := by
  induction first generalizing s with
  | nil =>
    cases h
    rfl
  | cons i first ih =>
    obtain ⟨s', hexec, -⟩ := exec_effect i s
    rw [runCommands_cons hexec] at h
    rw [List.cons_append, runCommands_cons hexec, ih h]

/-- A faulted block ignores a run without CLR. -/
theorem runCommands_faulted {commands : List Instr} (hclr : .clr ∉ commands) {s : State} (herr : s.err ≠ .noError) :
    runCommands commands s = .next s := by
  induction commands with
  | nil => rfl
  | cons i rest ih =>
    rw [List.mem_cons, not_or] at hclr
    rw [runCommands_cons (exec_faulted herr i (Ne.symm hclr.1)), ih hclr.2]

/-- A run without CLR that ends without a fault had none on the way. -/
theorem unfaulted_of_run {commands : List Instr} (hclr : .clr ∉ commands) {s t : State}
    (h : runCommands commands s = .next t) (ht : t.err = .noError) : s.err = .noError := by
  by_contra herr
  cases h.symm.trans (runCommands_faulted hclr herr)
  exact herr ht

/-! ### Loading a table (R100, R143) -/

/-- The LDE of an entry. -/
def ldeOf (e : Entry) : Instr := .lde e.sym e.len e.code

/-- The entry of the host's Code Table that a table entry stands for. -/
def codeEntry (e : Entry) : Sym × Bits := (e.sym, e.string)

theorem clr_not_mem_loads (entries : List Entry) : .clr ∉ entries.map ldeOf := by
  intro h
  obtain ⟨e, -, he⟩ := List.mem_map.mp h
  cases he

theorem loadEntries_entries {table : CodeTable} {loads : List Instr} (h : loadEntries table = some loads) :
    ∃ entries : List Entry, loads = entries.map ldeOf ∧ entries.map codeEntry = table := by
  induction table generalizing loads with
  | nil =>
    cases h
    exact ⟨[], rfl, rfl⟩
  | cons e rest ih =>
    obtain ⟨len, code, more, hbits, hrest, rfl⟩ := loadEntries_cons h
    obtain ⟨-, hstring⟩ := assembleBits_denotes hbits
    obtain ⟨entries, rfl, rfl⟩ := ih hrest
    refine ⟨⟨e.1, len, code⟩ :: entries, rfl, ?_⟩
    rw [List.map_cons, codeEntry, Entry.string, hstring]

/-- LDE of the entry passes all its checks. -/
structure Loadable (s : State) (e : Entry) : Prop where
  err : s.err = .noError
  sym : SymLegal e.sym
  code : CodeLegal e.len e.code
  packIdle : s.pactive = false
  unpackIdle : s.uactive = false
  fresh : ∀ a ∈ s.table, a.sym ≠ e.sym ∧ ¬ (a.len = e.len ∧ a.code = e.code)
  room : tcount s ≠ s.nEntries

theorem Loadable.exec {s : State} {e : Entry} (h : Loadable s e) : exec (ldeOf e) s = .next (loadEntry e s) := by
  rw [ldeOf, Machine.exec, execLde_fresh h.err h.sym h.code h.packIdle h.unpackIdle h.fresh, if_neg h.room]

theorem loadable_of_exec {s t : State} {e : Entry} (hexec : exec (ldeOf e) s = .next t) (ht : t.err = .noError) :
    Loadable s e ∧ t = loadEntry e s := by
  have heffect := exec_cases hexec
  unfold ldeOf at heffect
  cases heffect with
  | ignored _ herr => exact absurd ht herr
  | nothing _ _ hnone => simp at hnone
  | faulted _ _ _ he => exact absurd ht he
  | loaded _ _ _ herr hsym hcode hpack hunpack hfresh hroom =>
    exact ⟨⟨herr, hsym, hcode, hpack, hunpack, hfresh, hroom⟩, rfl⟩
  | packed _ _ _ _ _ hcode => simp at hcode

/-- What an LDE reads is the same in both states. -/
structure SameLoader (s s' : State) : Prop where
  table : s.table = s'.table
  nEntries : s.nEntries = s'.nEntries
  err : s.err = s'.err
  pactive : s.pactive = s'.pactive
  uactive : s.uactive = s'.uactive

theorem Loadable.congr {s s' : State} {e : Entry} (h : Loadable s e) (hsame : SameLoader s s') : Loadable s' e := by
  obtain ⟨herr, hsym, hcode, hpack, hunpack, hfresh, hroom⟩ := h
  obtain ⟨htable, hcap, heq, hpeq, hueq⟩ := hsame
  unfold tcount at hroom
  rw [htable] at hfresh hroom
  exact ⟨heq ▸ herr, hsym, hcode, hpeq ▸ hpack, hueq ▸ hunpack, hfresh, hcap ▸ hroom⟩

/-- A run of LDEs without a fault appends its entries, here and on every block with the same table and room. -/
theorem runCommands_loads {entries : List Entry} {s s' t : State} (hrun : runCommands (entries.map ldeOf) s = .next t)
    (ht : t.err = .noError) (hsame : SameLoader s s') :
    runCommands (entries.map ldeOf) s' = .next { s' with table := s'.table ++ entries } := by
  induction entries generalizing s s' with
  | nil => simp [runCommands]
  | cons e rest ih =>
    obtain ⟨m, hexec, -⟩ := exec_effect (ldeOf e) s
    rw [List.map_cons, runCommands_cons hexec] at hrun
    obtain ⟨hload, rfl⟩ := loadable_of_exec hexec (unfaulted_of_run (clr_not_mem_loads rest) hrun ht)
    have hnext : SameLoader (loadEntry e s) (loadEntry e s') := by
      obtain ⟨htable, hcap, herr, hpack, hunpack⟩ := hsame
      exact ⟨congrArg (· ++ [e]) htable, hcap, herr, hpack, hunpack⟩
    rw [List.map_cons, runCommands_cons (hload.congr hsame).exec, ih hrun hnext]
    simp [loadEntry]

/-! ### Packing a text (R111, R146) -/

theorem clr_not_mem_packText (text : List Sym) : .clr ∉ packText text := by simp [packText]

/-- PKS without a fault packs the code of an entry of its symbol. -/
theorem exec_pks_unfaulted {s t : State} {sym : Sym} (hexec : exec (.pks sym) s = .next t) (ht : t.err = .noError) :
    ∃ e ∈ s.table, e.sym = sym ∧ t.table = s.table ∧ packBase s + e.string.length ≤ 2 ^ 32 - 1 ∧
      packBase t = packBase s + e.string.length := by
  have heffect := exec_cases hexec
  cases heffect with
  | ignored _ herr => exact absurd ht herr
  | nothing _ _ hnone => simp at hnone
  | faulted _ _ _ he => exact absurd ht he
  | packed _ bits bytes pending herr hcode hroom hstream hpending =>
    obtain ⟨len, code, hpkc, -⟩ | ⟨e, hpks, hsym, he, rfl⟩ := hcode
    · cases hpkc
    · cases hpks
      exact ⟨e, he, rfl, rfl, hroom, packBase_packed s hroom⟩

/-- A text packed without a fault is that of entries of the table, and its bits are within the counter. -/
theorem entries_of_packText {text : List Sym} {s t : State} (hrun : runCommands (packText text) s = .next t)
    (ht : t.err = .noError) :
    ∃ es : List Entry, (∀ e ∈ es, e ∈ s.table) ∧ es.map Entry.sym = text ∧
      packBase s + (es.map Entry.string).flatten.length ≤ 2 ^ 32 - 1 := by
  induction text generalizing s with
  | nil =>
    refine ⟨[], nofun, rfl, ?_⟩
    have := s.pbits.isLt
    simp only [packBase, List.map_nil, List.flatten_nil, List.length_nil]
    split <;> omega
  | cons sym text ih =>
    obtain ⟨m, hexec, -⟩ := exec_effect (.pks sym) s
    rw [packText, List.map_cons, runCommands_cons hexec] at hrun
    have hm := unfaulted_of_run (clr_not_mem_packText text) hrun ht
    obtain ⟨e, he, hsym, htable, -, hbase⟩ := exec_pks_unfaulted hexec hm
    obtain ⟨es, hes, rfl, hroom⟩ := ih hrun
    rw [htable] at hes
    rw [hbase, Nat.add_assoc] at hroom
    refine ⟨e :: es, List.forall_mem_cons.mpr ⟨he, hes⟩, by rw [List.map_cons, hsym], ?_⟩
    rwa [List.map_cons, List.flatten_cons, List.length_append]

/-! ### ENCODE (R146) -/

/-- What an ENCODE of a non-empty text gave: the entries loaded, those of the text's symbols, the artifact's bytes
and the exact bit count; and every block of the capacity loads the same entries. -/
structure Encoded (capacity : Nat) (table : CodeTable) (text : List Sym) (bytes : List Byte) (count : Count)
    (entries es : List Entry) : Prop where
  loads : loadEntries table = some (entries.map ldeOf)
  codes : entries.map codeEntry = table
  members : ∀ e ∈ es, e ∈ entries
  symbols : es.map Entry.sym = text
  artifact : bytes = artifact table (payloadOf (es.map Entry.string))
  count : count.toNat = (es.map Entry.string).flatten.length
  reloads : ∀ u : State, u.nEntries = capacity →
    runCommands (entries.map ldeOf) (clearState u) = .next { clearState u with table := entries }

theorem clearState_sameLoader {s u : State} (h : u.nEntries = s.nEntries) :
    SameLoader (clearState s) (clearState u) := ⟨rfl, h.symm, rfl, rfl, rfl⟩

theorem encodeCommands_some {table : CodeTable} {text : List Sym} {commands : List Instr}
    (h : encodeCommands table text = some commands) :
    ∃ loads, loadEntries table = some loads ∧ commands = .clr :: (loads ++ (packText text ++ [.pkf])) := by
  obtain ⟨loads, hloads, rfl⟩ := Option.map_eq_some_iff.mp h
  exact ⟨loads, hloads, by simp⟩

/-- The payload the host takes is all that was emitted since the CLR. -/
theorem payloadSince_eq {s t : State} {payload : List Byte} (hout : t.pout = s.pout ++ payload)
    (hlen : payload.length = (t.pbits.toNat + 7) / 8) : payloadSince s t = payload := by
  have hbits : regRead t 6 = t.pbits := rfl
  rw [payloadSince, hout, List.drop_left, hbits, ← hlen, List.take_length]

theorem encoded_of_run {table : CodeTable} {text : List Sym} (hne : text ≠ []) {commands : List Instr} {s t : State}
    (hn : Config.capacityOK s.nEntries) (hcommands : encodeCommands table text = some commands)
    (hrun : runCommands commands s = .next t) (ht : t.err = .noError) :
    ∃ entries es, Encoded s.nEntries table text (artifact table (payloadSince s t)) t.pbits entries es := by
  obtain ⟨loads, hloads, rfl⟩ := encodeCommands_some hcommands
  obtain ⟨entries, rfl, hcodes⟩ := loadEntries_entries hloads
  rw [runCommands_cons (exec_clr s)] at hrun
  obtain ⟨m, hload⟩ := runCommands_next (entries.map ldeOf) (clearState s)
  rw [runCommands_append hload] at hrun
  have hm : m.err = .noError := unfaulted_of_run (by simp [packText]) hrun ht
  have hreload (u : State) (hu : u.nEntries = s.nEntries) :
      runCommands (entries.map ldeOf) (clearState u) = .next { clearState u with table := entries } :=
    runCommands_loads hload hm (clearState_sameLoader hu)
  cases hload.symm.trans (hreload s rfl)
  have inv : StateInv { clearState s with table := entries } :=
    runCommands_keeps_stateInv (.of_reset hn s.input s.pout s.uout) hload
  obtain ⟨m', hpack⟩ := runCommands_next (packText text) { clearState s with table := entries }
  have hflush := hrun
  rw [runCommands_append hpack] at hflush
  obtain ⟨es, hes, rfl, hroom⟩ := entries_of_packText hpack (unfaulted_of_run (by simp) hflush ht)
  have hbase : packBase { clearState s with table := entries } = 0 := rfl
  rw [hbase, Nat.zero_add] at hroom
  have hcommands : packText (es.map Entry.sym) ≠ [] := by simpa [packText] using hne
  obtain ⟨hpacked, hlen, -⟩ := packStreamEmitsThePayload _ _ _ (packs_of_entries inv.table hes) hcommands inv.table
    rfl rfl rfl hroom
  cases hrun.symm.trans hpacked
  have hcount : (BitVec.ofNat 32 (es.map Entry.string).flatten.length).toNat =
      (es.map Entry.string).flatten.length := Nat.mod_eq_of_lt (by omega)
  have hpayload := payloadSince_eq (s := s) (t := { clearState s with
    table := entries, pbits := BitVec.ofNat 32 (es.map Entry.string).flatten.length,
    pout := s.pout ++ payloadOf (es.map Entry.string) }) rfl (by rw [hlen, hcount])
  exact ⟨entries, es, hloads, hcodes, hes, rfl, congrArg (artifact table) hpayload, hcount, hreload⟩

/-- ENCODE of a non-empty text loaded the reordered codes of a tree and packed the text with them. -/
theorem encodeJob_encoded {tie : TieBreak} {singleCode : Bool} {order : CodeTable → CodeTable}
    {empty : EmptyArtifact} {text : List Sym} {s t : State} {bytes : List Byte} (hne : text ≠ [])
    (hn : Config.capacityOK s.nEntries) (h : encodeJob tie singleCode order empty text s = .ok (bytes, t)) :
    ∃ tree entries es,
      Encoded s.nEntries (order (codeTableOf singleCode tree)) text bytes t.pbits entries es := by
  obtain ⟨tree, htree⟩ := exists_tableOfText tie singleCode hne
  rw [encodeJob, htree, Option.map_some] at h
  simp only at h
  split at h
  next => cases h
  next commands hcommands =>
    obtain ⟨t', hrun⟩ := runCommands_next commands s
    rw [hrun] at h
    simp only at h
    split at h
    next herr =>
      cases h
      obtain ⟨entries, es, hencoded⟩ :=
        encoded_of_run hne hn hcommands hrun ((regRead_err_eq_zero_iff t).mp herr)
      exact ⟨tree, entries, es, hencoded⟩
    next => cases h

/-! ### DECODE (R148) -/

theorem artifact_ne_empty {table : CodeTable} (hne : table ≠ []) (payload : List Byte) (empty : EmptyArtifact) :
    artifact table payload ≠ emptyArtifactBytes empty := by
  have hheader : 1 ≤ (headerText table).length := by
    match table with
    | [e] =>
      have hline : headerText [e] = headerLine e := rfl
      rw [hline, headerLine, List.length_append, List.length_cons]
      omega
    | e :: e' :: rest =>
      rw [headerText_cons_cons, List.length_append, List.length_cons]
      omega
  have hempty : (emptyArtifactBytes empty).length ≤ sentinel.length := by cases empty <;> decide
  intro h
  have hlen := congrArg List.length h
  rw [artifact, List.length_append, List.length_append] at hlen
  omega

/-- The codes of the loaded entries are prefix-free when those of the table are (R139, R140). -/
theorem prefixFree_of_codes {entries : List Entry} {table : CodeTable} (hcodes : entries.map codeEntry = table)
    (h : table.Pairwise Incomparable) : PrefixFree entries := by
  rw [← hcodes, List.pairwise_map] at h
  exact h

theorem perm_incomparable {table table' : CodeTable} (hperm : table'.Perm table) (h : table.Pairwise Incomparable) :
    table'.Pairwise Incomparable := (hperm.pairwise_iff And.symm).mpr h

theorem decodeCommands_artifact {table : CodeTable} (hne : table ≠ []) {loads : List Instr}
    (hloads : loadEntries table = some loads) (limit : Count) (payload : List Byte) :
    decodeCommands (some limit) (artifact table payload) =
      .ok (.clr :: (loads ++ (.ulm true limit :: unpackBytes payload ++ [.upe]))) := by
  rw [decodeCommands, artifactSplitsAtItsSentinel]
  simp only [loadTable_headerText hne hloads]
  simp

theorem decodeJob_of_run {empty : EmptyArtifact} {limit : Count} {bytes : List Byte} {u v : State}
    {commands : List Instr} {text : List Sym} (hne : bytes ≠ emptyArtifactBytes empty)
    (hcommands : decodeCommands (some limit) bytes = .ok commands) (hrun : runCommands commands u = .next v)
    (herr : v.err = .noError) (hout : v.uout = u.uout ++ text) :
    decodeJob empty (some limit) bytes u = .ok (text, v) := by
  rw [decodeJob, if_neg hne, hcommands]
  simp only [hrun]
  rw [if_pos ((regRead_err_eq_zero_iff v).mpr herr), hout, List.drop_left]

/-- Settles O60: the second block loads the same prefix-free table, and under the exact bit count it unpacks the
payload to the text. -/
theorem decodeJobInvertsEncodeJob : Obligations.DecodeJobInvertsEncodeJob := by
  intro tie singleCode order empty text s t u bytes horder hne hn hu hencode
  obtain ⟨tree, entries, es, henc⟩ := encodeJob_encoded hne hn hencode
  obtain ⟨hloads, hcodes, hes, rfl, rfl, hcount, hreloads⟩ := henc
  have hesne : es ≠ [] := fun h => hne (by rw [h]; rfl)
  have htable : order (codeTableOf singleCode tree) ≠ [] := by
    obtain ⟨e, he⟩ := List.exists_mem_of_ne_nil es hesne
    rw [← hcodes]
    simpa using List.ne_nil_of_mem (hes e he)
  have hfree : PrefixFree entries :=
    prefixFree_of_codes hcodes (perm_incomparable (horder _) (codeTableOf_incomparable singleCode tree))
  have hload := hreloads u hu
  have inv : StateInv { clearState u with table := entries } :=
    runCommands_keeps_stateInv (.of_reset (hu ▸ hn) u.input u.pout u.uout) hload
  have hunpack := runCommands_unpacks inv hfree rfl rfl hesne hes hcount
  have hrun := (runCommands_cons (exec_clr u) _).trans ((runCommands_append hload _).trans hunpack)
  have hcommands := decodeCommands_artifact htable hloads t.pbits (payloadOf (es.map Entry.string))
  exact ⟨_, decodeJob_of_run (artifact_ne_empty htable _ empty) hcommands hrun rfl rfl⟩

end Sys2Proof.Machine
end
